-- ==== Sys2Proof/Word.lean ====
section
/-! DEFINITION. The two word types of HCE-1 (spec/00_scope.md R13, R15). -/

namespace Sys2Proof

/-- A 32-bit word: a command word, or one register of the host window (R13). -/
abbrev Word := BitVec 32

/-- An 8-bit byte of the IN or OUT stream, or a code length (R9, R13). -/
abbrev Byte := BitVec 8

end Sys2Proof
end

