-- ==== Sys2Proof/Config.lean ====
section
/-! DEFINITION. What is fixed for the machine, and the values the spec leaves open.
The three open values are opaque: nothing evaluates them and no proof can see what they are. -/

namespace Sys2Proof.Config

/-- ID, the constant register at offset 0x10: "HCE1" in ASCII (spec/10_state.md R48). -/
def idWord : Word := 0x48434531

/-- RES after SYMLIM: the symbol limit `NSYM = 322` (spec/40_control.md R137, spec/00_scope.md R8). -/
def symbolLimit : Word := 322

/-- FREE VALUE (log entry 3). What a STATUS field other than BUSY, RES or ERRINFO reads as while
BUSY = 1: "*any value*: the command is mid-way" (spec/70_reset_and_hazards.md R302, U4). Applied to
the counter `State.free`. -/
opaque midCommandValue : Nat → Word

/-- FREE VALUE (log entry 2). The weights the HT arena holds after a reset: "the node contents are
unspecified and no rule reads them" (spec/10_state.md R51, R61, U2). Applied to `State.free`. -/
opaque htWeightAfterReset : Nat → Vector (BitVec 41) 643

/-- FREE VALUE (log entry 2). The child indices HL (first) and HR (second) of the HT arena's
internal nodes after a reset (R51, R61, U2). Applied to `State.free`. -/
opaque htChildrenAfterReset : Nat → Vector (BitVec 10) 321 × Vector (BitVec 10) 321

end Sys2Proof.Config
end

