-- ==== Sys2Proof/Syntax.lean ====
section
/-! DEFINITION. The 26 commands of HCE-1, one constructor per row of the opcode map
(spec/30_encoding.md R108). Operands are taken from the word unmodified (R107). A symbol operand and
CGET's word index are indexes, so they are `Nat` and their ranges are checked in WellFormed; a bit, a
byte and a code length have the type of what they are. -/

namespace Sys2Proof

/-- A command of HCE-1. -/
inductive Instr where
  /-- no operation (R135) -/
  | nop
  /-- session reset (R136) -/
  | srst
  /-- read the symbol limit (R137) -/
  | symlim
  /-- write one bit (R154) -/
  | bwr (bit : Bool)
  /-- finish the output stream (R155) -/
  | bfin
  /-- read one bit (R156) -/
  | brd
  /-- read one bit that must exist (R157) -/
  | brdne
  /-- clear the frequency table (R171) -/
  | fclr
  /-- increment a frequency (R172) -/
  | finc (sym : Nat)
  /-- read a frequency (R174) -/
  | fget (sym : Nat)
  /-- build the Huffman tree (R173) -/
  | fbuild
  /-- build the canonical code from the Huffman tree (R196) -/
  | ctree
  /-- build the canonical code from the length table (R197) -/
  | clen
  /-- set one code length: SYM and IMM8 (R198) -/
  | lset (sym : Nat) (imm : Byte)
  /-- read one code length (R199) -/
  | lget (sym : Nat)
  /-- read 32 bits of one code value: SYM and the word index K (R200) -/
  | cget (sym : Nat) (k : Nat)
  /-- write the length header (R201) -/
  | hdrw
  /-- read the length header (R202) -/
  | hdrr
  /-- feed one input byte to the counting pass (R223) -/
  | cbyte (byte : Byte)
  /-- end of input for the counting pass (R224) -/
  | cend
  /-- feed one input byte to the encoding pass (R225) -/
  | ebyte (byte : Byte)
  /-- end of input for the encoding pass (R226) -/
  | eend
  /-- emit the bytes one decoded symbol stands for (R227) -/
  | xsym (sym : Nat)
  /-- encode one symbol (R243) -/
  | henc (sym : Nat)
  /-- decode one symbol (R244) -/
  | hdec
  /-- decode one symbol and emit its bytes (R246) -/
  | xdec
  deriving DecidableEq, Repr

end Sys2Proof
end

