-- ==== Sys2Proof/WellFormed.lean ====
section
/-! DEFINITION. Which commands have an encoding: the operand ranges an assembler checks
(spec/30_encoding.md R107, R111). A symbol 322..511 IS well formed: it encodes, and the command then
raises E_SYM_RANGE when it runs. -/

namespace Sys2Proof

/-- SYM is a 9-bit field, `0..511` (R107, R111). -/
def symEncodable (sym : Nat) : Bool := sym < 512

/-- K is a 3-bit field, `0..7` (R107, R111). -/
def wordIndexEncodable (k : Nat) : Bool := k < 8

/-- "An assembler refuses an operand outside its field's range." (R111) -/
def Instr.wellFormed : Instr → Bool
  | .nop | .srst | .symlim | .bfin | .brd | .brdne | .fclr | .fbuild | .ctree | .clen | .hdrw
  | .hdrr | .cend | .eend | .hdec | .xdec => true
  | .bwr _ | .cbyte _ | .ebyte _ => true
  | .finc sym | .fget sym | .lget sym | .xsym sym | .henc sym => symEncodable sym
  | .lset sym _ => symEncodable sym
  | .cget sym k => symEncodable sym && wordIndexEncodable k

end Sys2Proof
end

