-- ==== Sys2Proof/Decode.lean ====
section
/-! DEFINITION. The decoder, the encoder and the host's entry to the decoder
(spec/30_encoding.md R100 to R110). One 32-bit word is one command; there is no other length. -/

namespace Sys2Proof

/-- `SYM = w[8:0]` (R107). -/
def fieldSym (w : Word) : Nat := (w.extractLsb' 0 9).toNat

/-- `BIT = w[0]` (R107). -/
def fieldBit (w : Word) : Bool := w.getLsbD 0

/-- `BYTE = w[7:0]` (R107). -/
def fieldByte (w : Word) : Byte := w.extractLsb' 0 8

/-- `IMM8 = w[23:16]` (R107). -/
def fieldImm8 (w : Word) : Byte := w.extractLsb' 16 8

/-- `K = w[18:16]` (R107). -/
def fieldK (w : Word) : Nat := (w.extractLsb' 16 3).toNat

/-- `OPC = w[31:24]` (R101). -/
def fieldOpcode (w : Word) : BitVec 8 := w.extractLsb' 24 8

/-- `w[23:0]`: the operand fields and reserved bits, and the payload of E_ILLEGAL (R101, R109). -/
def fieldLow24 (w : Word) : BitVec 24 := w.extractLsb' 0 24

/-- One row of the opcode map (R108). -/
structure OpcodeRow where
  mnemonic : String
  pattern  : Word
  mask     : Word
  command  : Word → Instr

/-- Control and bit-stream rows of the opcode map (R108). -/
def opcodeRowsLow : List OpcodeRow := [
  ⟨"NOP",    0x00000000, 0xFFFFFFFF, fun _ => .nop⟩,
  ⟨"SRST",   0x01000000, 0xFFFFFFFF, fun _ => .srst⟩,
  ⟨"SYMLIM", 0x02000000, 0xFFFFFFFF, fun _ => .symlim⟩,
  ⟨"BWR",    0x10000000, 0xFFFFFFFE, fun w => .bwr (fieldBit w)⟩,
  ⟨"BFIN",   0x11000000, 0xFFFFFFFF, fun _ => .bfin⟩,
  ⟨"BRD",    0x12000000, 0xFFFFFFFF, fun _ => .brd⟩,
  ⟨"BRDNE",  0x13000000, 0xFFFFFFFF, fun _ => .brdne⟩,
  ⟨"FCLR",   0x20000000, 0xFFFFFFFF, fun _ => .fclr⟩,
  ⟨"FINC",   0x21000000, 0xFFFFFE00, fun w => .finc (fieldSym w)⟩,
  ⟨"FGET",   0x22000000, 0xFFFFFE00, fun w => .fget (fieldSym w)⟩,
  ⟨"FBUILD", 0x23000000, 0xFFFFFFFF, fun _ => .fbuild⟩]

/-- Canonical-code, escape and Huffman rows of the opcode map (R108). -/
def opcodeRowsHigh : List OpcodeRow := [
  ⟨"CTREE",  0x30000000, 0xFFFFFFFF, fun _ => .ctree⟩,
  ⟨"CLEN",   0x31000000, 0xFFFFFFFF, fun _ => .clen⟩,
  ⟨"LSET",   0x32000000, 0xFF00FE00, fun w => .lset (fieldSym w) (fieldImm8 w)⟩,
  ⟨"LGET",   0x33000000, 0xFFFFFE00, fun w => .lget (fieldSym w)⟩,
  ⟨"CGET",   0x34000000, 0xFFF8FE00, fun w => .cget (fieldSym w) (fieldK w)⟩,
  ⟨"HDRW",   0x35000000, 0xFFFFFFFF, fun _ => .hdrw⟩,
  ⟨"HDRR",   0x36000000, 0xFFFFFFFF, fun _ => .hdrr⟩,
  ⟨"CBYTE",  0x40000000, 0xFFFFFF00, fun w => .cbyte (fieldByte w)⟩,
  ⟨"CEND",   0x41000000, 0xFFFFFFFF, fun _ => .cend⟩,
  ⟨"EBYTE",  0x42000000, 0xFFFFFF00, fun w => .ebyte (fieldByte w)⟩,
  ⟨"EEND",   0x43000000, 0xFFFFFFFF, fun _ => .eend⟩,
  ⟨"XSYM",   0x44000000, 0xFFFFFE00, fun w => .xsym (fieldSym w)⟩,
  ⟨"HENC",   0x50000000, 0xFFFFFE00, fun w => .henc (fieldSym w)⟩,
  ⟨"HDEC",   0x51000000, 0xFFFFFFFF, fun _ => .hdec⟩,
  ⟨"XDEC",   0x52000000, 0xFFFFFFFF, fun _ => .xdec⟩]

/-- The complete opcode map (R108). -/
def opcodeRows : List OpcodeRow := opcodeRowsLow ++ opcodeRowsHigh

/-- "a word `w` is the command exactly when `w AND mask = match`" (R108). -/
def OpcodeRow.hits (r : OpcodeRow) (w : Word) : Bool := w &&& r.mask == r.pattern

/-- `Decode(w)` (R110): the row the word matches, with its operands, or none, which is ILLEGAL. -/
def decode (w : Word) : Option Instr := (opcodeRows.find? (·.hits w)).map (·.command w)

/-- The opcode byte `w[31:24]` of each command (R108). -/
def Instr.opcode : Instr → BitVec 8
  | .nop => 0x00 | .srst => 0x01 | .symlim => 0x02
  | .bwr _ => 0x10 | .bfin => 0x11 | .brd => 0x12 | .brdne => 0x13
  | .fclr => 0x20 | .finc _ => 0x21 | .fget _ => 0x22 | .fbuild => 0x23
  | .ctree => 0x30 | .clen => 0x31 | .lset _ _ => 0x32 | .lget _ => 0x33
  | .cget _ _ => 0x34 | .hdrw => 0x35 | .hdrr => 0x36
  | .cbyte _ => 0x40 | .cend => 0x41 | .ebyte _ => 0x42 | .eend => 0x43 | .xsym _ => 0x44
  | .henc _ => 0x50 | .hdec => 0x51 | .xdec => 0x52

/-- Format N (R102). -/
def formatN (opc : BitVec 8) : Word := (opc ++ 0#24).cast rfl

/-- Format B (R103). -/
def formatB (opc : BitVec 8) (bit : Bool) : Word :=
  (opc ++ 0#23 ++ BitVec.ofBool bit).cast rfl

/-- Format S (R104). -/
def formatS (opc : BitVec 8) (sym : Nat) : Word :=
  (opc ++ 0#15 ++ BitVec.ofNat 9 sym).cast rfl

/-- Format Y (R105). -/
def formatY (opc : BitVec 8) (byte : Byte) : Word := (opc ++ 0#16 ++ byte).cast rfl

/-- Format L, used by LSET (R106). -/
def formatL (opc : BitVec 8) (sym : Nat) (imm : Byte) : Word :=
  (opc ++ imm ++ 0#7 ++ BitVec.ofNat 9 sym).cast rfl

/-- Format L3, used by CGET (R106). -/
def formatL3 (opc : BitVec 8) (sym k : Nat) : Word :=
  (opc ++ 0#5 ++ BitVec.ofNat 3 k ++ 0#7 ++ BitVec.ofNat 9 sym).cast rfl

/-- The command word of a well-formed command (R102 to R108). -/
def encode (i : Instr) : Word :=
  match i with
  | .nop | .srst | .symlim | .bfin | .brd | .brdne | .fclr | .fbuild | .ctree | .clen | .hdrw
  | .hdrr | .cend | .eend | .hdec | .xdec => formatN i.opcode
  | .bwr bit => formatB i.opcode bit
  | .finc sym | .fget sym | .lget sym | .xsym sym | .henc sym => formatS i.opcode sym
  | .cbyte byte | .ebyte byte => formatY i.opcode byte
  | .lset sym imm => formatL i.opcode sym imm
  | .cget sym k => formatL3 i.opcode sym k

/-- What the decoder reads from a table row's word: every row has 32 bits, and a shorter `nbits`
leaves the bits above it 0. -/
def decodeTableWord (nbits w : Nat) : Option Instr :=
  if w < 2 ^ min nbits 32 then decode (BitVec.ofNat 32 w) else none

end Sys2Proof
end

