-- ==== Sys2Proof/Machine/State.lean ====
section
/-! DEFINITION. Every piece of state the spec gives HCE-1 (spec/10_state.md), the ports and the host
beside it (spec/20_memory.md, spec/00_scope.md R14), the reasons a step can stop, and the state after
reset. HCE-1 has no data memory (R17, R70), so no memory stands here. -/

namespace Sys2Proof.Machine

/-- ERR, HALT and ERRINFO (R35, R36, R47). -/
structure ErrorRegs where
  /-- ERR: the cause code of the first error of the session, or 0 -/
  err  : BitVec 8
  /-- HALT: an error has been taken in this session -/
  halt : Bool
  /-- ERRINFO: the opcode byte and the payload of that error -/
  info : Word
  deriving DecidableEq, Repr

/-- HT, the Huffman tree arena (R51). Nodes `0..321` are the leaves, `322..642` the internal nodes, 642
the root. -/
structure HuffTree where
  /-- `W[0..642]`, 41 bits each -/
  weight : Vector (BitVec 41) 643
  /-- `HL[322..642]`, 10 bits each, at index `n - 322` -/
  left   : Vector (BitVec 10) 321
  /-- `HR[322..642]`, 10 bits each, at index `n - 322` -/
  right  : Vector (BitVec 10) 321
  deriving DecidableEq, Repr

/-- The frequency accumulator and code-tree builder: FREQ, HT and HT_VALID (R50, R51, R37). -/
structure FreqUnit where
  freq  : Vector (BitVec 32) 322
  ht    : HuffTree
  valid : Bool
  deriving DecidableEq, Repr

/-- CT, the canonical code tree (R54): bit 0 leads to the left child, bit 1 to the right. -/
inductive CodeTree where
  | empty
  | leaf (sym : Nat)
  | node (left right : CodeTree)
  deriving DecidableEq, Repr

/-- The canonical code table generator: LEN, CODE, CT and CODE_VALID (R52, R53, R54, R38). -/
structure CodeUnit where
  len   : Vector Byte 322
  code  : Vector (BitVec 255) 322
  ct    : CodeTree
  valid : Bool
  deriving DecidableEq, Repr

/-- The two passes of the escape transform (R222); ESC_MODE names one (R40). -/
inductive Pass where
  | counting
  | encoding
  deriving DecidableEq, Repr

/-- The escape transform: ESC_CNT, ESC_MODE and RUN (R39, R40, R57). -/
structure EscapeUnit where
  /-- ESC_CNT: a zero run is being counted -/
  counting : Bool
  /-- ESC_MODE: 0 = counting pass, 1 = encoding pass -/
  mode     : Pass
  run      : BitVec 66
  deriving DecidableEq, Repr

/-- The bit packer: BO_ACC, BO_CNT and BO_CLOSED (R55, R42, R41). -/
structure Packer where
  acc    : Byte
  cnt    : BitVec 3
  closed : Bool
  deriving DecidableEq, Repr

/-- The bit unpacker: BI_BUF, BI_REM and BI_EOS (R56, R43, R44). -/
structure Unpacker where
  buf : Byte
  rem : BitVec 4
  eos : Bool
  deriving DecidableEq, Repr

/-- `IN_END`: what the IN port reports after its last byte (R14). -/
inductive InEnd where
  | eos
  | ioerr
  deriving DecidableEq, Repr

/-- The IN port: `IN_BYTES`, `IN_POS` and `IN_END` (R14, R71). -/
structure InPort where
  bytes : List Byte
  pos   : Nat
  atEnd : InEnd
  deriving DecidableEq, Repr

/-- The OUT port: the bytes delivered, oldest first, and `OUT_LIMIT`, `none` for infinity (R14, R72). -/
structure OutPort where
  bytes : List Byte
  limit : Option Nat
  deriving DecidableEq, Repr

/-- One thing the host does: an access of `size` bytes at a bus address (R32, R74), or power-on (R291). -/
inductive HostAccess where
  | write (addr size : Nat) (data : Word)
  | read (addr size : Nat)
  | powerOn
  deriving DecidableEq, Repr

/-- The host beside the engine. -/
structure HostSide where
  /-- `WINDOW_BASE`, the launch parameter of R78 -/
  base    : Nat
  /-- what the host does next, in order: its command sequence and its window reads (R14, R31) -/
  pending : List HostAccess
  /-- `k`, the program position: CMD writes consumed so far (R31) -/
  k       : Nat
  /-- the values the host's window reads returned, oldest first -/
  reads   : List Word
  deriving DecidableEq, Repr

/-- The whole machine. -/
structure State where
  /-- ERR, HALT, ERRINFO -/
  er     : ErrorRegs
  /-- RES (R46) -/
  res    : Word
  /-- DEC_EOF (R45) -/
  decEof : Bool
  /-- BUSY (R302) -/
  busy   : Bool
  /-- FREQ, HT, HT_VALID -/
  fq     : FreqUnit
  /-- LEN, CODE, CT, CODE_VALID -/
  cn     : CodeUnit
  /-- ESC_CNT, ESC_MODE, RUN -/
  esc    : EscapeUnit
  /-- BO_ACC, BO_CNT, BO_CLOSED -/
  bo     : Packer
  /-- BI_BUF, BI_REM, BI_EOS -/
  bi     : Unpacker
  /-- the IN port -/
  inp    : InPort
  /-- the OUT port -/
  outp   : OutPort
  /-- the host -/
  host   : HostSide
  /-- THE MODEL'S OWN: counts the free values taken (log entries 2 and 3) -/
  free   : Nat
  deriving DecidableEq, Repr

/-- Why a step ends in a fault. No constructor: every error of HCE-1 is "the hardware's architected
response" with exact effects (R271), so it is a next state, and no command is without an effect. Nobody
raises one; safe. -/
inductive Fault where
  deriving DecidableEq, Repr

/-- Why a step is refused. -/
inductive Refusal where
  /-- An instruction without a meaning yet. Raised by an arm of `exec` alone; no arm is left that does.
  Safe. -/
  | notModelled (mnemonic : String)
  /-- A host access that is not an aligned 32-bit word at offsets `0x00..0x1C` (R74, R271, U6: "refuse").
  Raised by `hostAccess`. Safe. -/
  | badWindowAccess
  /-- "A host CMD write while BUSY = 1 is refused" (R303, U5). Raised by `hostAccess`. Safe. -/
  | cmdWhileBusy
  deriving DecidableEq, Repr

/-- A table of `n` entries from a list: its first `n` values, then `d`. -/
def tableOf {α : Type} (n : Nat) (d : α) (l : List α) : Vector α n :=
  ⟨(l.take n ++ List.replicate (n - l.length) d).toArray, by simp; omega⟩

/-- The HT arena with nothing in it: what the node contents are at `State.reset` (log entry 2). -/
def HuffTree.zero : HuffTree where
  weight := Vector.replicate 643 0
  left   := Vector.replicate 321 0
  right  := Vector.replicate 321 0

/-- The machine right after power-on (R61, R290, R291), launched with no input bytes, an unlimited OUT
port, the window at address 0 and no host access pending (log entry 1). -/
def State.reset : State where
  er     := { err := 0, halt := false, info := 0 }
  res    := 0
  decEof := false
  busy   := false
  fq     := { freq := Vector.replicate 322 0, ht := HuffTree.zero, valid := false }
  cn     := { len := Vector.replicate 322 0, code := Vector.replicate 322 0, ct := .empty, valid := false }
  esc    := { counting := false, mode := .counting, run := 0 }
  bo     := { acc := 0, cnt := 0, closed := false }
  bi     := { buf := 0, rem := 0, eos := false }
  inp    := { bytes := [], pos := 0, atEnd := .eos }
  outp   := { bytes := [], limit := none }
  host   := { base := 0, pending := [], k := 0, reads := [] }
  free   := 0

/-! The updates, one for each field of State. -/

/-- Replaces ERR, HALT and ERRINFO. -/
def State.withEr (s : State) (v : ErrorRegs) : State := { s with er := v }
/-- Replaces RES. -/
def State.withRes (s : State) (v : Word) : State := { s with res := v }
/-- Replaces DEC_EOF. -/
def State.withDecEof (s : State) (v : Bool) : State := { s with decEof := v }
/-- Replaces BUSY. -/
def State.withBusy (s : State) (v : Bool) : State := { s with busy := v }
/-- Replaces FREQ, HT and HT_VALID. -/
def State.withFq (s : State) (v : FreqUnit) : State := { s with fq := v }
/-- Replaces LEN, CODE, CT and CODE_VALID. -/
def State.withCn (s : State) (v : CodeUnit) : State := { s with cn := v }
/-- Replaces ESC_CNT, ESC_MODE and RUN. -/
def State.withEsc (s : State) (v : EscapeUnit) : State := { s with esc := v }
/-- Replaces BO_ACC, BO_CNT and BO_CLOSED. -/
def State.withBo (s : State) (v : Packer) : State := { s with bo := v }
/-- Replaces BI_BUF, BI_REM and BI_EOS. -/
def State.withBi (s : State) (v : Unpacker) : State := { s with bi := v }
/-- Replaces the IN port. -/
def State.withInp (s : State) (v : InPort) : State := { s with inp := v }
/-- Replaces the OUT port. -/
def State.withOutp (s : State) (v : OutPort) : State := { s with outp := v }
/-- Replaces the host's side. -/
def State.withHost (s : State) (v : HostSide) : State := { s with host := v }
/-- Replaces the counter of free values. -/
def State.withFree (s : State) (v : Nat) : State := { s with free := v }

end Sys2Proof.Machine
end

