-- ==== Sys2Proof/Machine/Flags.lean ====
section
/-! DEFINITION. STATUS, the one view of every flag (spec/10_state.md R34, R58). HCE-1 has no arithmetic
condition codes: a flag is written by the command rules themselves, and STATUS only mirrors it. -/

namespace Sys2Proof.Machine

/-- The ESC_MODE bit: 0 = counting pass, 1 = encoding pass, "and it reads 0 while ESC_CNT = 0" (R40). -/
def escModeBit (e : EscapeUnit) : Bool := e.counting && e.mode == .encoding

/-- STATUS (R34), each field at its bit position; the reserved bits `[31:24]` are 0. -/
def statusWord (s : State) : Word :=
  BitVec.ofNat 32
    (s.er.err.toNat + s.er.halt.toNat * 2 ^ 8 + s.fq.valid.toNat * 2 ^ 9 + s.cn.valid.toNat * 2 ^ 10 +
      s.esc.counting.toNat * 2 ^ 11 + (escModeBit s.esc).toNat * 2 ^ 12 + s.bo.closed.toNat * 2 ^ 13 +
      s.bo.cnt.toNat * 2 ^ 14 + s.bi.rem.toNat * 2 ^ 17 + s.bi.eos.toNat * 2 ^ 21 +
      s.decEof.toNat * 2 ^ 22 + s.busy.toNat * 2 ^ 23)

end Sys2Proof.Machine
end

