-- ==== Sys2Proof/Machine/Ops.lean ====
section
/-! DEFINITION. The operations the commands share: a raise and error entry, the reset action, the
tables, the ports, the bit packer and unpacker. Each follows the spec's own pseudocode. -/

namespace Sys2Proof.Machine

/-! ## Raising an error -/

/-- The cause table (spec/60_exceptions.md R261). -/
inductive Cause where
  | symRange | freqOvf | runRange | noCode
  | lenOvf | eosField | eosSymbol | badLengths
  | ioRead | ioWrite
  | illegal
  | noTree | noTable | boClosed | escMode
  deriving DecidableEq, Repr

/-- The code error entry writes to ERR: the kind in `[7:4]`, the cause in `[3:0]` (R261, R262). -/
def Cause.code : Cause → BitVec 8
  | .symRange => 0x11 | .freqOvf => 0x12 | .runRange => 0x13 | .noCode => 0x14
  | .lenOvf => 0x21 | .eosField => 0x22 | .eosSymbol => 0x23 | .badLengths => 0x24
  | .ioRead => 0x31 | .ioWrite => 0x32
  | .illegal => 0x41
  | .noTree => 0x51 | .noTable => 0x52 | .boClosed => 0x53 | .escMode => 0x54

/-- How a run of micro-steps ends (spec/00_scope.md R18): with a value, or with a `raise` of a cause and
its payload. Either way the state holds every write made so far (spec/40_control.md R133). -/
inductive Run (α : Type) where
  | ok (a : α) (s : State)
  | raise (c : Cause) (payload : BitVec 24) (s : State)

/-- One run of micro-steps after another; "a `raise` ends the command at that point" (R18). -/
def Run.andThen {α β : Type} (r : Run α) (f : α → State → Run β) : Run β :=
  match r with
  | .ok a s => f a s
  | .raise c p s => .raise c p s

/-- A precondition that holds, or else raises `c` with payload 0 (R132). -/
def require (holds : Bool) (c : Cause) (s : State) : Run Unit :=
  if holds then .ok () s else .raise c 0 s

/-- ERRINFO: `w[31:24] * 2^24 + p` (R265, R47). -/
def errorInfo (opcode : BitVec 8) (payload : BitVec 24) : Word :=
  BitVec.ofNat 32 (opcode.toNat * 2 ^ 24 + payload.toNat)

/-- `ErrorEntry(c, p, w)` (spec/60_exceptions.md R265): ERR, ERRINFO and HALT are written, nothing else.
This is HCE-1's only trap (R260); the return from it is the reset action (R267). -/
def errorEntry (c : Cause) (payload : BitVec 24) (opcode : BitVec 8) (s : State) : State :=
  s.withEr { err := c.code, halt := true, info := errorInfo opcode payload }

/-- `Reset()` (spec/70_reset_and_hazards.md R290). ID, the IN stream's position and OUT are not touched;
the HT node contents become unspecified (R61), a free value; STATUS is 0 in every field, BUSY too
(R136). -/
def engineReset (s : State) : State :=
  { s with
    er     := { err := 0, halt := false, info := 0 }
    res    := 0
    decEof := false
    busy   := false
    fq     := {
      freq  := Vector.replicate 322 0
      ht    := {
        weight := Config.htWeightAfterReset s.free
        left   := (Config.htChildrenAfterReset s.free).1
        right  := (Config.htChildrenAfterReset s.free).2 }
      valid := false }
    cn     := {
      len := Vector.replicate 322 0, code := Vector.replicate 322 0, ct := .empty, valid := false }
    esc    := { counting := false, mode := .counting, run := 0 }
    bo     := { acc := 0, cnt := 0, closed := false }
    bi     := { buf := 0, rem := 0, eos := false }
    free   := s.free + 1 }

/-- What every command does around its checks and body (spec/40_control.md R130, R131): while halted it is
discarded; a raise performs error entry and ends it. -/
def command (i : Instr) (body : State → Run Unit) (s : State) : Host.Outcome State Fault Refusal :=
  if s.er.halt then .next s
  else match body s with
    | .ok _ t => .next t
    | .raise c p t => .next (errorEntry c p i.opcode t)

/-- An illegal word (spec/30_encoding.md R109): E_ILLEGAL with payload `w[23:0]`, unless the engine is
halted. -/
def illegalWord (w : Word) (s : State) : Host.Outcome State Fault Refusal :=
  if s.er.halt then .next s
  else .next (errorEntry .illegal (fieldLow24 w) (fieldOpcode w) s)

/-! ## The tables -/

/-- `FREQ[sym]`. -/
def State.freqAt (s : State) (sym : Nat) : BitVec 32 := s.fq.freq[sym]?.getD 0

/-- `LEN[sym]`. -/
def State.lenAt (s : State) (sym : Nat) : Byte := s.cn.len[sym]?.getD 0

/-- `CODE[sym]`. -/
def State.codeAt (s : State) (sym : Nat) : BitVec 255 := s.cn.code[sym]?.getD 0

/-- `HT_VALID <- v`. -/
def State.setHtValid (s : State) (v : Bool) : State := s.withFq { s.fq with valid := v }

/-- `CODE_VALID <- v`. -/
def State.setCodeValid (s : State) (v : Bool) : State := s.withCn { s.cn with valid := v }

/-- `FREQ[sym] <- v`. -/
def State.setFreq (s : State) (sym : Nat) (v : BitVec 32) : State :=
  s.withFq { s.fq with freq := s.fq.freq.setIfInBounds sym v }

/-- `LEN[sym] <- v`. -/
def State.setLen (s : State) (sym : Nat) (v : Byte) : State :=
  s.withCn { s.cn with len := s.cn.len.setIfInBounds sym v }

/-- `IncFreq(sym)` (spec/42_frequency.md R170). -/
def incFreq (sym : Nat) (s : State) : Run Unit :=
  if s.freqAt sym = BitVec.allOnes 32 then .raise .freqOvf (BitVec.ofNat 24 sym) s
  else .ok () ((s.setFreq sym (s.freqAt sym + 1)).setHtValid false)

/-! ## The ports -/

/-- What `InRead()` returns (spec/00_scope.md R17). -/
inductive InItem where
  | byte (v : Byte)
  | eos
  | ioerr
  deriving DecidableEq, Repr

/-- `InRead()` (spec/20_memory.md R71). -/
def inRead (s : State) : InItem × State :=
  match s.inp.bytes[s.inp.pos]? with
  | some v => (.byte v, s.withInp { s.inp with pos := s.inp.pos + 1 })
  | none =>
    match s.inp.atEnd with
    | .eos => (.eos, s)
    | .ioerr => (.ioerr, s)

/-- Whether the OUT port takes one more byte: `length(OUT) < OUT_LIMIT` (R72). -/
def outAccepts (p : OutPort) : Bool :=
  match p.limit with
  | none => true
  | some lim => p.bytes.length < lim

/-- `OutWrite(v)` (R72). -/
def outWrite (v : Byte) (s : State) : Run Unit :=
  if outAccepts s.outp then .ok () (s.withOutp { s.outp with bytes := s.outp.bytes ++ [v] })
  else .raise .ioWrite 0 s

/-- `repeat n times: OutWrite(0)` in one go (spec/44_escape.md R227, where `n` can be `2^65`): all `n` zero
bytes where OUT takes them; else the bytes it takes, and then E_IO_WRITE. That it equals the loop is
`outZeros_eq_loop` in Laws. -/
def outZeros (n : Nat) (s : State) : Run Unit :=
  match s.outp.limit with
  | none => .ok () (s.withOutp { s.outp with bytes := s.outp.bytes ++ List.replicate n 0 })
  | some lim =>
    if s.outp.bytes.length + n ≤ lim ∨ n = 0 then
      .ok () (s.withOutp { s.outp with bytes := s.outp.bytes ++ List.replicate n 0 })
    else
      .raise .ioWrite 0 (s.withOutp
        { s.outp with bytes := s.outp.bytes ++ List.replicate (lim - s.outp.bytes.length) 0 })

/-! ## The bit packer and unpacker -/

/-- The `n` low bits of a value, bit `n - 1` first: the order in which `PutBits(v, n)` sends them
(spec/41_bitstream.md R153). -/
def bitsMsbFirst {w : Nat} (v : BitVec w) : Nat → List Bool
  | 0 => []
  | n + 1 => v.getLsbD n :: bitsMsbFirst v n

/-- `(BO_ACC * 2 + b) mod 256` (R150). -/
def shiftIn (acc : Byte) (b : Bool) : Byte := acc * 2 + (BitVec.ofBool b).setWidth 8

/-- `PutBit(b)` (R150). -/
def putBit (b : Bool) (s : State) : Run Unit :=
  if s.bo.cnt = 7 then
    (outWrite (shiftIn s.bo.acc b) s).andThen fun _ t => .ok () (t.withBo { t.bo with acc := 0, cnt := 0 })
  else .ok () (s.withBo { s.bo with acc := shiftIn s.bo.acc b, cnt := s.bo.cnt + 1 })

/-- PutBit for each bit in turn. -/
def putBitList : List Bool → State → Run Unit
  | [], s => .ok () s
  | b :: bs, s => (putBit b s).andThen fun _ t => putBitList bs t

/-- `PutBits(v, n)` (R153). -/
def putBits {w : Nat} (v : BitVec w) (n : Nat) (s : State) : Run Unit := putBitList (bitsMsbFirst v n) s

/-- The last two lines of `GetBit()`: `BI_REM <- BI_REM - 1; return BI_BUF[BI_REM]` (R151). -/
def takeBit (s : State) : Run (Option Bool) :=
  .ok (some (s.bi.buf.getLsbD (s.bi.rem - 1).toNat)) (s.withBi { s.bi with rem := s.bi.rem - 1 })

/-- `GetBit()` (R151); `none` is the end-of-stream marker. -/
def getBit (s : State) : Run (Option Bool) :=
  if s.bi.rem = 0 then
    if s.bi.eos then .ok none s
    else match inRead s with
      | (.byte v, t) => takeBit (t.withBi { t.bi with buf := v, rem := 8 })
      | (.eos, t) => .ok none (t.withBi { t.bi with eos := true })
      | (.ioerr, t) => .raise .ioRead 0 t
  else takeBit s

end Sys2Proof.Machine
end

