-- ==== Sys2Proof/Machine/Operands.lean ====
section
/-! DEFINITION. Every operand form and every precondition: the symbol-range check, the four preconditions,
CGET's word slice and the escape symbol map (spec/30_encoding.md R107, spec/40_control.md R132,
spec/44_escape.md R220). The other operands (BIT, BYTE, IMM8) are used as they stand in the command. -/

namespace Sys2Proof.Machine

/-- The symbol-range check: "a SYM field `≥ 322` raises `E_SYM_RANGE`" with payload SYM (R130, R132). -/
def needSymbol (sym : Nat) (s : State) : Run Unit :=
  if sym < 322 then .ok () s else .raise .symRange (BitVec.ofNat 24 sym) s

/-- `NeedTree` (R132). -/
def needTree (s : State) : Run Unit := require s.fq.valid .noTree s

/-- `NeedCode` (R132). -/
def needCode (s : State) : Run Unit := require s.cn.valid .noTable s

/-- `NeedOpen` (R132). -/
def needOpen (s : State) : Run Unit := require (!s.bo.closed) .boClosed s

/-- `NeedMode(m)`: ESC_CNT = 0 or ESC_MODE = m (R132, R230). -/
def needMode (m : Pass) (s : State) : Run Unit := require (!s.esc.counting || s.esc.mode == m) .escMode s

/-- `(CODE >> (32 * K)) mod 2^32` (spec/43_canonical.md R200). -/
def codeWord (code : BitVec 255) (k : Nat) : Word := BitVec.ofNat 32 (code.toNat >>> (32 * k))

/-- `sym(i)`: the symbol that carries run bit `i` (spec/44_escape.md R220). -/
def runSymbol (i : Nat) : Nat := if i = 0 then 0 else 256 + i

end Sys2Proof.Machine
end

