-- ==== Sys2Proof/Machine/BitStream.lean ====
section
/-! DEFINITION. The bit-stream commands BWR, BFIN, BRD and BRDNE (spec/41_bitstream.md R154 to R157). -/

namespace Sys2Proof.Machine

/-- BWR (R154): `PutBit(BIT)`. -/
def execBwr (bit : Bool) (s : State) : Host.Outcome State Fault Refusal :=
  command (.bwr bit) (fun s => (needOpen s).andThen fun _ s => putBit bit s) s

/-- The partial byte padded with zero bits: `(BO_ACC * 2^(8 - BO_CNT)) mod 256` (R155). -/
def paddedByte (p : Packer) : Byte := p.acc <<< (8 - p.cnt.toNat)

/-- The write at the start of BFIN's body: a partial byte, if there is one (R155). -/
def flushPartial (s : State) : Run Unit :=
  if s.bo.cnt = 0 then .ok () s else outWrite (paddedByte s.bo) s

/-- BFIN (R155): pads and writes the partial byte, then closes the packer. -/
def execBfin (s : State) : Host.Outcome State Fault Refusal :=
  command .bfin (fun s =>
    (needOpen s).andThen fun _ s =>
    (flushPartial s).andThen fun _ s =>
    .ok () (s.withBo { acc := 0, cnt := 0, closed := true })) s

/-- RES after BRD: the bit, or `0xFFFFFFFF` for the end-of-stream marker (R156, spec/00_scope.md R15). -/
def bitResult : Option Bool → Word
  | none => 0xFFFFFFFF
  | some b => (BitVec.ofBool b).setWidth 32

/-- BRD (R156). -/
def execBrd (s : State) : Host.Outcome State Fault Refusal :=
  command .brd (fun s => (getBit s).andThen fun r s => .ok () (s.withRes (bitResult r))) s

/-- BRDNE (R157): the end of the stream raises E_EOS_FIELD. -/
def execBrdne (s : State) : Host.Outcome State Fault Refusal :=
  command .brdne (fun s =>
    (getBit s).andThen fun r s =>
    match r with
    | none => .raise .eosField 0 s
    | some b => .ok () (s.withRes (bitResult (some b)))) s

end Sys2Proof.Machine
end

