-- ==== Sys2Proof/Machine/Canonical.lean ====
section
/-! DEFINITION. The canonical code: lengths, the 255 bound, the completeness check, the assignment, the
canonical tree, and the commands CTREE, CLEN, LSET, LGET, CGET, HDRW and HDRR
(spec/43_canonical.md R190 to R205). -/

namespace Sys2Proof.Machine

/-! ## Lengths from the Huffman tree (R190, R192) -/

/-- `HL[n]` of an internal node. -/
def HuffTree.leftOf (t : HuffTree) (n : Nat) : Nat := (t.left[n - 322]?.getD 0).toNat

/-- `HR[n]` of an internal node. -/
def HuffTree.rightOf (t : HuffTree) (n : Nat) : Nat := (t.right[n - 322]?.getD 0).toNat

/-- The leaves below node `n`, each with its depth, where `n` lies at depth `d`; `fuel` bounds the levels. -/
def leafDepths (t : HuffTree) : (fuel n d : Nat) → List (Nat × Nat)
  | 0, _, _ => []
  | fuel + 1, n, d =>
    if n < 322 then [(n, d)]
    else leafDepths t fuel (t.leftOf n) (d + 1) ++ leafDepths t fuel (t.rightOf n) (d + 1)

/-- The depth of every leaf of HT, from the root, node 642. A path has at most 321 edges (R178). -/
def HuffTree.depths (t : HuffTree) : List (Nat × Nat) := leafDepths t 322 642 0

/-- `d(sym)`; "A symbol with no leaf would get length 0" (R190). -/
def depthIn (ds : List (Nat × Nat)) (sym : Nat) : Nat := (ds.lookup sym).getD 0

/-- The lowest-numbered symbol with `d(s) ≥ 256` (R192). -/
def firstTooDeep (ds : List (Nat × Nat)) : Option Nat := (List.range 322).find? fun sym => 256 ≤ depthIn ds sym

/-- LEN with `LEN[s] <- d(s)` for every symbol (R196). -/
def lengthsOf (ds : List (Nat × Nat)) : Vector Byte 322 :=
  tableOf 322 0 ((List.range 322).map fun sym => BitVec.ofNat 8 (depthIn ds sym))

/-! ## Completeness, assignment and the canonical tree (R193 to R195) -/

/-- `LEN[sym]` as a number. -/
def lenNat (len : Vector Byte 322) (sym : Nat) : Nat := (len[sym]?.getD 0).toNat

/-- The symbols with `LEN[s] > 0`, in ascending order. -/
def codedSymbols (len : Vector Byte 322) : List Nat :=
  (List.range 322).filter fun sym => lenNat len sym != 0

/-- `K`, the Kraft sum scaled by `2^255` (R193). -/
def kraftSum (len : Vector Byte 322) : Nat := ((codedSymbols len).map fun sym => 2 ^ (255 - lenNat len sym)).sum

/-- `CheckComplete()` (R193). -/
def checkComplete (s : State) : Run Unit :=
  if kraftSum s.cn.len < 2 ^ 255 then .raise .badLengths 0 s
  else if kraftSum s.cn.len > 2 ^ 255 then .raise .badLengths 1 s
  else .ok () s

/-- The order of the pair `(LEN[s], s)` (R194). -/
abbrev codeOrder (len : Vector Byte 322) (a b : Nat) : Prop :=
  lenNat len a < lenNat len b ∨ (lenNat len a = lenNat len b ∧ a ≤ b)

/-- `S`: the coded symbols sorted ascending by `(LEN[s], s)` (R194). -/
def sortedSymbols (len : Vector Byte 322) : List Nat := (codedSymbols len).insertionSort (codeOrder len)

/-- The loop of `Assign()` (R194): each symbol with its code value. -/
def assignLoop (len : Vector Byte 322) : List Nat → (code prev : Nat) → List (Nat × Nat)
  | [], _, _ => []
  | sym :: rest, code, prev =>
    let c := code * 2 ^ (lenNat len sym - prev)
    (sym, c) :: assignLoop len rest (c + 1) (lenNat len sym)

/-- The code values `Assign()` gives, in the order of S; `prev` starts as `LEN[S[0]]` (R194). -/
def assignment (len : Vector Byte 322) : List (Nat × Nat) :=
  assignLoop len (sortedSymbols len) 0 (((sortedSymbols len).head?.map (lenNat len)).getD 0)

/-- CODE as `Assign()` leaves it: 0 for a symbol without a code (R194). -/
def assignCodes (len : Vector Byte 322) : Vector (BitVec 255) 322 :=
  (assignment len).foldl (fun tbl x => tbl.setIfInBounds x.1 (BitVec.ofNat 255 x.2)) (Vector.replicate 322 0)

/-- `left(n)` for bit 0, `right(n)` for bit 1 (R195, R241); nothing lies below a leaf. -/
def CodeTree.child : CodeTree → Bool → CodeTree
  | .node l _, false => l
  | .node _ r, true => r
  | _, _ => .empty

/-- The tree with a leaf for `sym` at the end of the path `bits`. -/
def CodeTree.insert : CodeTree → List Bool → Nat → CodeTree
  | _, [], sym => .leaf sym
  | t, false :: bits, sym => .node ((t.child false).insert bits sym) (t.child true)
  | t, true :: bits, sym => .node (t.child false) ((t.child true).insert bits sym)

/-- The code of `sym` as a bit string, first bit sent first (R53). -/
def codeBits (len : Vector Byte 322) (code : Vector (BitVec 255) 322) (sym : Nat) : List Bool :=
  bitsMsbFirst (code[sym]?.getD 0) (lenNat len sym)

/-- "build CT from LEN and CODE" (R195): one leaf per coded symbol at the end of the path its code reads. -/
def buildCodeTree (len : Vector Byte 322) (code : Vector (BitVec 255) 322) : CodeTree :=
  (codedSymbols len).foldl (fun t sym => t.insert (codeBits len code sym) sym) .empty

/-- `Assign()`, the canonical tree, `CODE_VALID <- 1`: the end of CTREE and of CLEN (R196, R197). -/
def installCode (s : State) : State :=
  s.withCn {
    len   := s.cn.len
    code  := assignCodes s.cn.len
    ct    := buildCodeTree s.cn.len (assignCodes s.cn.len)
    valid := true }

/-! ## The commands -/

/-- CTREE's body after NeedTree (R196). -/
def ctreeBody (s : State) : Run Unit :=
  match firstTooDeep s.fq.ht.depths with
  | some sym => .raise .lenOvf (BitVec.ofNat 24 (depthIn s.fq.ht.depths sym * 2 ^ 9 + sym)) s
  | none =>
    (checkComplete (s.withCn { s.cn with len := lengthsOf s.fq.ht.depths })).andThen fun _ s =>
    .ok () (installCode s)

/-- CTREE (R196). -/
def execCtree (s : State) : Host.Outcome State Fault Refusal :=
  command .ctree (fun s => (needTree s).andThen fun _ s => ctreeBody s) s

/-- CLEN (R197). -/
def execClen (s : State) : Host.Outcome State Fault Refusal :=
  command .clen (fun s =>
    (checkComplete (s.setCodeValid false)).andThen fun _ s => .ok () (installCode s)) s

/-- LSET (R198). -/
def execLset (sym : Nat) (imm : Byte) (s : State) : Host.Outcome State Fault Refusal :=
  command (.lset sym imm) (fun s =>
    (needSymbol sym s).andThen fun _ s => .ok () ((s.setLen sym imm).setCodeValid false)) s

/-- LGET (R199): `RES <- zext_32(LEN[SYM])`. -/
def execLget (sym : Nat) (s : State) : Host.Outcome State Fault Refusal :=
  command (.lget sym) (fun s =>
    (needSymbol sym s).andThen fun _ s => .ok () (s.withRes ((s.lenAt sym).setWidth 32))) s

/-- CGET (R200): word K of the code value. -/
def execCget (sym k : Nat) (s : State) : Host.Outcome State Fault Refusal :=
  command (.cget sym k) (fun s =>
    (needSymbol sym s).andThen fun _ s =>
    (needCode s).andThen fun _ s =>
    .ok () (s.withRes (codeWord (s.codeAt sym) k))) s

/-- HDRW's loop: `PutBits(LEN[s], 8)` for each symbol (R201). -/
def writeLengths : List Nat → State → Run Unit
  | [], s => .ok () s
  | sym :: rest, s => (putBits (s.lenAt sym) 8 s).andThen fun _ s => writeLengths rest s

/-- HDRW (R201). -/
def execHdrw (s : State) : Host.Outcome State Fault Refusal :=
  command .hdrw (fun s =>
    (needCode s).andThen fun _ s =>
    (needOpen s).andThen fun _ s =>
    writeLengths (List.range 322) s) s

/-- HDRR's inner loop: the last `m` of the 8 bits of entry `sym`, `v` holding the bits before them
(R202). -/
def readLength (sym : Nat) : (m : Nat) → (v : Byte) → State → Run Byte
  | 0, v, s => .ok v s
  | m + 1, v, s =>
    (getBit s).andThen fun r s =>
    match r with
    | none => .raise .eosField (BitVec.ofNat 24 (8 * sym + (7 - m))) s
    | some b => readLength sym m (shiftIn v b) s

/-- HDRR's outer loop: `LEN[s] <- v` for each symbol (R202). -/
def readLengths : List Nat → State → Run Unit
  | [], s => .ok () s
  | sym :: rest, s => (readLength sym 8 0 s).andThen fun v s => readLengths rest (s.setLen sym v)

/-- HDRR (R202). -/
def execHdrr (s : State) : Host.Outcome State Fault Refusal :=
  command .hdrr (fun s => readLengths (List.range 322) (s.setCodeValid false)) s

end Sys2Proof.Machine
end

