-- ==== Sys2Proof/Machine/Control.lean ====
section
/-! DEFINITION. The control commands NOP, SRST and SYMLIM (spec/40_control.md R135 to R137). -/

namespace Sys2Proof.Machine

/-- NOP (R135): an empty body. -/
def execNop (s : State) : Host.Outcome State Fault Refusal :=
  command .nop (fun s => .ok () s) s

/-- SRST (R136): `Reset()`. "It is the only command that runs while HALT = 1", so it is not wrapped in
`command`. -/
def execSrst (s : State) : Host.Outcome State Fault Refusal := .next (engineReset s)

/-- SYMLIM (R137): `RES <- 322`. -/
def execSymlim (s : State) : Host.Outcome State Fault Refusal :=
  command .symlim (fun s => .ok () (s.withRes Config.symbolLimit)) s

end Sys2Proof.Machine
end

