-- ==== Sys2Proof/Machine/Coder.lean ====
section
/-! DEFINITION. The primitives the escape and Huffman commands share: EncSym and DecSym
(spec/45_huffman.md R240 to R242), the run flush, the byte step and the inverse transform
(spec/44_escape.md R221, R222, R227). -/

namespace Sys2Proof.Machine

/-- `EncSym(s)` (R240). -/
def encSym (sym : Nat) (s : State) : Run Unit :=
  if s.lenAt sym = 0 then .raise .noCode (BitVec.ofNat 24 sym) s
  else putBits (s.codeAt sym) (s.lenAt sym).toNat s

/-- How many bits GetBit can still give: those of BI_BUF and of the IN bytes not yet read. -/
def bitsLeft (s : State) : Nat := s.bi.rem.toNat + 8 * (s.inp.bytes.length - s.inp.pos)

/-- The loop of `DecSym()` (R241): one bit a step from node `n`, `k` bits consumed so far, until a leaf.
`fuel` bounds the steps by the bits there are; where there is no node below `n` (which no state reached
from reset shows) the walk reads on to the end of the stream, as the prefix form of R242 does (log entry
4). -/
def decLoop : (fuel : Nat) → CodeTree → (k : Nat) → State → Run Nat
  | 0, _, k, s => .raise .eosSymbol (BitVec.ofNat 24 k) s
  | fuel + 1, n, k, s =>
    (getBit s).andThen fun r s =>
    match r with
    | none => .raise .eosSymbol (BitVec.ofNat 24 k) s
    | some b =>
      match n.child b with
      | .leaf sym => .ok sym s
      | n' => decLoop fuel n' (k + 1) s

/-- What a decoded symbol writes: RES, and DEC_EOF for 256 (R241). -/
def noteSymbol (sym : Nat) (s : State) : State :=
  (s.withRes (BitVec.ofNat 32 sym)).withDecEof (s.decEof || sym == 256)

/-- `DecSym()` (R241). -/
def decSym (s : State) : Run Nat :=
  (decLoop (bitsLeft s + 1) s.cn.ct 0 s).andThen fun sym s => .ok sym (noteSymbol sym s)

/-- The symbols a run of length `n` flushes to: `for i in m-1 downto 0: if n[i] = 1: sym(i)` (R221). -/
def flushSymbolsBelow (n : BitVec 66) : (m : Nat) → List Nat
  | 0 => []
  | i + 1 => if n.getLsbD i then runSymbol i :: flushSymbolsBelow n i else flushSymbolsBelow n i

/-- The symbols of a run flush, most significant bit first (R221). -/
def flushSymbols (n : BitVec 66) : List Nat := flushSymbolsBelow n 66

/-- `emit_m` (R222): IncFreq in the counting pass, EncSym in the encoding pass. -/
def emit : Pass → Nat → State → Run Unit
  | .counting => incFreq
  | .encoding => encSym

/-- `emit_m` for each symbol in turn. -/
def emitAll (m : Pass) : List Nat → State → Run Unit
  | [], s => .ok () s
  | sym :: rest, s => (emit m sym s).andThen fun _ s => emitAll m rest s

/-- The escape transform's Normal state: ESC_CNT, ESC_MODE and RUN all 0. -/
def EscapeUnit.idle : EscapeUnit := { counting := false, mode := .counting, run := 0 }

/-- `Flush(emit)` (R221): "The flush clears the transform's state before it emits." -/
def flush (m : Pass) (s : State) : Run Unit := emitAll m (flushSymbols s.esc.run) (s.withEsc .idle)

/-- `if ESC_CNT = 1: Flush(emit)` (R222, R224, R226). -/
def flushPending (m : Pass) (s : State) : Run Unit := if s.esc.counting then flush m s else .ok () s

/-- A zero byte of `EscByte` (R222): it starts the run or lengthens it. -/
def countZero (m : Pass) (s : State) : Run Unit :=
  if s.esc.counting then
    if s.esc.run = BitVec.allOnes 66 then .raise .runRange 66 s
    else .ok () (s.withEsc { s.esc with run := s.esc.run + 1 })
  else .ok () (s.withEsc { counting := true, mode := m, run := 1 })

/-- `EscByte(v, m)` (R222). -/
def escByte (v : Byte) (m : Pass) (s : State) : Run Unit :=
  if v = 0 then countZero m s
  else (flushPending m s).andThen fun _ s => emit m v.toNat s

/-- The body of XSYM (R227): the bytes a symbol stands for. -/
def emitSymbolBytes (sym : Nat) (s : State) : Run Unit :=
  if sym ≤ 255 then outWrite (BitVec.ofNat 8 sym) s
  else if sym = 256 then .ok () s
  else outZeros (2 ^ (sym - 256)) s

end Sys2Proof.Machine
end

