-- ==== Sys2Proof/Machine/Escape.lean ====
section
/-! DEFINITION. The escape commands CBYTE, CEND, EBYTE, EEND and XSYM (spec/44_escape.md R223 to R227). -/

namespace Sys2Proof.Machine

/-- CBYTE (R223). -/
def execCbyte (byte : Byte) (s : State) : Host.Outcome State Fault Refusal :=
  command (.cbyte byte) (fun s => (needMode .counting s).andThen fun _ s => escByte byte .counting s) s

/-- CEND (R224). -/
def execCend (s : State) : Host.Outcome State Fault Refusal :=
  command .cend (fun s => (needMode .counting s).andThen fun _ s => flushPending .counting s) s

/-- EBYTE (R225): "The three preconditions are checked on every EBYTE". -/
def execEbyte (byte : Byte) (s : State) : Host.Outcome State Fault Refusal :=
  command (.ebyte byte) (fun s =>
    (needCode s).andThen fun _ s =>
    (needOpen s).andThen fun _ s =>
    (needMode .encoding s).andThen fun _ s =>
    escByte byte .encoding s) s

/-- EEND (R226). -/
def execEend (s : State) : Host.Outcome State Fault Refusal :=
  command .eend (fun s =>
    (needCode s).andThen fun _ s =>
    (needOpen s).andThen fun _ s =>
    (needMode .encoding s).andThen fun _ s =>
    flushPending .encoding s) s

/-- XSYM (R227). -/
def execXsym (sym : Nat) (s : State) : Host.Outcome State Fault Refusal :=
  command (.xsym sym) (fun s => (needSymbol sym s).andThen fun _ s => emitSymbolBytes sym s) s

end Sys2Proof.Machine
end

