-- ==== Sys2Proof/Machine/Frequency.lean ====
section
/-! DEFINITION. The frequency commands FCLR, FINC, FGET and FBUILD, and the greedy-merge tree builder
(spec/42_frequency.md R170 to R178). -/

namespace Sys2Proof.Machine

/-! ## The tree builder (R173, R176, R177) -/

/-- A member of the pool P of subtree roots: its key `(W, arena index)`. -/
abbrev PoolKey := Nat × Nat

/-- "Keys compare lexicographically: weight first, then arena index." (R173) -/
def keyLe (a b : PoolKey) : Bool := a.1 < b.1 || (a.1 == b.1 && a.2 ≤ b.2)

/-- The lesser of two keys. -/
def lesserKey (a b : PoolKey) : PoolKey := if keyLe a b then a else b

/-- The member of P with the least key, and P without it. -/
def removeLeast : List PoolKey → Option (PoolKey × List PoolKey)
  | [] => none
  | x :: xs => some (xs.foldl lesserKey x, (x :: xs).erase (xs.foldl lesserKey x))

/-- An internal node as it is created: `HL[n]`, `HR[n]`, `W[n]`. -/
structure Merge where
  left   : Nat
  right  : Nat
  weight : Nat
  deriving DecidableEq, Repr

/-- The loop `for n in 322 .. 642`: `fuel` merges from node `n` on. The node removed first becomes the
left child, the second the right (R177). -/
def mergeLoop : (fuel n : Nat) → List PoolKey → List Merge
  | 0, _, _ => []
  | fuel + 1, n, pool =>
    match removeLeast pool with
    | none => []
    | some (a, pool₁) =>
      match removeLeast pool₁ with
      | none => []
      | some (b, pool₂) =>
        ⟨a.2, b.2, a.1 + b.1⟩ :: mergeLoop fuel (n + 1) (pool₂ ++ [(a.1 + b.1, n)])

/-- `P <- {0, 1, ..., 321}` with `W[i] <- FREQ[i]`. -/
def leafPool (freq : Vector (BitVec 32) 322) : List PoolKey :=
  (List.range 322).map fun i => ((freq[i]?.getD 0).toNat, i)

/-- The 321 merges FBUILD makes from a frequency table. -/
def merges (freq : Vector (BitVec 32) 322) : List Merge := mergeLoop 321 322 (leafPool freq)

/-- HT as FBUILD leaves it (R51, R173). -/
def buildTree (freq : Vector (BitVec 32) 322) : HuffTree where
  weight := tableOf 643 0
    ((leafPool freq).map (fun x => BitVec.ofNat 41 x.1) ++ (merges freq).map (fun m => BitVec.ofNat 41 m.weight))
  left   := tableOf 321 0 ((merges freq).map fun m => BitVec.ofNat 10 m.left)
  right  := tableOf 321 0 ((merges freq).map fun m => BitVec.ofNat 10 m.right)

/-! ## The commands -/

/-- FCLR (R171). -/
def execFclr (s : State) : Host.Outcome State Fault Refusal :=
  command .fclr (fun s => .ok () (s.withFq { s.fq with freq := Vector.replicate 322 0, valid := false })) s

/-- FINC (R172): `IncFreq(SYM)`. -/
def execFinc (sym : Nat) (s : State) : Host.Outcome State Fault Refusal :=
  command (.finc sym) (fun s => (needSymbol sym s).andThen fun _ s => incFreq sym s) s

/-- FGET (R174): `RES <- FREQ[SYM]`. -/
def execFget (sym : Nat) (s : State) : Host.Outcome State Fault Refusal :=
  command (.fget sym) (fun s => (needSymbol sym s).andThen fun _ s => .ok () (s.withRes (s.freqAt sym))) s

/-- FBUILD (R173). -/
def execFbuild (s : State) : Host.Outcome State Fault Refusal :=
  command .fbuild (fun s => .ok () (s.withFq { s.fq with ht := buildTree s.fq.freq, valid := true })) s

end Sys2Proof.Machine
end

