-- ==== Sys2Proof/Machine/Huffman.lean ====
section
/-! DEFINITION. The Huffman commands HENC, HDEC and XDEC (spec/45_huffman.md R243 to R246). -/

namespace Sys2Proof.Machine

/-- HENC (R243). -/
def execHenc (sym : Nat) (s : State) : Host.Outcome State Fault Refusal :=
  command (.henc sym) (fun s =>
    (needSymbol sym s).andThen fun _ s =>
    (needCode s).andThen fun _ s =>
    (needOpen s).andThen fun _ s =>
    encSym sym s) s

/-- HDEC (R244). -/
def execHdec (s : State) : Host.Outcome State Fault Refusal :=
  command .hdec (fun s => (needCode s).andThen fun _ s => (decSym s).andThen fun _ s => .ok () s) s

/-- XDEC (R246): DecSym, then the XSYM body with the symbol decoded. -/
def execXdec (s : State) : Host.Outcome State Fault Refusal :=
  command .xdec (fun s =>
    (needCode s).andThen fun _ s => (decSym s).andThen fun sym s => emitSymbolBytes sym s) s

end Sys2Proof.Machine
end

