-- ==== Sys2Proof/Machine/Dispatch.lean ====
section
/-! DEFINITION. `exec`: one arm per command, each a direct call of its meaning. -/

namespace Sys2Proof.Machine

def exec (i : Instr) (s : State) : Host.Outcome State Fault Refusal :=
  match i with
  | .nop => Sys2Proof.Machine.execNop s
  | .srst => Sys2Proof.Machine.execSrst s
  | .symlim => Sys2Proof.Machine.execSymlim s
  | .bwr bit => Sys2Proof.Machine.execBwr bit s
  | .bfin => Sys2Proof.Machine.execBfin s
  | .brd => Sys2Proof.Machine.execBrd s
  | .brdne => Sys2Proof.Machine.execBrdne s
  | .fclr => Sys2Proof.Machine.execFclr s
  | .finc sym => Sys2Proof.Machine.execFinc sym s
  | .fget sym => Sys2Proof.Machine.execFget sym s
  | .fbuild => Sys2Proof.Machine.execFbuild s
  | .ctree => Sys2Proof.Machine.execCtree s
  | .clen => Sys2Proof.Machine.execClen s
  | .lset sym imm => Sys2Proof.Machine.execLset sym imm s
  | .lget sym => Sys2Proof.Machine.execLget sym s
  | .cget sym k => Sys2Proof.Machine.execCget sym k s
  | .hdrw => Sys2Proof.Machine.execHdrw s
  | .hdrr => Sys2Proof.Machine.execHdrr s
  | .cbyte byte => Sys2Proof.Machine.execCbyte byte s
  | .cend => Sys2Proof.Machine.execCend s
  | .ebyte byte => Sys2Proof.Machine.execEbyte byte s
  | .eend => Sys2Proof.Machine.execEend s
  | .xsym sym => Sys2Proof.Machine.execXsym sym s
  | .henc sym => Sys2Proof.Machine.execHenc sym s
  | .hdec => Sys2Proof.Machine.execHdec s
  | .xdec => Sys2Proof.Machine.execXdec s

end Sys2Proof.Machine
end

