-- ==== Sys2Proof/Machine/Window.lean ====
section
/-! DEFINITION. The host register window and what a host access does (spec/10_state.md R32, R33, R49,
spec/20_memory.md R74, R77, spec/40_control.md R130, spec/70_reset_and_hazards.md R302, R303). -/

namespace Sys2Proof.Machine

/-- The window offset an access names, if it is one the host may make: an aligned 32-bit access at
`0x00, 0x04, .. 0x1C` from the window's base (R74, R78). -/
def windowOffset (base addr size : Nat) : Option Nat :=
  if base ≤ addr ∧ addr < base + 0x20 ∧ (addr - base) % 4 = 0 ∧ size = 4 then some (addr - base) else none

/-- STATUS as read while BUSY = 1 (R302): BUSY is 1, the reserved bits read 0 (R34), every other field is
any value. -/
def busyStatus (n : Nat) : Word := BitVec.ofNat 32 (2 ^ 23 + (Config.midCommandValue n).toNat % 2 ^ 23)

/-- The value a word read returns (R32): CMD and the reserved words read 0 (R33, R49), ID is constant
(R48). While BUSY = 1, STATUS, RES and ERRINFO hold any value (R302). -/
def windowValue (s : State) : (offset : Nat) → Word
  | 0x04 => if s.busy then busyStatus s.free else statusWord s
  | 0x08 => if s.busy then Config.midCommandValue s.free else s.res
  | 0x0C => if s.busy then Config.midCommandValue s.free else s.er.info
  | 0x10 => Config.idWord
  | _ => 0

/-- A word read: the host sees the value; the engine is not changed (R77). A read while BUSY = 1 takes a
fresh free value. -/
def windowRead (offset : Nat) (s : State) : State :=
  (s.withHost { s.host with reads := s.host.reads ++ [windowValue s offset] }).withFree
    (if s.busy then s.free + 1 else s.free)

/-- `Execute(w)` (R130). The discard while halted is in each meaning and in `illegalWord`. -/
def execute (w : Word) (s : State) : Host.Outcome State Fault Refusal :=
  match decode w with
  | some i => exec i s
  | none => illegalWord w s

/-- `BUSY <- 1` at issue; the program position advances by one word (R130, R31). -/
def issue (s : State) : State := (s.withHost { s.host with k := s.host.k + 1 }).withBusy true

/-- `BUSY <- 0` at completion, after a raise too (R130). -/
def complete : Host.Outcome State Fault Refusal → Host.Outcome State Fault Refusal
  | .next s => .next (s.withBusy false)
  | .fault f => .fault f
  | .refused r => .refused r

/-- `OnCmdWrite(w)` (R130). -/
def onCmdWrite (w : Word) (s : State) : Host.Outcome State Fault Refusal := complete (execute w (issue s))

/-- A word write (R32, R33): to CMD it issues a command, refused while BUSY = 1 (R303); elsewhere it is
ignored. -/
def windowWrite (offset : Nat) (w : Word) (s : State) : Host.Outcome State Fault Refusal :=
  if offset = 0 then
    if s.busy then .refused .cmdWhileBusy else onCmdWrite w s
  else .next s

/-- One host access. An access that is not an aligned word of the window is refused (R74); power-on
performs `Reset()` and leaves the engine idle (R291). -/
def hostAccess (a : HostAccess) (s : State) : Host.Outcome State Fault Refusal :=
  match a with
  | .write addr size w =>
    match windowOffset s.host.base addr size with
    | some offset => windowWrite offset w s
    | none => .refused .badWindowAccess
  | .read addr size =>
    match windowOffset s.host.base addr size with
    | some offset => .next (windowRead offset s)
    | none => .refused .badWindowAccess
  | .powerOn => .next (engineReset s)

/-- The first pending host access taken off the list. -/
def consume (s : State) : State := s.withHost { s.host with pending := s.host.pending.tail }

/-- The host's next access is a write of `w` to CMD. -/
def pushCmdWrite (w : Word) (s : State) : State :=
  (s.withHost { s.host with pending := .write s.host.base 4 w :: s.host.pending }).withBusy false

end Sys2Proof.Machine
end

