-- ==== Sys2Proof/Machine/Step.lean ====
section
/-! DEFINITION. One step of the machine: the host's next access, whole. With none pending the engine is
idle "and keeps all its state" (spec/60_exceptions.md R278, spec/70_reset_and_hazards.md R291, R301). A
command is one atomic step (R302). -/

namespace Sys2Proof.Machine

/-- One step. -/
def step (s : State) : Host.Outcome State Fault Refusal :=
  match s.host.pending with
  | [] => .next s
  | a :: _ => hostAccess a (consume s)

/-- `s` with the word `w` as the host's next CMD write, BUSY = 0 so that it may be written (R303). HCE-1
fetches nothing (R84): a program comes to it by the host's CMD writes, and this stands for one (log entry
5). -/
def State.withFetchWord (s : State) (nbits w : Nat) : State :=
  pushCmdWrite (BitVec.ofNat 32 (w % 2 ^ min nbits 32)) s

end Sys2Proof.Machine
end

