-- ==== Sys2Proof/Safety.lean ====
section
/-! DEFINITION. The terms claims are stated in: a live engine, the bits written and unread, the machine
invariant, and the end of a run. -/

namespace Sys2Proof.Machine

/-- HALT = 0: the engine runs commands (spec/10_state.md R36). -/
abbrev Live (s : State) : Prop := s.er.halt = false

/-- The host's next access is a write of `w` to CMD, and BUSY = 0 (R33, R303). -/
structure NextCommand (w : Word) (s : State) : Prop where
  idle  : s.busy = false
  write : s.host.pending.head? = some (.write s.host.base 4 w)

/-- A byte as bits, bit 7 first (spec/20_memory.md R73). -/
def byteBits (b : Byte) : List Bool := bitsMsbFirst b 8

/-- Every bit written so far: those of OUT, then the partial byte's (spec/41_bitstream.md R152). -/
def writtenBits (s : State) : List Bool :=
  s.outp.bytes.flatMap byteBits ++ bitsMsbFirst s.bo.acc s.bo.cnt.toNat

/-- Every bit GetBit can still give: the rest of BI_BUF, then the IN bytes not yet read; after BI_EOS, IN
is not asked again (spec/41_bitstream.md R151, R152). -/
def unreadBits (s : State) : List Bool :=
  bitsMsbFirst s.bi.buf s.bi.rem.toNat ++
    if s.bi.eos then [] else (s.inp.bytes.drop s.inp.pos).flatMap byteBits

/-- A bit string read as a number, its first bit the most significant. -/
def bitsToNat (bits : List Bool) : Nat := bits.foldl (fun v b => 2 * v + b.toNat) 0

/-- The OUT port takes `n` more bytes (spec/20_memory.md R72). -/
def OutRoom (n : Nat) (s : State) : Prop :=
  match s.outp.limit with
  | none => True
  | some lim => n ≤ lim - s.outp.bytes.length

/-- How many bytes OUT still takes, where `OUT_LIMIT` is finite (R72). -/
def outLeft (s : State) : Nat := (s.outp.limit.getD 0) - s.outp.bytes.length

/-- How many bits PutBit still takes, where `OUT_LIMIT` is finite: those that complete the bytes OUT takes, and then
seven (spec/41_bitstream.md R150, R153). -/
def bitsThatFit (s : State) : Nat := 8 * outLeft s + 7 - s.bo.cnt.toNat

/-- What a run of PutBits that OUT cuts short leaves: of `bits` those that fit are packed, the failing byte is not
written, and BO_CNT stays at the seven bits before it (R153). Nothing but the packer and OUT differs. -/
structure PackedUntilRefused (bits : List Bool) (s t : State) : Prop where
  frame   : t = { s with bo := t.bo, outp := t.outp }
  packed  : writtenBits t = writtenBits s ++ bits.take (bitsThatFit s)
  seven   : t.bo.cnt = 7
  closed  : t.bo.closed = s.bo.closed
  limit   : t.outp.limit = s.outp.limit
  written : ∃ added, t.outp.bytes = s.outp.bytes ++ added ∧ added.length = outLeft s

/-- The end of the IN stream is a clean one for GetBit: BI_EOS is set or `IN_END` is EOS (R71, R151). -/
def EndsClean (s : State) : Prop := s.bi.eos = true ∨ s.inp.atEnd = .eos

/-- A run ends successfully if the host has nothing more pending and HALT = 0
(spec/70_reset_and_hazards.md R301). -/
def EndsWell (s : State) : Prop := s.host.pending = [] ∧ s.busy = false ∧ Live s

/-- A run ends faulted if the host has nothing more pending and HALT = 1 (R301, R271). -/
def EndsFaulted (s : State) : Prop := s.host.pending = [] ∧ s.busy = false ∧ s.er.halt = true

/-- Where a bit string leads from a node of a code tree (spec/43_canonical.md R195). -/
def CodeTree.follow : CodeTree → List Bool → CodeTree
  | t, [] => t
  | t, b :: bits => (t.child b).follow bits

/-! ## The canonical code, said without the loop that assigns it -/

/-- The order of the canonical code: shorter codes first, then lower symbols
(spec/43_canonical.md R194). -/
def comesBefore (len : Vector Byte 322) (a b : Nat) : Bool :=
  lenNat len a < lenNat len b || (lenNat len a == lenNat len b && a < b)

/-- The share of the code space a symbol of length `n` takes, of `2^255` in all (R193). -/
def codeShare (len : Vector Byte 322) (sym : Nat) : Nat := 2 ^ (255 - lenNat len sym)

/-- The code space taken by the symbols that come before `sym`. -/
def spaceBefore (len : Vector Byte 322) (sym : Nat) : Nat :=
  (((codedSymbols len).filter fun b => comesBefore len b sym).map (codeShare len)).sum

/-! ## The Huffman tree, said without the loop that builds it -/

/-- `W[n]` as a number (spec/10_state.md R51). -/
def HuffTree.weightOf (t : HuffTree) (n : Nat) : Nat := (t.weight[n]?.getD 0).toNat

/-- The order of the keys `(W, arena index)` (spec/42_frequency.md R173, R176). -/
def KeyLt (t : HuffTree) (a b : Nat) : Prop :=
  t.weightOf a < t.weightOf b ∨ (t.weightOf a = t.weightOf b ∧ a < b)

/-- Node `m` is in the pool P when node `n` is about to be created: it exists and no internal node made
before `n` has it as a child (R173). -/
def InPool (t : HuffTree) (n m : Nat) : Prop :=
  m < n ∧ ∀ n', 322 ≤ n' → n' < n → t.leftOf n' ≠ m ∧ t.rightOf n' ≠ m

/-! ## The escape transform -/

/-- The bytes a symbol stands for: a literal, nothing for EOF, or `2^(sym - 256)` zero bytes
(spec/44_escape.md R227). -/
def symbolBytes (sym : Nat) : List Byte :=
  if sym ≤ 255 then [BitVec.ofNat 8 sym]
  else if sym = 256 then []
  else List.replicate (2 ^ (sym - 256)) 0

/-- The byte command of a pass: CBYTE or EBYTE (R223, R225). -/
def byteCommand : Pass → Byte → Instr
  | .counting => .cbyte
  | .encoding => .ebyte

/-- The end command of a pass: CEND or EEND (R224, R226). -/
def endCommand : Pass → Instr
  | .counting => .cend
  | .encoding => .eend

/-- The run that a byte or an end of input terminates: RUN while ESC_CNT = 1, else none (R222). -/
def pendingRun (s : State) : BitVec 66 := if s.esc.counting then s.esc.run else 0

/-- ESC_CNT, ESC_MODE and RUN after a run, if there is one, is flushed (R221). -/
def escapeAfterFlush (s : State) : EscapeUnit :=
  if s.esc.counting then { counting := false, mode := .counting, run := 0 } else s.esc

/-- What the counting pass leaves where the counter of `full` is at its greatest value: E_FREQ_OVF with the symbol, the
symbols `done` before it counted, the run cleared, and nothing else changed (spec/42_frequency.md R170,
spec/44_escape.md R221, spec/40_control.md R133). -/
structure CountedUntilFull (i : Instr) (done : List Nat) (full : Nat) (s t : State) : Prop where
  frame   : t = { s with er := t.er, fq := t.fq, esc := escapeAfterFlush s }
  error   : t.er = { err := 0x12, halt := true, info := BitVec.ofNat 32 (i.opcode.toNat * 2 ^ 24 + full) }
  tree    : t.fq.ht = s.fq.ht
  valid   : t.fq.valid = (s.fq.valid && done.isEmpty)
  counted : ∀ sym, (t.freqAt sym).toNat = (s.freqAt sym).toNat + if sym ∈ done then 1 else 0

/-- The code bits of some symbols, one code after the other (spec/45_huffman.md R240, R247). -/
def codesOf (s : State) (syms : List Nat) : List Bool := syms.flatMap (codeBits s.cn.len s.cn.code)

/-! ## The checks before a command's body, as a table (spec/40_control.md R132) -/

/-- One check: whether it passes, and the error it raises when it does not. -/
structure Check where
  passes  : Bool
  cause   : BitVec 8
  payload : BitVec 24

/-- "a SYM field `≥ 322` raises `E_SYM_RANGE`" with payload SYM (R132, R261). -/
def symbolCheck (sym : Nat) : Check := ⟨decide (sym < 322), 0x11, BitVec.ofNat 24 sym⟩
/-- `NeedTree` (R132). -/
def treeCheck (s : State) : Check := ⟨s.fq.valid, 0x51, 0⟩
/-- `NeedCode` (R132). -/
def codeCheck (s : State) : Check := ⟨s.cn.valid, 0x52, 0⟩
/-- `NeedOpen` (R132). -/
def openCheck (s : State) : Check := ⟨!s.bo.closed, 0x53, 0⟩
/-- `NeedMode(m)` (R132). -/
def modeCheck (m : Pass) (s : State) : Check := ⟨!s.esc.counting || s.esc.mode == m, 0x54, 0⟩

/-- The checks of each command in the order its rule lists them, the symbol range first (R132, R263). -/
def checksOf (s : State) : Instr → List Check
  | .finc sym | .fget sym | .lget sym | .lset sym _ | .xsym sym => [symbolCheck sym]
  | .cget sym _ => [symbolCheck sym, codeCheck s]
  | .henc sym => [symbolCheck sym, codeCheck s, openCheck s]
  | .bwr _ | .bfin => [openCheck s]
  | .ctree => [treeCheck s]
  | .hdrw => [codeCheck s, openCheck s]
  | .cbyte _ | .cend => [modeCheck .counting s]
  | .ebyte _ | .eend => [codeCheck s, openCheck s, modeCheck .encoding s]
  | .hdec | .xdec => [codeCheck s]
  | .nop | .srst | .symlim | .brd | .brdne | .fclr | .fbuild | .clen | .hdrr => []

/-- The causes each command can raise (spec/60_exceptions.md R261, "raised by"). -/
def causesOf : Instr → List (BitVec 8)
  | .finc _ => [0x11, 0x12]
  | .fget _ | .lset _ _ | .lget _ => [0x11]
  | .cget _ _ => [0x11, 0x52]
  | .xsym _ => [0x11, 0x32]
  | .henc _ => [0x11, 0x14, 0x32, 0x52, 0x53]
  | .cbyte _ => [0x12, 0x13, 0x54]
  | .cend => [0x12, 0x54]
  | .ebyte _ => [0x13, 0x14, 0x32, 0x52, 0x53, 0x54]
  | .eend => [0x14, 0x32, 0x52, 0x53, 0x54]
  | .ctree => [0x21, 0x51]
  | .brdne => [0x22, 0x31]
  | .hdrr => [0x22, 0x31]
  | .hdec => [0x23, 0x31, 0x52]
  | .xdec => [0x23, 0x31, 0x32, 0x52]
  | .clen => [0x24]
  | .brd => [0x31]
  | .bwr _ | .bfin => [0x32, 0x53]
  | .hdrw => [0x32, 0x52, 0x53]
  | .nop | .srst | .symlim | .fclr | .fbuild => []

/-! ## Which commands write what, SRST aside (spec/10_state.md R46, R50 to R57; spec/20_memory.md R70) -/

/-- "SYMLIM, BRD, BRDNE, FGET, LGET, CGET, HDEC and XDEC" write RES (R46). -/
def writesRes : Instr → Bool
  | .symlim | .brd | .brdne | .fget _ | .lget _ | .cget _ _ | .hdec | .xdec => true
  | _ => false

/-- "FCLR, FINC, CBYTE and CEND write it": FREQ (R50). -/
def writesFreq : Instr → Bool
  | .fclr | .finc _ | .cbyte _ | .cend => true
  | _ => false

/-- "Only FBUILD ... writes HT" (R51). -/
def writesHt : Instr → Bool
  | .fbuild => true
  | _ => false

/-- "Written by: CTREE ..., LSET and HDRR": LEN (R52). -/
def writesLen : Instr → Bool
  | .ctree | .lset _ _ | .hdrr => true
  | _ => false

/-- CODE and CT are written by CTREE and CLEN alone (R53, R54). -/
def writesCode : Instr → Bool
  | .ctree | .clen => true
  | _ => false

/-- The packer is written by PutBit and BFIN: "BWR, BFIN, HDRW, HENC, EBYTE and EEND" (R41, R42, R55). -/
def writesPacker : Instr → Bool
  | .bwr _ | .bfin | .hdrw | .henc _ | .ebyte _ | .eend => true
  | _ => false

/-- OUT is written by the packer's commands and by XSYM and XDEC (R70). -/
def writesOut (i : Instr) : Bool :=
  writesPacker i || match i with
    | .xsym _ | .xdec => true
    | _ => false

/-- The unpacker and the IN position are written by GetBit: "BRD, BRDNE, HDRR, HDEC and XDEC" (R43, R70). -/
def readsIn : Instr → Bool
  | .brd | .brdne | .hdrr | .hdec | .xdec => true
  | _ => false

/-- "CBYTE, EBYTE, CEND and EEND write it": RUN, and ESC_CNT and ESC_MODE with it (R57, R58). -/
def writesRun : Instr → Bool
  | .cbyte _ | .ebyte _ | .cend | .eend => true
  | _ => false

/-- "Only those decodes set it": DEC_EOF, by HDEC and XDEC (R45). -/
def writesDecEof : Instr → Bool
  | .hdec | .xdec => true
  | _ => false

/-! ## The invariant of the machine -/

/-- The cause codes (spec/60_exceptions.md R261). -/
def causeCodes : List (BitVec 8) :=
  [0x11, 0x12, 0x13, 0x14, 0x21, 0x22, 0x23, 0x24, 0x31, 0x32, 0x41, 0x51, 0x52, 0x53, 0x54]

/-- HALT = 1 exactly when an error has been taken; else ERR and ERRINFO are 0 (R35, R36, R47). -/
def ErrorRegsOk (s : State) : Prop :=
  if s.er.halt then s.er.err ∈ causeCodes else s.er.err = 0 ∧ s.er.info = 0

/-- HT_VALID = 1 only while HT holds the tree of the current FREQ (R37). -/
def TreeOk (s : State) : Prop := s.fq.valid = true → s.fq.ht = buildTree s.fq.freq

/-- CODE_VALID = 1 only while LEN is complete and CODE and CT are its canonical code (R38). -/
def CodeOk (s : State) : Prop :=
  s.cn.valid = true → kraftSum s.cn.len = 2 ^ 255 ∧ s.cn.code = assignCodes s.cn.len ∧
    s.cn.ct = buildCodeTree s.cn.len s.cn.code

/-- RUN holds the pending run while ESC_CNT = 1; else RUN and ESC_MODE are 0 (R40, R57). -/
def EscapeOk (s : State) : Prop :=
  if s.esc.counting then s.esc.run ≠ 0 else s.esc.run = 0 ∧ s.esc.mode = .counting

/-- "Bits above BO_CNT are 0" (R55). -/
def PackerOk (s : State) : Prop := s.bo.acc.toNat < 2 ^ s.bo.cnt.toNat

/-- BI_REM is `0..8` (R43); BI_EOS = 1 only when the IN port has reported EOS, every byte read (R44). -/
def UnpackerOk (s : State) : Prop :=
  s.bi.rem.toNat ≤ 8 ∧
    (s.bi.eos = true → s.bi.rem = 0 ∧ s.inp.pos = s.inp.bytes.length ∧ s.inp.atEnd = .eos)

/-- `IN_POS` lies in the IN stream, OUT within its limit (R71, R72). -/
def PortsOk (s : State) : Prop :=
  s.inp.pos ≤ s.inp.bytes.length ∧ ∀ lim, s.outp.limit = some lim → s.outp.bytes.length ≤ lim

/-- What holds of the machine between steps. -/
structure Inv (s : State) : Prop where
  idle     : s.busy = false
  errors   : ErrorRegsOk s
  tree     : TreeOk s
  code     : CodeOk s
  escape   : EscapeOk s
  packer   : PackerOk s
  unpacker : UnpackerOk s
  ports    : PortsOk s

end Sys2Proof.Machine
end

