-- ==== Sys2Proof/Certificates/Slice0/Obligations.lean ====
section
/-! DEFINITION. The statements for the provers. Where a statement equates the next state with
`{ s with … }`, every field not named there is unchanged: that is its frame. -/

open Sys2Proof Sys2Proof.Machine

/-! ## Reset -/

/-- R61: the reset values. -/
def Obligations.ResetValues : Prop :=
  statusWord State.reset = 0 ∧ State.reset.res = 0 ∧ State.reset.er.info = 0 ∧
  (∀ sym, sym < 322 →
    State.reset.freqAt sym = 0 ∧ State.reset.lenAt sym = 0 ∧ State.reset.codeAt sym = 0) ∧
  State.reset.bo.acc = 0 ∧ State.reset.bi.buf = 0 ∧ State.reset.esc.run = 0 ∧
  State.reset.fq.valid = false ∧ State.reset.cn.ct = .empty ∧ State.reset.cn.valid = false ∧
  windowValue State.reset 0x10 = 0x48434531

/-- The invariant holds after reset. -/
def Obligations.ResetMeetsInvariant : Prop := Inv State.reset

/-- R290: what the reset action writes, and that it leaves IN, OUT and the host alone; in every state. That STATUS is 0
in every field, BUSY among them, is R136 and R61, not R290's listing: log entry 10 (DEDUCED). -/
def Obligations.SrstPerformsReset : Prop :=
  ∀ s : State, ∃ t, exec .srst s = .next t ∧
    t.er = { err := 0, halt := false, info := 0 } ∧ t.res = 0 ∧
    (∀ sym, sym < 322 → t.freqAt sym = 0 ∧ t.lenAt sym = 0 ∧ t.codeAt sym = 0) ∧
    t.fq.valid = false ∧ t.cn.valid = false ∧ t.cn.ct = .empty ∧
    t.esc = { counting := false, mode := .counting, run := 0 } ∧
    t.bo = { acc := 0, cnt := 0, closed := false } ∧
    t.bi = { buf := 0, rem := 0, eos := false } ∧ t.decEof = false ∧
    statusWord t = 0 ∧ windowValue t 0x10 = 0x48434531 ∧
    t.inp = s.inp ∧ t.outp = s.outp ∧ t.host = s.host

/-- R291, R292: power-on performs the same reset as SRST. That it leaves the streams alone is the model's choice: log
entry 9. -/
def Obligations.PowerOnResetsLikeSrst : Prop :=
  ∀ (s : State) (rest : List HostAccess), s.host.pending = .powerOn :: rest →
    step s = exec .srst { s with host := { s.host with pending := rest } }

/-! ## The step and the host's window -/

/-- R130, R31: a CMD write runs the command its word decodes to, with BUSY = 1 while it runs and 0 after
it; the program position advances by one word. -/
def Obligations.StepRunsTheDecodedCommand : Prop :=
  ∀ (s : State) (w : Word) (i : Instr) (rest : List HostAccess),
    s.busy = false → s.host.pending = .write s.host.base 4 w :: rest → decode w = some i →
    step s =
      match exec i { s with
        busy := true, host := { s.host with pending := rest, k := s.host.k + 1 } } with
      | .next t => .next { t with busy := false }
      | .fault f => .fault f
      | .refused r => .refused r

/-- R109, R265: an illegal word raises E_ILLEGAL; ERRINFO is the whole word, and nothing else of the engine
changes. -/
def Obligations.IllegalWordRaisesIllegal : Prop :=
  ∀ (s : State) (w : Word) (rest : List HostAccess),
    s.busy = false → Live s → s.host.pending = .write s.host.base 4 w :: rest → decode w = none →
    step s = .next { s with
      er := { err := 0x41, halt := true, info := w },
      host := { s.host with pending := rest, k := s.host.k + 1 } }

/-- R131: while HALT = 1 every word but exactly SRST's is discarded, and SRST's resets. -/
def Obligations.HaltedEngineDiscardsAllButSrst : Prop :=
  ∀ (s : State) (w : Word) (rest : List HostAccess),
    s.busy = false → s.er.halt = true → s.host.pending = .write s.host.base 4 w :: rest →
    (w ≠ 0x01000000 →
      step s = .next { s with host := { s.host with pending := rest, k := s.host.k + 1 } }) ∧
    (w = 0x01000000 → ∃ t,
      exec .srst { s with
        busy := true, host := { s.host with pending := rest, k := s.host.k + 1 } } = .next t ∧
      step s = .next { t with busy := false } ∧ t.er = { err := 0, halt := false, info := 0 })

/-- R278, R291 and log entry 6: with nothing pending the engine keeps all its state. -/
def Obligations.IdleEngineKeepsItsState : Prop :=
  ∀ s : State, s.host.pending = [] → step s = .next s

/-- R303: a CMD write while BUSY = 1 is refused. -/
def Obligations.CmdWriteWhileBusyIsRefused : Prop :=
  ∀ (s : State) (w : Word) (rest : List HostAccess),
    s.busy = true → s.host.pending = .write s.host.base 4 w :: rest →
    step s = .refused .cmdWhileBusy

/-- R74: an access of the wrong size, a misaligned one and one outside the eight words are refused. -/
def Obligations.OtherHostAccessesAreRefused : Prop :=
  ∀ (s : State) (addr size : Nat) (w : Word) (rest : List HostAccess),
    ¬ (size = 4 ∧ ∃ j, j < 8 ∧ addr = s.host.base + 4 * j) →
    (s.host.pending = .write addr size w :: rest → step s = .refused .badWindowAccess) ∧
    (s.host.pending = .read addr size :: rest → step s = .refused .badWindowAccess)

/-- R32, R33, R46 to R49, R77: what each word of the window reads as while BUSY = 0; a read changes nothing of
the engine. -/
def Obligations.WindowReadsShowTheRegisters : Prop :=
  ∀ (s : State) (j : Nat) (rest : List HostAccess),
    s.busy = false → j < 8 → s.host.pending = .read (s.host.base + 4 * j) 4 :: rest →
    step s = .next { s with host := { s.host with
      pending := rest,
      reads := s.host.reads ++ [
        if j = 1 then statusWord s
        else if j = 2 then s.res
        else if j = 3 then s.er.info
        else if j = 4 then 0x48434531
        else 0] } }

/-- R34: every field of STATUS. -/
def Obligations.StatusShowsEveryField : Prop :=
  ∀ s : State,
    (statusWord s).extractLsb' 0 8 = s.er.err ∧
    (statusWord s).getLsbD 8 = s.er.halt ∧
    (statusWord s).getLsbD 9 = s.fq.valid ∧
    (statusWord s).getLsbD 10 = s.cn.valid ∧
    (statusWord s).getLsbD 11 = s.esc.counting ∧
    (statusWord s).getLsbD 12 = (s.esc.counting && s.esc.mode == .encoding) ∧
    (statusWord s).getLsbD 13 = s.bo.closed ∧
    (statusWord s).extractLsb' 14 3 = s.bo.cnt ∧
    (statusWord s).extractLsb' 17 4 = s.bi.rem ∧
    (statusWord s).getLsbD 21 = s.bi.eos ∧
    (statusWord s).getLsbD 22 = s.decEof ∧
    (statusWord s).getLsbD 23 = s.busy ∧
    (statusWord s).extractLsb' 24 8 = 0

/-- R302, R303: reads while BUSY = 1 are permitted, and STATUS's other fields, RES and ERRINFO are any value: this holds
whatever they are. ID is constant (R48), CMD and the reserved words read 0 (R33, R49). The model's choices: STATUS's
reserved bits read 0 here too, as R34 has them (log entry 3), and a read advances the counter of free values (log
entry 12). -/
def Obligations.ReadsWhileBusyArePermitted : Prop :=
  ∀ (s : State) (j : Nat) (rest : List HostAccess),
    s.busy = true → j < 8 → s.host.pending = .read (s.host.base + 4 * j) 4 :: rest →
    ∃ v : Word, step s = .next { s with
        host := { s.host with pending := rest, reads := s.host.reads ++ [v] }, free := s.free + 1 } ∧
      (j = 1 → v.getLsbD 23 = true ∧ v.extractLsb' 24 8 = 0) ∧
      (j = 4 → v = 0x48434531) ∧ (j = 0 ∨ 5 ≤ j → v = 0)

/-- R32, R49, R77: a write to any word but CMD is ignored. -/
def Obligations.WritesToOtherWordsAreIgnored : Prop :=
  ∀ (s : State) (j : Nat) (w : Word) (rest : List HostAccess),
    1 ≤ j → j < 8 → s.host.pending = .write (s.host.base + 4 * j) 4 w :: rest →
    step s = .next { s with host := { s.host with pending := rest } }

/-- R306, R130, R31: every CMD write completes, whatever the word and the state; BUSY is 0 after it and it
consumes exactly one word. -/
def Obligations.EveryCmdWriteCompletes : Prop :=
  ∀ (s : State) (w : Word) (rest : List HostAccess),
    s.busy = false → s.host.pending = .write s.host.base 4 w :: rest →
    ∃ t, step s = .next t ∧ t.busy = false ∧
      t.host = { s.host with pending := rest, k := s.host.k + 1 }

/-! ## Encoding -/

/-- R113, R108: the encoding examples, bit for bit, a word of every other row of the opcode map, and the illegal
examples. -/
def Obligations.ExampleWordsDecode : Prop :=
  decode 0x00000000 = some .nop ∧ decode 0x01000000 = some .srst ∧
  decode 0x10000001 = some (.bwr true) ∧ decode 0x21000100 = some (.finc 256) ∧
  decode 0x21000041 = some (.finc 65) ∧ decode 0x32030041 = some (.lset 65 3) ∧
  decode 0x340700FF = some (.cget 255 7) ∧ decode 0x40000000 = some (.cbyte 0) ∧
  decode 0x42000041 = some (.ebyte 0x41) ∧ decode 0x44000102 = some (.xsym 258) ∧
  decode 0x50000100 = some (.henc 256) ∧ decode 0x52000000 = some .xdec ∧
  decode 0x02000000 = some .symlim ∧ decode 0x11000000 = some .bfin ∧
  decode 0x12000000 = some .brd ∧ decode 0x13000000 = some .brdne ∧
  decode 0x20000000 = some .fclr ∧ decode 0x220001FF = some (.fget 511) ∧
  decode 0x23000000 = some .fbuild ∧ decode 0x30000000 = some .ctree ∧
  decode 0x31000000 = some .clen ∧ decode 0x33000042 = some (.lget 66) ∧
  decode 0x35000000 = some .hdrw ∧ decode 0x36000000 = some .hdrr ∧
  decode 0x41000000 = some .cend ∧ decode 0x43000000 = some .eend ∧
  decode 0x51000000 = some .hdec ∧
  decode 0xFF000000 = none ∧ decode 0x10000002 = none ∧ decode 0x34080041 = none ∧
  decode 0x00000001 = none

/-- Decoding the word of any well-formed command gives the command back, every operand with it. -/
def Obligations.DecodeOfEncodeIsTheCommand : Prop :=
  ∀ i : Instr, i.wellFormed = true → decode (encode i) = some i

/-- A word that decodes is the word of a well-formed command: no bit of it goes unread. -/
def Obligations.DecodedWordIsTheEncoding : Prop :=
  ∀ (w : Word) (i : Instr), decode w = some i → i.wellFormed = true ∧ encode i = w

/-- R110: at most one row of the opcode map matches any word. -/
def Obligations.AtMostOneRowMatches : Prop :=
  ∀ (w : Word) (a b : Nat) (r q : OpcodeRow),
    opcodeRows[a]? = some r → opcodeRows[b]? = some q → r.hits w = true → q.hits w = true → a = b

/-! ## Checks and errors -/

/-- R132, R263, R265: the first check that fails is the one reported; nothing but ERR, HALT and ERRINFO is
written. -/
def Obligations.FirstFailedCheckIsReported : Prop :=
  ∀ (i : Instr) (s : State) (passed rest : List Check) (c : Check),
    Live s → checksOf s i = passed ++ c :: rest → (∀ p ∈ passed, p.passes = true) → c.passes = false →
    exec i s = .next { s with er := {
      err := c.cause, halt := true, info := BitVec.ofNat 32 (i.opcode.toNat * 2 ^ 24 + c.payload.toNat) } }

/-- R261, R265: a command raises only the causes the table lists it under, with its own opcode in
ERRINFO. HT must hold FREQ's tree if HT_VALID says so, which every step keeps (StepKeepsInvariant). -/
def Obligations.RaisedCausesAreThoseOfTheTable : Prop :=
  ∀ (i : Instr) (s t : State), Live s → TreeOk s → exec i s = .next t → t.er.halt = true →
    t.er.err ∈ causesOf i ∧ t.er.info.extractLsb' 24 8 = i.opcode

/-! ## Control and bit stream -/

/-- R135, R137: NOP changes nothing; SYMLIM gives 322 whatever the tables hold. -/
def Obligations.NopAndSymlimResults : Prop :=
  ∀ s : State, Live s →
    exec .nop s = .next s ∧ exec .symlim s = .next { s with res := 0x00000142 }

/-- R150, R154: BWR with the packer open. -/
def Obligations.BwrPacksOneBit : Prop :=
  ∀ (s : State) (b : Bool), Live s → s.bo.closed = false →
    (s.bo.cnt ≠ 7 →
      exec (.bwr b) s = .next { s with bo := { s.bo with
        acc := BitVec.ofNat 8 (s.bo.acc.toNat * 2 + b.toNat), cnt := s.bo.cnt + 1 } }) ∧
    (s.bo.cnt = 7 → OutRoom 1 s →
      exec (.bwr b) s = .next { s with
        bo := { s.bo with acc := 0, cnt := 0 },
        outp := { s.outp with
          bytes := s.outp.bytes ++ [BitVec.ofNat 8 (s.bo.acc.toNat * 2 + b.toNat)] } }) ∧
    (s.bo.cnt = 7 → ¬ OutRoom 1 s →
      exec (.bwr b) s = .next { s with er := { err := 0x32, halt := true, info := 0x10000000 } })

/-- R155: BFIN with the packer open. -/
def Obligations.BfinPadsAndCloses : Prop :=
  ∀ s : State, Live s → s.bo.closed = false →
    (s.bo.cnt = 0 → exec .bfin s = .next { s with bo := { acc := 0, cnt := 0, closed := true } }) ∧
    (s.bo.cnt ≠ 0 → OutRoom 1 s →
      exec .bfin s = .next { s with
        bo := { acc := 0, cnt := 0, closed := true },
        outp := { s.outp with bytes := s.outp.bytes ++
          [BitVec.ofNat 8 (s.bo.acc.toNat * 2 ^ (8 - s.bo.cnt.toNat))] } }) ∧
    (s.bo.cnt ≠ 0 → ¬ OutRoom 1 s →
      exec .bfin s = .next { s with er := { err := 0x32, halt := true, info := 0x11000000 } })

/-- R151, R156: BRD in each case of GetBit. -/
def Obligations.BrdReadsOneBit : Prop :=
  ∀ s : State, Live s →
    (s.bi.rem ≠ 0 → exec .brd s = .next { s with
      bi := { s.bi with rem := s.bi.rem - 1 },
      res := if s.bi.buf.getLsbD (s.bi.rem.toNat - 1) then 1 else 0 }) ∧
    (∀ v, s.bi.rem = 0 → s.bi.eos = false → s.inp.bytes[s.inp.pos]? = some v →
      exec .brd s = .next { s with
        bi := { buf := v, rem := 7, eos := false }, inp := { s.inp with pos := s.inp.pos + 1 },
        res := if v.getLsbD 7 then 1 else 0 }) ∧
    (s.bi.rem = 0 → s.bi.eos = true → exec .brd s = .next { s with res := 0xFFFFFFFF }) ∧
    (s.bi.rem = 0 → s.bi.eos = false → s.inp.bytes[s.inp.pos]? = none → s.inp.atEnd = .eos →
      exec .brd s = .next { s with bi := { s.bi with eos := true }, res := 0xFFFFFFFF }) ∧
    (s.bi.rem = 0 → s.bi.eos = false → s.inp.bytes[s.inp.pos]? = none → s.inp.atEnd = .ioerr →
      exec .brd s = .next { s with er := { err := 0x31, halt := true, info := 0x12000000 } })

/-- R151, R157: BRDNE in each case of GetBit; at the end of the stream RES keeps its value. -/
def Obligations.BrdneNeedsABit : Prop :=
  ∀ s : State, Live s →
    (s.bi.rem ≠ 0 → exec .brdne s = .next { s with
      bi := { s.bi with rem := s.bi.rem - 1 },
      res := if s.bi.buf.getLsbD (s.bi.rem.toNat - 1) then 1 else 0 }) ∧
    (∀ v, s.bi.rem = 0 → s.bi.eos = false → s.inp.bytes[s.inp.pos]? = some v →
      exec .brdne s = .next { s with
        bi := { buf := v, rem := 7, eos := false }, inp := { s.inp with pos := s.inp.pos + 1 },
        res := if v.getLsbD 7 then 1 else 0 }) ∧
    (s.bi.rem = 0 → s.bi.eos = true →
      exec .brdne s = .next { s with er := { err := 0x22, halt := true, info := 0x13000000 } }) ∧
    (s.bi.rem = 0 → s.bi.eos = false → s.inp.bytes[s.inp.pos]? = none → s.inp.atEnd = .eos →
      exec .brdne s = .next { s with
        bi := { s.bi with eos := true }, er := { err := 0x22, halt := true, info := 0x13000000 } }) ∧
    (s.bi.rem = 0 → s.bi.eos = false → s.inp.bytes[s.inp.pos]? = none → s.inp.atEnd = .ioerr →
      exec .brdne s = .next { s with er := { err := 0x31, halt := true, info := 0x13000000 } })

/-- R152, R153: the packing law, and what stands where OUT refuses a byte on the way. -/
def Obligations.PackingLaw : Prop :=
  ∀ (bits : List Bool) (s : State),
    (OutRoom ((s.bo.cnt.toNat + bits.length) / 8) s →
      ∃ t, putBitList bits s = .ok () t ∧ t = { s with bo := t.bo, outp := t.outp } ∧
        writtenBits t = writtenBits s ++ bits ∧
        t.bo.cnt.toNat = (s.bo.cnt.toNat + bits.length) % 8 ∧ t.bo.closed = s.bo.closed ∧
        t.outp.limit = s.outp.limit ∧
        ∃ added, t.outp.bytes = s.outp.bytes ++ added ∧
          added.length = (s.bo.cnt.toNat + bits.length) / 8) ∧
    (¬ OutRoom ((s.bo.cnt.toNat + bits.length) / 8) s →
      ∃ t, putBitList bits s = .raise .ioWrite 0 t ∧ PackedUntilRefused bits s t)

/-- R152: the unpacking law, by BRD: the bits unread come in order, then the end of the stream. -/
def Obligations.UnpackingLaw : Prop :=
  ∀ s : State, Live s →
    (∀ b rest, unreadBits s = b :: rest →
      ∃ t, exec .brd s = .next t ∧ t.res = (if b then 1 else 0) ∧ unreadBits t = rest ∧
        t = { s with res := t.res, bi := t.bi, inp := t.inp } ∧ t.inp.bytes = s.inp.bytes) ∧
    (unreadBits s = [] → EndsClean s →
      ∃ t, exec .brd s = .next t ∧ t.res = 0xFFFFFFFF ∧ unreadBits t = [] ∧ EndsClean t ∧
        t = { s with res := t.res, bi := t.bi })

/-! ## Frequency table and tree -/

/-- R170, R172: FINC counts, or raises at `2^32 - 1` and leaves the counter. -/
def Obligations.FincCountsOrOverflows : Prop :=
  ∀ (s : State) (sym : Nat), Live s → sym < 322 →
    (s.freqAt sym ≠ 0xFFFFFFFF →
      ∃ t, exec (.finc sym) s = .next t ∧ t = { s with fq := t.fq } ∧ t.fq.ht = s.fq.ht ∧
        t.fq.valid = false ∧ (t.freqAt sym).toNat = (s.freqAt sym).toNat + 1 ∧
        ∀ other, other ≠ sym → t.freqAt other = s.freqAt other) ∧
    (s.freqAt sym = 0xFFFFFFFF →
      exec (.finc sym) s = .next { s with
        er := { err := 0x12, halt := true, info := BitVec.ofNat 32 (0x21000000 + sym) } })

/-- R171, R174: FCLR clears every counter and HT_VALID; FGET reads one. -/
def Obligations.FclrAndFgetResults : Prop :=
  ∀ s : State, Live s →
    (∃ t, exec .fclr s = .next t ∧ t = { s with fq := t.fq } ∧ t.fq.ht = s.fq.ht ∧ t.fq.valid = false ∧
      ∀ sym, t.freqAt sym = 0) ∧
    ∀ sym, sym < 322 → exec (.fget sym) s = .next { s with res := s.freqAt sym }

/-- R173, R176, R177: FBUILD. Each internal node merges the two members of the pool with the least keys, the
least on the left, and weighs their exact sum. -/
def Obligations.FbuildMergesTheTwoLeast : Prop :=
  ∀ s : State, Live s →
    ∃ t, exec .fbuild s = .next t ∧ t = { s with fq := t.fq } ∧ t.fq.freq = s.fq.freq ∧
      t.fq.valid = true ∧
      (∀ sym, sym < 322 → t.fq.ht.weightOf sym = (s.freqAt sym).toNat) ∧
      ∀ n, 322 ≤ n → n ≤ 642 →
        t.fq.ht.weightOf n = t.fq.ht.weightOf (t.fq.ht.leftOf n) + t.fq.ht.weightOf (t.fq.ht.rightOf n) ∧
        InPool t.fq.ht n (t.fq.ht.leftOf n) ∧ InPool t.fq.ht n (t.fq.ht.rightOf n) ∧
        KeyLt t.fq.ht (t.fq.ht.leftOf n) (t.fq.ht.rightOf n) ∧
        ∀ m, InPool t.fq.ht n m → m ≠ t.fq.ht.leftOf n → m ≠ t.fq.ht.rightOf n →
          KeyLt t.fq.ht (t.fq.ht.rightOf n) m

/-- R178, R175: in the tree FBUILD builds every symbol is one leaf, at a depth 1..321, and the depths fill the
code space exactly. -/
def Obligations.BuiltTreeIsFull : Prop :=
  ∀ freq : Vector (BitVec 32) 322,
    ((buildTree freq).depths.map (·.1)).Perm (List.range 322) ∧
    (∀ sym, sym < 322 →
      1 ≤ depthIn (buildTree freq).depths sym ∧ depthIn (buildTree freq).depths sym ≤ 321) ∧
    ((List.range 322).map fun sym => 2 ^ (321 - depthIn (buildTree freq).depths sym)).sum = 2 ^ 321

/-- U2 (93_implementation_defined.md), R51, R61 and log entry 2: while HT_VALID = 0 no command reads the arena;
whatever it holds, a command ends in the same state but for the arena. -/
def Obligations.UnbuiltTreeIsNeverRead : Prop :=
  ∀ (i : Instr) (s t : State) (ht : HuffTree), s.fq.valid = false → exec i s = .next t →
    ∃ ht', exec i { s with fq := { s.fq with ht := ht } } = .next { t with fq := { t.fq with ht := ht' } }

/-! ## Canonical code -/

/-- R193, R194, R195, R197: CLEN on a complete table. Each code, scaled to the code space, starts where the codes
before it in `(LEN, s)` order end; CT is built from LEN and CODE. -/
def Obligations.ClenAssignsTheCanonicalCode : Prop :=
  ∀ s : State, Live s → kraftSum s.cn.len = 2 ^ 255 →
    ∃ t, exec .clen s = .next t ∧ t = { s with cn := t.cn } ∧ t.cn.len = s.cn.len ∧ t.cn.valid = true ∧
      (∀ sym, sym ∈ codedSymbols s.cn.len →
        (t.codeAt sym).toNat * codeShare s.cn.len sym = spaceBefore s.cn.len sym ∧
        (t.codeAt sym).toNat < 2 ^ (s.lenAt sym).toNat) ∧
      (∀ sym, sym < 322 → s.lenAt sym = 0 → t.codeAt sym = 0) ∧
      t.cn.ct = buildCodeTree t.cn.len t.cn.code

/-- R193, R197: CLEN on a table that is not complete clears CODE_VALID and raises E_BAD_LENGTHS, 0 for
under-full and 1 for over-full. -/
def Obligations.ClenRejectsIncompleteTables : Prop :=
  ∀ s : State, Live s →
    (kraftSum s.cn.len < 2 ^ 255 →
      exec .clen s = .next { s with
        cn := { s.cn with valid := false }, er := { err := 0x24, halt := true, info := 0x31000000 } }) ∧
    (kraftSum s.cn.len > 2 ^ 255 →
      exec .clen s = .next { s with
        cn := { s.cn with valid := false }, er := { err := 0x24, halt := true, info := 0x31000001 } })

/-- R195, R242: on a complete table each code's path leads from the root of CT to its symbol's leaf, CT has no
other leaf, and every internal node has two children. -/
def Obligations.CanonicalTreeIsStrict : Prop :=
  ∀ len : Vector Byte 322, kraftSum len = 2 ^ 255 →
    (∀ sym, sym ∈ codedSymbols len →
      (buildCodeTree len (assignCodes len)).follow (codeBits len (assignCodes len) sym) = .leaf sym) ∧
    (∀ bits sym, (buildCodeTree len (assignCodes len)).follow bits = .leaf sym →
      sym ∈ codedSymbols len ∧ bits = codeBits len (assignCodes len) sym) ∧
    (∀ bits l r, (buildCodeTree len (assignCodes len)).follow bits = .node l r → l ≠ .empty ∧ r ≠ .empty)

/-- R190, R194, R196: CTREE on a tree no deeper than 255: LEN is the leaves' depths, and the code is the canonical
code of LEN. HT must hold FREQ's tree, which every step keeps (StepKeepsInvariant). -/
def Obligations.CtreeTakesLengthsFromTheTree : Prop :=
  ∀ s : State, Live s → s.fq.valid = true → TreeOk s →
    (∀ sym, sym < 322 → depthIn s.fq.ht.depths sym < 256) →
    ∃ t, exec .ctree s = .next t ∧ t = { s with cn := t.cn } ∧ t.cn.valid = true ∧
      kraftSum t.cn.len = 2 ^ 255 ∧
      (∀ sym, sym < 322 → (t.lenAt sym).toNat = depthIn s.fq.ht.depths sym ∧
        (t.codeAt sym).toNat * codeShare t.cn.len sym = spaceBefore t.cn.len sym) ∧
      t.cn.ct = buildCodeTree t.cn.len t.cn.code

/-- R192: CTREE on a deeper tree raises E_LEN_OVF for the lowest symbol at depth 256 or more, before LEN is
written. -/
def Obligations.CtreeRejectsDeepTrees : Prop :=
  ∀ (s : State) (sym : Nat), Live s → s.fq.valid = true → sym < 322 →
    256 ≤ depthIn s.fq.ht.depths sym → (∀ lower, lower < sym → depthIn s.fq.ht.depths lower < 256) →
    exec .ctree s = .next { s with er := {
      err := 0x21, halt := true,
      info := BitVec.ofNat 32 (0x30000000 + depthIn s.fq.ht.depths sym * 2 ^ 9 + sym) } }

/-- R198, R199, R200: LSET, LGET and CGET. -/
def Obligations.LengthAndCodeAccess : Prop :=
  ∀ (s : State) (sym : Nat), Live s → sym < 322 →
    (∀ imm, ∃ t, exec (.lset sym imm) s = .next t ∧ t = { s with cn := t.cn } ∧
      t.cn.code = s.cn.code ∧ t.cn.ct = s.cn.ct ∧ t.cn.valid = false ∧ t.lenAt sym = imm ∧
      ∀ other, other ≠ sym → t.lenAt other = s.lenAt other) ∧
    exec (.lget sym) s = .next { s with res := BitVec.ofNat 32 (s.lenAt sym).toNat } ∧
    (s.cn.valid = true → ∀ k, exec (.cget sym k) s = .next { s with
      res := BitVec.ofNat 32 ((s.codeAt sym).toNat / 2 ^ (32 * k)) })

/-- R201, R203: HDRW writes the 322 lengths, each bit 7 first; at a byte boundary they are 322 bytes. Where OUT refuses
one, what fits stands (R153). -/
def Obligations.HdrwWritesTheHeader : Prop :=
  ∀ s : State, Live s → s.cn.valid = true → s.bo.closed = false →
    (OutRoom 322 s →
      ∃ t, exec .hdrw s = .next t ∧ t = { s with bo := t.bo, outp := t.outp } ∧
        t.outp.limit = s.outp.limit ∧ t.bo.cnt = s.bo.cnt ∧ t.bo.closed = false ∧
        writtenBits t = writtenBits s ++ (List.range 322).flatMap (fun sym => byteBits (s.lenAt sym)) ∧
        s.outp.bytes <+: t.outp.bytes ∧
        (s.bo.cnt = 0 → t.outp.bytes = s.outp.bytes ++ (List.range 322).map s.lenAt)) ∧
    (¬ OutRoom 322 s →
      ∃ t, PackedUntilRefused ((List.range 322).flatMap fun sym => byteBits (s.lenAt sym)) s t ∧
        exec .hdrw s = .next { t with er := { err := 0x32, halt := true, info := 0x35000000 } })

/-- R202: HDRR with the whole header unread. -/
def Obligations.HdrrReadsTheHeader : Prop :=
  ∀ (s : State) (header rest : List Bool), Live s → unreadBits s = header ++ rest → header.length = 2576 →
    ∃ t, exec .hdrr s = .next t ∧ t = { s with cn := t.cn, bi := t.bi, inp := t.inp } ∧
      t.cn.code = s.cn.code ∧ t.cn.ct = s.cn.ct ∧ t.cn.valid = false ∧
      t.inp.bytes = s.inp.bytes ∧ t.inp.atEnd = s.inp.atEnd ∧ t.bi.eos = s.bi.eos ∧
      unreadBits t = rest ∧
      ∀ sym, sym < 322 → (t.lenAt sym).toNat = bitsToNat ((header.drop (8 * sym)).take 8)

/-- R202, R133, R264: HDRR on a stream that ends early raises E_EOS_FIELD with the header bits read, or E_IO_READ where
the IN port reports an I/O error; the whole entries read are kept, the others are as before. -/
def Obligations.HdrrOnShortStreams : Prop :=
  ∀ s : State, Live s → (unreadBits s).length < 2576 →
    ∃ t, exec .hdrr s = .next t ∧ t = { s with er := t.er, cn := t.cn, bi := t.bi, inp := t.inp } ∧
      (EndsClean s → t.bi.eos = true ∧
        t.er = { err := 0x22, halt := true, info := BitVec.ofNat 32 (0x36000000 + (unreadBits s).length) }) ∧
      (¬ EndsClean s → t.bi.eos = false ∧ t.er = { err := 0x31, halt := true, info := 0x36000000 }) ∧
      t.cn.code = s.cn.code ∧ t.cn.ct = s.cn.ct ∧ t.cn.valid = false ∧
      unreadBits t = [] ∧ t.inp.bytes = s.inp.bytes ∧ t.inp.atEnd = s.inp.atEnd ∧
      ∀ sym, sym < 322 →
        (8 * sym + 8 ≤ (unreadBits s).length →
          (t.lenAt sym).toNat = bitsToNat (((unreadBits s).drop (8 * sym)).take 8)) ∧
        ((unreadBits s).length < 8 * sym + 8 → t.lenAt sym = s.lenAt sym)

/-! ## Escape transform -/

/-- R222, R229: a zero byte of either pass starts a run, lengthens it, or raises at `2^66 - 1`. -/
def Obligations.ZeroByteCountsTheRun : Prop :=
  ∀ (s : State) (m : Pass), Live s → (m = .encoding → s.cn.valid = true ∧ s.bo.closed = false) →
    (s.esc.counting = false →
      exec (byteCommand m 0) s = .next { s with esc := { counting := true, mode := m, run := 1 } }) ∧
    (s.esc.counting = true → s.esc.mode = m → s.esc.run.toNat ≠ 2 ^ 66 - 1 →
      exec (byteCommand m 0) s = .next { s with esc := { s.esc with
        run := BitVec.ofNat 66 (s.esc.run.toNat + 1) } }) ∧
    (s.esc.counting = true → s.esc.mode = m → s.esc.run.toNat = 2 ^ 66 - 1 →
      exec (byteCommand m 0) s = .next { s with er := {
        err := 0x13, halt := true, info := BitVec.ofNat 32 ((byteCommand m 0).opcode.toNat * 2 ^ 24 + 66) } })

/-- R221, R224: CEND counts one symbol for each bit of the pending run, and nothing with no run pending. Where a counter
is full it raises E_FREQ_OVF: the symbols before it are counted and the run is cleared (R170, R133). -/
def Obligations.CendCountsThePendingRun : Prop :=
  ∀ s : State, Live s → (s.esc.counting = true → s.esc.mode = .counting) →
    ((∀ i, i < 66 → (pendingRun s).getLsbD i = true → s.freqAt (runSymbol i) ≠ 0xFFFFFFFF) →
      ∃ t, exec .cend s = .next t ∧ t = { s with fq := t.fq, esc := escapeAfterFlush s } ∧
        t.fq.ht = s.fq.ht ∧ t.fq.valid = (s.fq.valid && pendingRun s == 0) ∧
        (∀ i, i < 66 → (t.freqAt (runSymbol i)).toNat =
          (s.freqAt (runSymbol i)).toNat + ((pendingRun s).getLsbD i).toNat) ∧
        ∀ sym, (∀ i, i < 66 → sym ≠ runSymbol i) → t.freqAt sym = s.freqAt sym) ∧
    (∀ done full rest, flushSymbols (pendingRun s) = done ++ full :: rest →
      (∀ sym ∈ done, s.freqAt sym ≠ 0xFFFFFFFF) → s.freqAt full = 0xFFFFFFFF →
      ∃ t, exec .cend s = .next t ∧ CountedUntilFull .cend done full s t)

/-- R222, R223: CBYTE of a nonzero byte counts the pending run's symbols and then the byte. Where a counter is full it
raises E_FREQ_OVF: the symbols before it are counted and the run is cleared (R170, R221, R133). -/
def Obligations.CbyteCountsALiteral : Prop :=
  ∀ (s : State) (v : Byte), Live s → v ≠ 0 → (s.esc.counting = true → s.esc.mode = .counting) →
    ((∀ i, i < 66 → (pendingRun s).getLsbD i = true → s.freqAt (runSymbol i) ≠ 0xFFFFFFFF) →
      s.freqAt v.toNat ≠ 0xFFFFFFFF →
      ∃ t, exec (.cbyte v) s = .next t ∧ t = { s with fq := t.fq, esc := escapeAfterFlush s } ∧
        t.fq.ht = s.fq.ht ∧ t.fq.valid = false ∧
        (∀ i, i < 66 → (t.freqAt (runSymbol i)).toNat =
          (s.freqAt (runSymbol i)).toNat + ((pendingRun s).getLsbD i).toNat) ∧
        (t.freqAt v.toNat).toNat = (s.freqAt v.toNat).toNat + 1 ∧
        ∀ sym, sym ≠ v.toNat → (∀ i, i < 66 → sym ≠ runSymbol i) → t.freqAt sym = s.freqAt sym) ∧
    (∀ done full rest, flushSymbols (pendingRun s) ++ [v.toNat] = done ++ full :: rest →
      (∀ sym ∈ done, s.freqAt sym ≠ 0xFFFFFFFF) → s.freqAt full = 0xFFFFFFFF →
      ∃ t, exec (.cbyte v) s = .next t ∧ CountedUntilFull (.cbyte v) done full s t)

/-- R221, R222, R225, R226: EEND and EBYTE of a nonzero byte send the codes of the pending run's symbols, and EBYTE
then the byte's. Where a symbol has no code, E_NO_CODE: the codes before it stand (R240, R133). Where OUT refuses a
byte, E_IO_WRITE: what fits stands (R153). The run is cleared in every case. -/
def Obligations.EncodingPassSendsCodes : Prop :=
  ∀ (s : State) (v : Byte), Live s → s.cn.valid = true → s.bo.closed = false → v ≠ 0 →
    (s.esc.counting = true → s.esc.mode = .encoding) →
    ∀ (i : Instr) (syms : List Nat),
      (i = .eend ∧ syms = flushSymbols (pendingRun s) ∨
        i = .ebyte v ∧ syms = flushSymbols (pendingRun s) ++ [v.toNat]) →
      ((∀ sym ∈ syms, s.lenAt sym ≠ 0) →
        OutRoom ((s.bo.cnt.toNat + (codesOf s syms).length) / 8) s →
        ∃ t, exec i s = .next t ∧ t = { s with bo := t.bo, outp := t.outp, esc := escapeAfterFlush s } ∧
          writtenBits t = writtenBits s ++ codesOf s syms ∧
          t.bo.closed = false ∧ t.outp.limit = s.outp.limit ∧ s.outp.bytes <+: t.outp.bytes) ∧
      (∀ done bare rest, syms = done ++ bare :: rest → (∀ sym ∈ done, s.lenAt sym ≠ 0) → s.lenAt bare = 0 →
        OutRoom ((s.bo.cnt.toNat + (codesOf s done).length) / 8) s →
        ∃ t, exec i s = .next t ∧
          t = { s with er := t.er, bo := t.bo, outp := t.outp, esc := escapeAfterFlush s } ∧
          t.er = { err := 0x14, halt := true, info := BitVec.ofNat 32 (i.opcode.toNat * 2 ^ 24 + bare) } ∧
          writtenBits t = writtenBits s ++ codesOf s done ∧
          t.bo.closed = false ∧ t.outp.limit = s.outp.limit ∧ s.outp.bytes <+: t.outp.bytes) ∧
      (∀ done rest, syms = done ++ rest → (∀ sym ∈ done, s.lenAt sym ≠ 0) →
        ¬ OutRoom ((s.bo.cnt.toNat + (codesOf s done).length) / 8) s →
        ∃ t, PackedUntilRefused (codesOf s done) { s with esc := escapeAfterFlush s } t ∧
          exec i s = .next { t with er := {
            err := 0x32, halt := true, info := BitVec.ofNat 32 (i.opcode.toNat * 2 ^ 24) } })

/-- R220, R221, R228: the symbols of a run stand for exactly its zero bytes, one symbol for each set bit, the most
significant first. -/
def Obligations.RunFlushRoundTrip : Prop :=
  ∀ n : BitVec 66,
    (flushSymbols n).flatMap symbolBytes = List.replicate n.toNat 0 ∧
    flushSymbols n = (((List.range 66).filter fun i => n.getLsbD i).map runSymbol).reverse

/-- R227: XSYM, with room in OUT and without. -/
def Obligations.XsymEmitsTheSymbolsBytes : Prop :=
  ∀ (s : State) (sym : Nat), Live s → sym < 322 →
    (OutRoom (symbolBytes sym).length s →
      exec (.xsym sym) s = .next { s with
        outp := { s.outp with bytes := s.outp.bytes ++ symbolBytes sym } }) ∧
    (¬ OutRoom (symbolBytes sym).length s →
      exec (.xsym sym) s = .next { s with
        outp := { s.outp with bytes := s.outp.bytes ++ (symbolBytes sym).take (outLeft s) },
        er := { err := 0x32, halt := true, info := 0x44000000 } })

/-! ## Huffman coder -/

/-- R240, R243: HENC sends the symbol's code, or raises E_NO_CODE, or E_IO_WRITE where OUT refuses a byte: what fits
stands (R153). -/
def Obligations.HencSendsTheCode : Prop :=
  ∀ (s : State) (sym : Nat), Live s → sym < 322 → s.cn.valid = true → s.bo.closed = false →
    (s.lenAt sym ≠ 0 → OutRoom ((s.bo.cnt.toNat + (s.lenAt sym).toNat) / 8) s →
      ∃ t, exec (.henc sym) s = .next t ∧ t = { s with bo := t.bo, outp := t.outp } ∧
        writtenBits t = writtenBits s ++ codesOf s [sym] ∧
        t.bo.closed = false ∧ t.outp.limit = s.outp.limit ∧ s.outp.bytes <+: t.outp.bytes) ∧
    (s.lenAt sym = 0 →
      exec (.henc sym) s = .next { s with
        er := { err := 0x14, halt := true, info := BitVec.ofNat 32 (0x50000000 + sym) } }) ∧
    (s.lenAt sym ≠ 0 → ¬ OutRoom ((s.bo.cnt.toNat + (s.lenAt sym).toNat) / 8) s →
      ∃ t, PackedUntilRefused (codesOf s [sym]) s t ∧
        exec (.henc sym) s = .next { t with er := { err := 0x32, halt := true, info := 0x50000000 } })

/-- R241, R244: HDEC consumes the bits of one path of CT and gives its leaf's symbol. -/
def Obligations.HdecFollowsCtToALeaf : Prop :=
  ∀ (s : State) (path rest : List Bool) (sym : Nat),
    Live s → s.cn.valid = true → path ≠ [] → s.cn.ct.follow path = .leaf sym →
    unreadBits s = path ++ rest →
    ∃ t, exec .hdec s = .next t ∧
      t = { s with res := BitVec.ofNat 32 sym, decEof := s.decEof || sym == 256, bi := t.bi, inp := t.inp } ∧
      unreadBits t = rest ∧ t.inp.bytes = s.inp.bytes ∧ t.bi.eos = s.bi.eos

/-- R246, R227: XDEC decodes and then emits the symbol's bytes. Where OUT refuses one, those before it stand, and RES and
DEC_EOF already hold the decoded symbol. -/
def Obligations.XdecEmitsTheDecodedSymbol : Prop :=
  ∀ (s : State) (path rest : List Bool) (sym : Nat),
    Live s → s.cn.valid = true → path ≠ [] → s.cn.ct.follow path = .leaf sym →
    unreadBits s = path ++ rest →
    ∃ t, exec .xdec s = .next t ∧
      (OutRoom (symbolBytes sym).length s → t = { s with
        res := BitVec.ofNat 32 sym, decEof := s.decEof || sym == 256, bi := t.bi, inp := t.inp,
        outp := { s.outp with bytes := s.outp.bytes ++ symbolBytes sym } }) ∧
      (¬ OutRoom (symbolBytes sym).length s → t = { s with
        res := BitVec.ofNat 32 sym, decEof := s.decEof || sym == 256, bi := t.bi, inp := t.inp,
        outp := { s.outp with bytes := s.outp.bytes ++ (symbolBytes sym).take (outLeft s) },
        er := { err := 0x32, halt := true, info := 0x52000000 } }) ∧
      unreadBits t = rest ∧ t.inp.bytes = s.inp.bytes ∧ t.inp.atEnd = s.inp.atEnd ∧ t.bi.eos = s.bi.eos

/-- R241, R244, R246, R264: HDEC and XDEC where the stream ends before a leaf: E_EOS_SYMBOL with the bits consumed, or
E_IO_READ where the IN port reports an I/O error; RES, DEC_EOF and OUT are as before. It asks nothing of CT: where CT has
no node for the next bit, that the walk reads on is log entry 4 (DEDUCED), and that the payload is cut to 24 bits is
log entry 15 (DEDUCED). With the code of a complete table neither happens. -/
def Obligations.DecodingATruncatedSymbol : Prop :=
  ∀ (s : State) (i : Instr), Live s → s.cn.valid = true → i = .hdec ∨ i = .xdec →
    (∀ path rest sym, unreadBits s = path ++ rest → path ≠ [] → s.cn.ct.follow path ≠ .leaf sym) →
    ∃ t, exec i s = .next t ∧ t = { s with er := t.er, bi := t.bi, inp := t.inp } ∧
      (EndsClean s → t.bi.eos = true ∧ t.er = {
        err := 0x23, halt := true,
        info := BitVec.ofNat 32 (i.opcode.toNat * 2 ^ 24 + (unreadBits s).length % 2 ^ 24) }) ∧
      (¬ EndsClean s → t.bi.eos = false ∧ t.er = {
        err := 0x31, halt := true, info := BitVec.ofNat 32 (i.opcode.toNat * 2 ^ 24) }) ∧
      unreadBits t = [] ∧ t.inp.bytes = s.inp.bytes ∧ t.inp.atEnd = s.inp.atEnd

/-- R205, R242: with a valid code, HDEC on a stream that starts with a symbol's code gives the symbol. -/
def Obligations.DecodingInvertsEncoding : Prop :=
  ∀ (s : State) (sym : Nat) (rest : List Bool),
    Live s → CodeOk s → s.cn.valid = true → sym < 322 → s.lenAt sym ≠ 0 →
    unreadBits s = codesOf s [sym] ++ rest →
    ∃ t, exec .hdec s = .next t ∧ t.res = BitVec.ofNat 32 sym ∧ unreadBits t = rest ∧ t.cn = s.cn

/-! ## The whole machine -/

/-- R46: only the eight result-producing commands (and reset) write RES. -/
def Obligations.OnlyResultCommandsWriteRes : Prop :=
  ∀ (i : Instr) (s t : State), i ≠ .srst → writesRes i = false → exec i s = .next t → t.res = s.res

/-- R50 to R57, R41, R45, R70: which commands write which table, buffer and stream, on every path and on errors
too; no command touches the host's side. -/
def Obligations.OnlyItsWritersChangeEachTable : Prop :=
  ∀ (i : Instr) (s t : State), i ≠ .srst → exec i s = .next t →
    (writesFreq i = false → t.fq.freq = s.fq.freq) ∧
    (writesHt i = false → t.fq.ht = s.fq.ht) ∧
    (writesLen i = false → t.cn.len = s.cn.len) ∧
    (writesCode i = false → t.cn.code = s.cn.code ∧ t.cn.ct = s.cn.ct) ∧
    (writesPacker i = false → t.bo = s.bo) ∧
    (writesOut i = false → t.outp = s.outp) ∧
    (readsIn i = false → t.bi = s.bi ∧ t.inp = s.inp) ∧
    (writesRun i = false → t.esc = s.esc) ∧
    (writesDecEof i = false → t.decEof = s.decEof) ∧
    t.host = s.host ∧ t.busy = s.busy ∧ t.free = s.free

/-- R37, R38, R58: only FBUILD sets HT_VALID, only CTREE and CLEN set CODE_VALID, and HDRR leaves it 0. -/
def Obligations.ValidityFlagsAreSetByTheirBuilders : Prop :=
  ∀ (i : Instr) (s t : State), exec i s = .next t →
    (t.fq.valid = true → i = .fbuild ∨ s.fq.valid = true) ∧
    (t.cn.valid = true → i = .ctree ∨ i = .clen ∨ s.cn.valid = true) ∧
    (Live s → i = .hdrr → t.cn.valid = false)

/-- R35, R36, R41, R44, R45, R266: the sticky flags; only reset clears them, and the first error is kept. -/
def Obligations.StickyFlagsStay : Prop :=
  ∀ (i : Instr) (s t : State), i ≠ .srst → exec i s = .next t →
    (s.er.halt = true → t = s) ∧
    (s.bo.closed = true → t.bo.closed = true) ∧
    (s.bi.eos = true → t.bi.eos = true) ∧
    (s.decEof = true → t.decEof = true)

/-- R71, R72: OUT only grows and IN is only read on, in every step, a reset among them; the launch parameters stay. That
the streams survive a power-on (R291) is the model's choice: log entry 9. -/
def Obligations.StreamsOnlyMoveForward : Prop :=
  ∀ s t : State, step s = .next t →
    s.outp.bytes <+: t.outp.bytes ∧ t.outp.limit = s.outp.limit ∧
    s.inp.pos ≤ t.inp.pos ∧ t.inp.bytes = s.inp.bytes ∧ t.inp.atEnd = s.inp.atEnd ∧
    t.host.base = s.host.base

/-- The invariant is kept by every step. -/
def Obligations.StepKeepsInvariant : Prop :=
  ∀ s t : State, Inv s → step s = .next t → Inv t
end

