-- ==== Sys2Proof/Laws/State.lean ====
section
/-! SUPPORT. Each update of State, field by field: what it writes reads back, every other field is as
before. -/

namespace Sys2Proof.Machine

variable (s : State)

@[simp] theorem State.withEr_er (v : ErrorRegs) : (s.withEr v).er = v := rfl
@[simp] theorem State.withEr_res (v : ErrorRegs) : (s.withEr v).res = s.res := rfl
@[simp] theorem State.withEr_decEof (v : ErrorRegs) : (s.withEr v).decEof = s.decEof := rfl
@[simp] theorem State.withEr_busy (v : ErrorRegs) : (s.withEr v).busy = s.busy := rfl
@[simp] theorem State.withEr_fq (v : ErrorRegs) : (s.withEr v).fq = s.fq := rfl
@[simp] theorem State.withEr_cn (v : ErrorRegs) : (s.withEr v).cn = s.cn := rfl
@[simp] theorem State.withEr_esc (v : ErrorRegs) : (s.withEr v).esc = s.esc := rfl
@[simp] theorem State.withEr_bo (v : ErrorRegs) : (s.withEr v).bo = s.bo := rfl
@[simp] theorem State.withEr_bi (v : ErrorRegs) : (s.withEr v).bi = s.bi := rfl
@[simp] theorem State.withEr_inp (v : ErrorRegs) : (s.withEr v).inp = s.inp := rfl
@[simp] theorem State.withEr_outp (v : ErrorRegs) : (s.withEr v).outp = s.outp := rfl
@[simp] theorem State.withEr_host (v : ErrorRegs) : (s.withEr v).host = s.host := rfl
@[simp] theorem State.withEr_free (v : ErrorRegs) : (s.withEr v).free = s.free := rfl

@[simp] theorem State.withRes_er (v : Word) : (s.withRes v).er = s.er := rfl
@[simp] theorem State.withRes_res (v : Word) : (s.withRes v).res = v := rfl
@[simp] theorem State.withRes_decEof (v : Word) : (s.withRes v).decEof = s.decEof := rfl
@[simp] theorem State.withRes_busy (v : Word) : (s.withRes v).busy = s.busy := rfl
@[simp] theorem State.withRes_fq (v : Word) : (s.withRes v).fq = s.fq := rfl
@[simp] theorem State.withRes_cn (v : Word) : (s.withRes v).cn = s.cn := rfl
@[simp] theorem State.withRes_esc (v : Word) : (s.withRes v).esc = s.esc := rfl
@[simp] theorem State.withRes_bo (v : Word) : (s.withRes v).bo = s.bo := rfl
@[simp] theorem State.withRes_bi (v : Word) : (s.withRes v).bi = s.bi := rfl
@[simp] theorem State.withRes_inp (v : Word) : (s.withRes v).inp = s.inp := rfl
@[simp] theorem State.withRes_outp (v : Word) : (s.withRes v).outp = s.outp := rfl
@[simp] theorem State.withRes_host (v : Word) : (s.withRes v).host = s.host := rfl
@[simp] theorem State.withRes_free (v : Word) : (s.withRes v).free = s.free := rfl

@[simp] theorem State.withDecEof_er (v : Bool) : (s.withDecEof v).er = s.er := rfl
@[simp] theorem State.withDecEof_res (v : Bool) : (s.withDecEof v).res = s.res := rfl
@[simp] theorem State.withDecEof_decEof (v : Bool) : (s.withDecEof v).decEof = v := rfl
@[simp] theorem State.withDecEof_busy (v : Bool) : (s.withDecEof v).busy = s.busy := rfl
@[simp] theorem State.withDecEof_fq (v : Bool) : (s.withDecEof v).fq = s.fq := rfl
@[simp] theorem State.withDecEof_cn (v : Bool) : (s.withDecEof v).cn = s.cn := rfl
@[simp] theorem State.withDecEof_esc (v : Bool) : (s.withDecEof v).esc = s.esc := rfl
@[simp] theorem State.withDecEof_bo (v : Bool) : (s.withDecEof v).bo = s.bo := rfl
@[simp] theorem State.withDecEof_bi (v : Bool) : (s.withDecEof v).bi = s.bi := rfl
@[simp] theorem State.withDecEof_inp (v : Bool) : (s.withDecEof v).inp = s.inp := rfl
@[simp] theorem State.withDecEof_outp (v : Bool) : (s.withDecEof v).outp = s.outp := rfl
@[simp] theorem State.withDecEof_host (v : Bool) : (s.withDecEof v).host = s.host := rfl
@[simp] theorem State.withDecEof_free (v : Bool) : (s.withDecEof v).free = s.free := rfl

@[simp] theorem State.withBusy_er (v : Bool) : (s.withBusy v).er = s.er := rfl
@[simp] theorem State.withBusy_res (v : Bool) : (s.withBusy v).res = s.res := rfl
@[simp] theorem State.withBusy_decEof (v : Bool) : (s.withBusy v).decEof = s.decEof := rfl
@[simp] theorem State.withBusy_busy (v : Bool) : (s.withBusy v).busy = v := rfl
@[simp] theorem State.withBusy_fq (v : Bool) : (s.withBusy v).fq = s.fq := rfl
@[simp] theorem State.withBusy_cn (v : Bool) : (s.withBusy v).cn = s.cn := rfl
@[simp] theorem State.withBusy_esc (v : Bool) : (s.withBusy v).esc = s.esc := rfl
@[simp] theorem State.withBusy_bo (v : Bool) : (s.withBusy v).bo = s.bo := rfl
@[simp] theorem State.withBusy_bi (v : Bool) : (s.withBusy v).bi = s.bi := rfl
@[simp] theorem State.withBusy_inp (v : Bool) : (s.withBusy v).inp = s.inp := rfl
@[simp] theorem State.withBusy_outp (v : Bool) : (s.withBusy v).outp = s.outp := rfl
@[simp] theorem State.withBusy_host (v : Bool) : (s.withBusy v).host = s.host := rfl
@[simp] theorem State.withBusy_free (v : Bool) : (s.withBusy v).free = s.free := rfl

@[simp] theorem State.withFq_er (v : FreqUnit) : (s.withFq v).er = s.er := rfl
@[simp] theorem State.withFq_res (v : FreqUnit) : (s.withFq v).res = s.res := rfl
@[simp] theorem State.withFq_decEof (v : FreqUnit) : (s.withFq v).decEof = s.decEof := rfl
@[simp] theorem State.withFq_busy (v : FreqUnit) : (s.withFq v).busy = s.busy := rfl
@[simp] theorem State.withFq_fq (v : FreqUnit) : (s.withFq v).fq = v := rfl
@[simp] theorem State.withFq_cn (v : FreqUnit) : (s.withFq v).cn = s.cn := rfl
@[simp] theorem State.withFq_esc (v : FreqUnit) : (s.withFq v).esc = s.esc := rfl
@[simp] theorem State.withFq_bo (v : FreqUnit) : (s.withFq v).bo = s.bo := rfl
@[simp] theorem State.withFq_bi (v : FreqUnit) : (s.withFq v).bi = s.bi := rfl
@[simp] theorem State.withFq_inp (v : FreqUnit) : (s.withFq v).inp = s.inp := rfl
@[simp] theorem State.withFq_outp (v : FreqUnit) : (s.withFq v).outp = s.outp := rfl
@[simp] theorem State.withFq_host (v : FreqUnit) : (s.withFq v).host = s.host := rfl
@[simp] theorem State.withFq_free (v : FreqUnit) : (s.withFq v).free = s.free := rfl

@[simp] theorem State.withCn_er (v : CodeUnit) : (s.withCn v).er = s.er := rfl
@[simp] theorem State.withCn_res (v : CodeUnit) : (s.withCn v).res = s.res := rfl
@[simp] theorem State.withCn_decEof (v : CodeUnit) : (s.withCn v).decEof = s.decEof := rfl
@[simp] theorem State.withCn_busy (v : CodeUnit) : (s.withCn v).busy = s.busy := rfl
@[simp] theorem State.withCn_fq (v : CodeUnit) : (s.withCn v).fq = s.fq := rfl
@[simp] theorem State.withCn_cn (v : CodeUnit) : (s.withCn v).cn = v := rfl
@[simp] theorem State.withCn_esc (v : CodeUnit) : (s.withCn v).esc = s.esc := rfl
@[simp] theorem State.withCn_bo (v : CodeUnit) : (s.withCn v).bo = s.bo := rfl
@[simp] theorem State.withCn_bi (v : CodeUnit) : (s.withCn v).bi = s.bi := rfl
@[simp] theorem State.withCn_inp (v : CodeUnit) : (s.withCn v).inp = s.inp := rfl
@[simp] theorem State.withCn_outp (v : CodeUnit) : (s.withCn v).outp = s.outp := rfl
@[simp] theorem State.withCn_host (v : CodeUnit) : (s.withCn v).host = s.host := rfl
@[simp] theorem State.withCn_free (v : CodeUnit) : (s.withCn v).free = s.free := rfl

@[simp] theorem State.withEsc_er (v : EscapeUnit) : (s.withEsc v).er = s.er := rfl
@[simp] theorem State.withEsc_res (v : EscapeUnit) : (s.withEsc v).res = s.res := rfl
@[simp] theorem State.withEsc_decEof (v : EscapeUnit) : (s.withEsc v).decEof = s.decEof := rfl
@[simp] theorem State.withEsc_busy (v : EscapeUnit) : (s.withEsc v).busy = s.busy := rfl
@[simp] theorem State.withEsc_fq (v : EscapeUnit) : (s.withEsc v).fq = s.fq := rfl
@[simp] theorem State.withEsc_cn (v : EscapeUnit) : (s.withEsc v).cn = s.cn := rfl
@[simp] theorem State.withEsc_esc (v : EscapeUnit) : (s.withEsc v).esc = v := rfl
@[simp] theorem State.withEsc_bo (v : EscapeUnit) : (s.withEsc v).bo = s.bo := rfl
@[simp] theorem State.withEsc_bi (v : EscapeUnit) : (s.withEsc v).bi = s.bi := rfl
@[simp] theorem State.withEsc_inp (v : EscapeUnit) : (s.withEsc v).inp = s.inp := rfl
@[simp] theorem State.withEsc_outp (v : EscapeUnit) : (s.withEsc v).outp = s.outp := rfl
@[simp] theorem State.withEsc_host (v : EscapeUnit) : (s.withEsc v).host = s.host := rfl
@[simp] theorem State.withEsc_free (v : EscapeUnit) : (s.withEsc v).free = s.free := rfl

@[simp] theorem State.withBo_er (v : Packer) : (s.withBo v).er = s.er := rfl
@[simp] theorem State.withBo_res (v : Packer) : (s.withBo v).res = s.res := rfl
@[simp] theorem State.withBo_decEof (v : Packer) : (s.withBo v).decEof = s.decEof := rfl
@[simp] theorem State.withBo_busy (v : Packer) : (s.withBo v).busy = s.busy := rfl
@[simp] theorem State.withBo_fq (v : Packer) : (s.withBo v).fq = s.fq := rfl
@[simp] theorem State.withBo_cn (v : Packer) : (s.withBo v).cn = s.cn := rfl
@[simp] theorem State.withBo_esc (v : Packer) : (s.withBo v).esc = s.esc := rfl
@[simp] theorem State.withBo_bo (v : Packer) : (s.withBo v).bo = v := rfl
@[simp] theorem State.withBo_bi (v : Packer) : (s.withBo v).bi = s.bi := rfl
@[simp] theorem State.withBo_inp (v : Packer) : (s.withBo v).inp = s.inp := rfl
@[simp] theorem State.withBo_outp (v : Packer) : (s.withBo v).outp = s.outp := rfl
@[simp] theorem State.withBo_host (v : Packer) : (s.withBo v).host = s.host := rfl
@[simp] theorem State.withBo_free (v : Packer) : (s.withBo v).free = s.free := rfl

@[simp] theorem State.withBi_er (v : Unpacker) : (s.withBi v).er = s.er := rfl
@[simp] theorem State.withBi_res (v : Unpacker) : (s.withBi v).res = s.res := rfl
@[simp] theorem State.withBi_decEof (v : Unpacker) : (s.withBi v).decEof = s.decEof := rfl
@[simp] theorem State.withBi_busy (v : Unpacker) : (s.withBi v).busy = s.busy := rfl
@[simp] theorem State.withBi_fq (v : Unpacker) : (s.withBi v).fq = s.fq := rfl
@[simp] theorem State.withBi_cn (v : Unpacker) : (s.withBi v).cn = s.cn := rfl
@[simp] theorem State.withBi_esc (v : Unpacker) : (s.withBi v).esc = s.esc := rfl
@[simp] theorem State.withBi_bo (v : Unpacker) : (s.withBi v).bo = s.bo := rfl
@[simp] theorem State.withBi_bi (v : Unpacker) : (s.withBi v).bi = v := rfl
@[simp] theorem State.withBi_inp (v : Unpacker) : (s.withBi v).inp = s.inp := rfl
@[simp] theorem State.withBi_outp (v : Unpacker) : (s.withBi v).outp = s.outp := rfl
@[simp] theorem State.withBi_host (v : Unpacker) : (s.withBi v).host = s.host := rfl
@[simp] theorem State.withBi_free (v : Unpacker) : (s.withBi v).free = s.free := rfl

@[simp] theorem State.withInp_er (v : InPort) : (s.withInp v).er = s.er := rfl
@[simp] theorem State.withInp_res (v : InPort) : (s.withInp v).res = s.res := rfl
@[simp] theorem State.withInp_decEof (v : InPort) : (s.withInp v).decEof = s.decEof := rfl
@[simp] theorem State.withInp_busy (v : InPort) : (s.withInp v).busy = s.busy := rfl
@[simp] theorem State.withInp_fq (v : InPort) : (s.withInp v).fq = s.fq := rfl
@[simp] theorem State.withInp_cn (v : InPort) : (s.withInp v).cn = s.cn := rfl
@[simp] theorem State.withInp_esc (v : InPort) : (s.withInp v).esc = s.esc := rfl
@[simp] theorem State.withInp_bo (v : InPort) : (s.withInp v).bo = s.bo := rfl
@[simp] theorem State.withInp_bi (v : InPort) : (s.withInp v).bi = s.bi := rfl
@[simp] theorem State.withInp_inp (v : InPort) : (s.withInp v).inp = v := rfl
@[simp] theorem State.withInp_outp (v : InPort) : (s.withInp v).outp = s.outp := rfl
@[simp] theorem State.withInp_host (v : InPort) : (s.withInp v).host = s.host := rfl
@[simp] theorem State.withInp_free (v : InPort) : (s.withInp v).free = s.free := rfl

@[simp] theorem State.withOutp_er (v : OutPort) : (s.withOutp v).er = s.er := rfl
@[simp] theorem State.withOutp_res (v : OutPort) : (s.withOutp v).res = s.res := rfl
@[simp] theorem State.withOutp_decEof (v : OutPort) : (s.withOutp v).decEof = s.decEof := rfl
@[simp] theorem State.withOutp_busy (v : OutPort) : (s.withOutp v).busy = s.busy := rfl
@[simp] theorem State.withOutp_fq (v : OutPort) : (s.withOutp v).fq = s.fq := rfl
@[simp] theorem State.withOutp_cn (v : OutPort) : (s.withOutp v).cn = s.cn := rfl
@[simp] theorem State.withOutp_esc (v : OutPort) : (s.withOutp v).esc = s.esc := rfl
@[simp] theorem State.withOutp_bo (v : OutPort) : (s.withOutp v).bo = s.bo := rfl
@[simp] theorem State.withOutp_bi (v : OutPort) : (s.withOutp v).bi = s.bi := rfl
@[simp] theorem State.withOutp_inp (v : OutPort) : (s.withOutp v).inp = s.inp := rfl
@[simp] theorem State.withOutp_outp (v : OutPort) : (s.withOutp v).outp = v := rfl
@[simp] theorem State.withOutp_host (v : OutPort) : (s.withOutp v).host = s.host := rfl
@[simp] theorem State.withOutp_free (v : OutPort) : (s.withOutp v).free = s.free := rfl

@[simp] theorem State.withHost_er (v : HostSide) : (s.withHost v).er = s.er := rfl
@[simp] theorem State.withHost_res (v : HostSide) : (s.withHost v).res = s.res := rfl
@[simp] theorem State.withHost_decEof (v : HostSide) : (s.withHost v).decEof = s.decEof := rfl
@[simp] theorem State.withHost_busy (v : HostSide) : (s.withHost v).busy = s.busy := rfl
@[simp] theorem State.withHost_fq (v : HostSide) : (s.withHost v).fq = s.fq := rfl
@[simp] theorem State.withHost_cn (v : HostSide) : (s.withHost v).cn = s.cn := rfl
@[simp] theorem State.withHost_esc (v : HostSide) : (s.withHost v).esc = s.esc := rfl
@[simp] theorem State.withHost_bo (v : HostSide) : (s.withHost v).bo = s.bo := rfl
@[simp] theorem State.withHost_bi (v : HostSide) : (s.withHost v).bi = s.bi := rfl
@[simp] theorem State.withHost_inp (v : HostSide) : (s.withHost v).inp = s.inp := rfl
@[simp] theorem State.withHost_outp (v : HostSide) : (s.withHost v).outp = s.outp := rfl
@[simp] theorem State.withHost_host (v : HostSide) : (s.withHost v).host = v := rfl
@[simp] theorem State.withHost_free (v : HostSide) : (s.withHost v).free = s.free := rfl

@[simp] theorem State.withFree_er (v : Nat) : (s.withFree v).er = s.er := rfl
@[simp] theorem State.withFree_res (v : Nat) : (s.withFree v).res = s.res := rfl
@[simp] theorem State.withFree_decEof (v : Nat) : (s.withFree v).decEof = s.decEof := rfl
@[simp] theorem State.withFree_busy (v : Nat) : (s.withFree v).busy = s.busy := rfl
@[simp] theorem State.withFree_fq (v : Nat) : (s.withFree v).fq = s.fq := rfl
@[simp] theorem State.withFree_cn (v : Nat) : (s.withFree v).cn = s.cn := rfl
@[simp] theorem State.withFree_esc (v : Nat) : (s.withFree v).esc = s.esc := rfl
@[simp] theorem State.withFree_bo (v : Nat) : (s.withFree v).bo = s.bo := rfl
@[simp] theorem State.withFree_bi (v : Nat) : (s.withFree v).bi = s.bi := rfl
@[simp] theorem State.withFree_inp (v : Nat) : (s.withFree v).inp = s.inp := rfl
@[simp] theorem State.withFree_outp (v : Nat) : (s.withFree v).outp = s.outp := rfl
@[simp] theorem State.withFree_host (v : Nat) : (s.withFree v).host = s.host := rfl
@[simp] theorem State.withFree_free (v : Nat) : (s.withFree v).free = v := rfl

end Sys2Proof.Machine
end

