-- ==== Sys2Proof/Laws/Run.lean ====
section
/-! SUPPORT. What a run of micro-steps and the command wrapper can do: each is inverted here once. -/

namespace Sys2Proof.Machine

/-! ## Runs -/

@[simp] theorem Run.ok_andThen {α β : Type} (a : α) (s : State) (f : α → State → Run β) :
    (Run.ok a s).andThen f = f a s := rfl

@[simp] theorem Run.raise_andThen {α β : Type} (c : Cause) (p : BitVec 24) (s : State)
    (f : α → State → Run β) : (Run.raise c p s : Run α).andThen f = .raise c p s := rfl

theorem Run.andThen_assoc {α β γ : Type} (r : Run α) (f : α → State → Run β) (g : β → State → Run γ) :
    (r.andThen f).andThen g = r.andThen fun a s => (f a s).andThen g := by
  cases r <;> rfl

theorem Run.andThen_eq_ok {α β : Type} {r : Run α} {f : α → State → Run β} {b : β} {u : State} :
    r.andThen f = .ok b u ↔ ∃ a t, r = .ok a t ∧ f a t = .ok b u := by
  cases r <;> simp [Run.andThen]

theorem Run.andThen_eq_raise {α β : Type} {r : Run α} {f : α → State → Run β} {c : Cause}
    {p : BitVec 24} {u : State} :
    r.andThen f = .raise c p u ↔ r = .raise c p u ∨ ∃ a t, r = .ok a t ∧ f a t = .raise c p u := by
  cases r <;> simp [Run.andThen]

/-- The state a run ends in, by a value or by a raise. -/
def Run.final {α : Type} : Run α → State
  | .ok _ s => s
  | .raise _ _ s => s

@[simp] theorem Run.final_ok {α : Type} (a : α) (s : State) : (Run.ok a s).final = s := rfl

@[simp] theorem Run.final_raise {α : Type} (c : Cause) (p : BitVec 24) (s : State) :
    (Run.raise c p s : Run α).final = s := rfl

/-- A transitive relation from the start of a sequence to its end: the first part reaches its own end, and
the second part goes on from where the first ended well. -/
theorem Run.final_andThen {α β : Type} {R : State → State → Prop} {s : State} {r : Run α}
    {f : α → State → Run β} (trans : ∀ {a b c}, R a b → R b c → R a c) (first : R s r.final)
    (second : ∀ a t, r = .ok a t → R t (f a t).final) : R s (r.andThen f).final := by
  cases r with
  | ok a t => exact trans first (second a t rfl)
  | raise c p t => exact first

/-! ## Preconditions -/

@[simp] theorem require_true (c : Cause) (s : State) : require true c s = .ok () s := rfl

@[simp] theorem require_false (c : Cause) (s : State) : require false c s = .raise c 0 s := rfl

@[simp] theorem require_final (b : Bool) (c : Cause) (s : State) : (require b c s).final = s := by
  cases b <;> rfl

theorem needSymbol_of_lt {sym : Nat} (h : sym < 322) (s : State) : needSymbol sym s = .ok () s := by
  simp [needSymbol, h]

theorem needSymbol_of_ge {sym : Nat} (h : 322 ≤ sym) (s : State) :
    needSymbol sym s = .raise .symRange (BitVec.ofNat 24 sym) s := by
  simp [needSymbol, Nat.not_lt.mpr h]

@[simp] theorem needSymbol_final (sym : Nat) (s : State) : (needSymbol sym s).final = s := by
  unfold needSymbol; split <;> rfl

/-! ## Error entry and the reset action -/

@[simp] theorem errorEntry_er (c : Cause) (p : BitVec 24) (o : BitVec 8) (s : State) :
    (errorEntry c p o s).er = { err := c.code, halt := true, info := errorInfo o p } := rfl

theorem errorEntry_eq (c : Cause) (p : BitVec 24) (o : BitVec 8) (s : State) :
    errorEntry c p o s = { s with er := { err := c.code, halt := true, info := errorInfo o p } } := rfl

theorem errorInfo_toNat (o : BitVec 8) (p : BitVec 24) :
    (errorInfo o p).toNat = o.toNat * 2 ^ 24 + p.toNat := by
  have ho := o.isLt
  have hp := p.isLt
  rw [errorInfo, BitVec.toNat_ofNat, Nat.mod_eq_of_lt]
  generalize o.toNat = x at *
  generalize p.toNat = y at *
  omega

/-- ERRINFO of an illegal word is the whole word (spec/60_exceptions.md R265). -/
theorem errorInfo_of_word (w : Word) : errorInfo (fieldOpcode w) (fieldLow24 w) = w := by
  refine BitVec.eq_of_toNat_eq ?_
  have hw := w.isLt
  rw [errorInfo_toNat, fieldOpcode, fieldLow24, BitVec.extractLsb'_toNat, BitVec.extractLsb'_toNat,
    Nat.shiftRight_eq_div_pow, Nat.shiftRight_eq_div_pow]
  generalize w.toNat = x at *
  omega

/-- The opcode byte of ERRINFO (R47). -/
theorem errorInfo_opcode (o : BitVec 8) (p : BitVec 24) : (errorInfo o p).extractLsb' 24 8 = o := by
  refine BitVec.eq_of_toNat_eq ?_
  have ho := o.isLt
  have hp := p.isLt
  rw [BitVec.extractLsb'_toNat, errorInfo_toNat, Nat.shiftRight_eq_div_pow]
  generalize o.toNat = x at *
  generalize p.toNat = y at *
  omega

theorem Cause.code_mem (c : Cause) : c.code ∈ causeCodes := by cases c <;> decide

theorem Cause.code_ne_zero (c : Cause) : c.code ≠ 0 := by cases c <;> decide

theorem Cause.code_injective {c d : Cause} (h : c.code = d.code) : c = d := by
  cases c <;> cases d <;> first | rfl | (exact absurd h (by decide))

/-! ## The command wrapper -/

variable {i : Instr} {body : State → Run Unit} {s t : State}

theorem command_of_halted (h : s.er.halt = true) : command i body s = .next s := by simp [command, h]

theorem command_of_ok (live : Live s) {u : Unit} (h : body s = .ok u t) : command i body s = .next t := by
  simp [command, live, h]

theorem command_of_raise (live : Live s) {c : Cause} {p : BitVec 24} (h : body s = .raise c p t) :
    command i body s = .next (errorEntry c p i.opcode t) := by
  simp [command, live, h]

/-- Everything a command can do: it is discarded, its body ends well, or its body raises. -/
theorem command_cases (h : command i body s = .next t) :
    (s.er.halt = true ∧ t = s) ∨
    (Live s ∧ body s = .ok () t) ∨
    (Live s ∧ ∃ c p u, body s = .raise c p u ∧ t = errorEntry c p i.opcode u) := by
  unfold command at h
  split at h
  · rename_i hh
    cases h
    exact .inl ⟨hh, rfl⟩
  · rename_i hh
    have live : Live s := by simpa using hh
    cases hb : body s with
    | ok a u =>
      rw [hb] at h
      cases h
      exact .inr (.inl ⟨live, rfl⟩)
    | raise c p u =>
      rw [hb] at h
      cases h
      exact .inr (.inr ⟨live, c, p, u, rfl, rfl⟩)

/-- A command always answers a next state. -/
theorem command_answers (i : Instr) (body : State → Run Unit) (s : State) :
    ∃ t, command i body s = .next t := by
  unfold command
  split
  · exact ⟨_, rfl⟩
  · cases body s <;> exact ⟨_, rfl⟩

/-- A reflexive relation that a body keeps, and that error entry keeps, holds of the command. -/
theorem command_keeps {R : State → State → Prop} (refl : ∀ s, R s s)
    (entry : ∀ {a b} c p, R a b → R a (errorEntry c p i.opcode b)) (h : command i body s = .next t)
    (inBody : Live s → R s (body s).final) : R s t := by
  obtain ⟨-, rfl⟩ | ⟨live, hb⟩ | ⟨live, c, p, u, hb, rfl⟩ := command_cases h
  · exact refl _
  · simpa [hb] using inBody live
  · exact entry c p (by simpa [hb] using inBody live)

end Sys2Proof.Machine
end

