-- ==== Sys2Proof/Laws/Assign.lean ====
section
/-! SUPPORT. The canonical assignment (spec/43_canonical.md R194): the value of each code is the sum of the
shares of the symbols before it. -/

namespace Sys2Proof.Machine

variable (len : Vector Byte 322)

theorem lenNat_le (sym : Nat) : lenNat len sym ≤ 255 := by
  have := (len[sym]?.getD 0).isLt
  unfold lenNat; omega

theorem codeOrder_total (a b : Nat) : codeOrder len a b ∨ codeOrder len b a := by
  unfold codeOrder; omega

theorem codeOrder_trans {a b c : Nat} (h₁ : codeOrder len a b) (h₂ : codeOrder len b c) : codeOrder len a c := by
  unfold codeOrder at *; omega

theorem sortedSymbols_perm : (sortedSymbols len).Perm (codedSymbols len) := List.perm_insertionSort _ _

theorem sortedSymbols_pairwise : (sortedSymbols len).Pairwise (codeOrder len) :=
  @List.pairwise_insertionSort _ (codeOrder len) _ ⟨codeOrder_total len⟩ ⟨fun _ _ _ => codeOrder_trans len⟩ _

theorem mem_codedSymbols {sym : Nat} : sym ∈ codedSymbols len ↔ sym < 322 ∧ lenNat len sym ≠ 0 := by
  simp [codedSymbols]

theorem codedSymbols_nodup : (codedSymbols len).Nodup := List.nodup_range.filter _

theorem kraftSum_eq_shares : kraftSum len = ((codedSymbols len).map (codeShare len)).sum := rfl

/-! ## The loop -/

theorem assignLoop_symbols (S : List Nat) (code prev : Nat) : (assignLoop len S code prev).map (·.1) = S := by
  induction S generalizing code prev with
  | nil => rfl
  | cons sym rest ih => simp [assignLoop, ih]

theorem scale_code {code prev next : Nat} (le : prev ≤ next) (le' : next ≤ 255) :
    code * 2 ^ (next - prev) * 2 ^ (255 - next) = code * 2 ^ (255 - prev) := by
  rw [Nat.mul_assoc, ← pow_add]
  congr 2; omega

/-- The code of a symbol, scaled to the code space, is where the loop started plus the shares before it. -/
theorem assignLoop_value (pre post : List Nat) (sym code prev : Nat)
    (sorted : (pre ++ sym :: post).Pairwise fun a b => lenNat len a ≤ lenNat len b)
    (from_prev : ∀ a ∈ pre ++ sym :: post, prev ≤ lenNat len a) :
    ∃ c, (sym, c) ∈ assignLoop len (pre ++ sym :: post) code prev ∧
      c * codeShare len sym = code * 2 ^ (255 - prev) + (pre.map (codeShare len)).sum := by
  induction pre generalizing code prev with
  | nil =>
    refine ⟨_, by simp [assignLoop]; exact .inl rfl, ?_⟩
    simpa [codeShare] using scale_code (from_prev sym (by simp)) (lenNat_le len sym)
  | cons a pre ih =>
    simp only [List.cons_append, List.pairwise_cons] at sorted
    obtain ⟨c, mem, value⟩ := ih (code * 2 ^ (lenNat len a - prev) + 1) (lenNat len a) sorted.2 sorted.1
    refine ⟨c, by simp only [List.cons_append, assignLoop, List.mem_cons]; exact .inr mem, ?_⟩
    have scale := scale_code (code := code) (from_prev a (by simp)) (lenNat_le len a)
    rw [value, Nat.add_mul, scale, Nat.one_mul, List.map_cons, List.sum_cons, codeShare]
    omega

/-! ## The table -/

theorem foldl_set_other {w : Nat} (xs : List (Nat × Nat)) (tbl : Vector (BitVec w) 322) (sym : Nat)
    (h : sym ∉ xs.map (·.1)) :
    (xs.foldl (fun tbl x => tbl.setIfInBounds x.1 (BitVec.ofNat w x.2)) tbl)[sym]? = tbl[sym]? := by
  induction xs generalizing tbl with
  | nil => rfl
  | cons x xs ih =>
    simp only [List.map_cons, List.mem_cons, not_or] at h
    rw [List.foldl_cons, ih _ h.2, Vector.getElem?_setIfInBounds_ne (Ne.symm h.1)]

theorem foldl_set_mem {w : Nat} (xs : List (Nat × Nat)) (tbl : Vector (BitVec w) 322) (sym c : Nat)
    (nodup : (xs.map (·.1)).Nodup) (h : (sym, c) ∈ xs) (lt : sym < 322) :
    (xs.foldl (fun tbl x => tbl.setIfInBounds x.1 (BitVec.ofNat w x.2)) tbl)[sym]? = some (BitVec.ofNat w c) := by
  induction xs generalizing tbl with
  | nil => simp at h
  | cons x xs ih =>
    simp only [List.map_cons, List.nodup_cons] at nodup
    rw [List.foldl_cons]
    rcases List.mem_cons.mp h with rfl | h
    · rw [foldl_set_other xs _ sym nodup.1, Vector.getElem?_setIfInBounds_self_of_lt lt]
    · exact ih _ nodup.2 h

theorem assignment_symbols : (assignment len).map (·.1) = sortedSymbols len := assignLoop_symbols len _ _ _

/-- A symbol without a code has code value 0 (R194). -/
theorem assignCodes_uncoded {sym : Nat} (h : sym ∉ codedSymbols len) : (assignCodes len)[sym]?.getD 0 = 0 := by
  have notIn : sym ∉ (assignment len).map (·.1) := by
    rw [assignment_symbols]
    exact fun mem => h ((sortedSymbols_perm len).mem_iff.mp mem)
  rw [assignCodes, foldl_set_other _ _ sym notIn]
  by_cases lt : sym < 322
  · simp [lt]
  · simp [Vector.getElem?_eq_none (Nat.not_lt.mp lt)]

/-- In the sorted list, the symbols before one are those that come before it in the order of the code. -/
theorem sortedSymbols_before {pre post : List Nat} {sym : Nat} (h : sortedSymbols len = pre ++ sym :: post) :
    (sortedSymbols len).filter (fun b => comesBefore len b sym) = pre := by
  have nodup : (sortedSymbols len).Nodup := (sortedSymbols_perm len).nodup_iff.mpr (codedSymbols_nodup len)
  have pairs := sortedSymbols_pairwise len
  rw [h] at pairs nodup ⊢
  rw [List.pairwise_append] at pairs
  rw [List.nodup_append] at nodup
  have front : ∀ b ∈ pre, comesBefore len b sym = true := fun b hb => by
    have order := pairs.2.2 b hb sym (by simp)
    have ne := nodup.2.2 b hb sym (by simp)
    simp only [comesBefore, Bool.or_eq_true, Bool.and_eq_true, decide_eq_true_eq, beq_iff_eq]
    unfold codeOrder at order; omega
  have back : ∀ b ∈ sym :: post, comesBefore len b sym = false := fun b hb => by
    have order : codeOrder len sym b := by
      rcases List.mem_cons.mp hb with rfl | hb
      · exact .inr ⟨rfl, le_rfl⟩
      · exact (List.pairwise_cons.mp pairs.2.1).1 b hb
    rw [Bool.eq_false_iff]
    simp only [comesBefore, ne_eq, Bool.or_eq_true, Bool.and_eq_true, decide_eq_true_eq, beq_iff_eq]
    unfold codeOrder at order; omega
  rw [List.filter_append, List.filter_eq_self.mpr front, List.filter_eq_nil_iff.mpr (by simpa using back),
    List.append_nil]

/-- A coded symbol and the space before it lie inside the code space. -/
theorem spaceBefore_add_share {sym : Nat} (h : sym ∈ codedSymbols len) :
    spaceBefore len sym + codeShare len sym ≤ kraftSum len := by
  have mem := (sortedSymbols_perm len).mem_iff.mpr h
  obtain ⟨pre, post, split⟩ := List.append_of_mem mem
  have before : (pre.map (codeShare len)).sum = spaceBefore len sym := by
    rw [← sortedSymbols_before len split, spaceBefore]
    exact (((sortedSymbols_perm len).filter _).map _).sum_eq
  rw [← before, kraftSum_eq_shares, ← ((sortedSymbols_perm len).map (codeShare len)).sum_eq, split]
  simp

/-- The code value of a coded symbol: scaled to the code space it is the space taken before it. -/
theorem assignCodes_value (fits : kraftSum len ≤ 2 ^ 255) {sym : Nat} (h : sym ∈ codedSymbols len) :
    ((assignCodes len)[sym]?.getD 0).toNat * codeShare len sym = spaceBefore len sym := by
  have mem := (sortedSymbols_perm len).mem_iff.mpr h
  obtain ⟨pre, post, split⟩ := List.append_of_mem mem
  have sorted : (pre ++ sym :: post).Pairwise fun a b => lenNat len a ≤ lenNat len b := by
    rw [← split]
    exact (sortedSymbols_pairwise len).imp fun o => by unfold codeOrder at o; omega
  have first : ∀ a ∈ pre ++ sym :: post,
      ((sortedSymbols len).head?.map (lenNat len)).getD 0 ≤ lenNat len a := by
    rw [split]
    cases pre with
    | nil =>
      intro a ha
      rcases List.mem_cons.mp ha with rfl | ha
      · simp
      · simpa using (List.pairwise_cons.mp sorted).1 a ha
    | cons b pre =>
      intro a ha
      rcases List.mem_cons.mp ha with rfl | ha
      · simp
      · simpa using (List.pairwise_cons.mp sorted).1 a ha
  obtain ⟨c, mem', value⟩ := assignLoop_value len pre post sym 0 _ sorted first
  have before : (pre.map (codeShare len)).sum = spaceBefore len sym := by
    rw [← sortedSymbols_before len split, spaceBefore]
    exact (((sortedSymbols_perm len).filter _).map _).sum_eq
  rw [Nat.zero_mul, Nat.zero_add, before] at value
  have nodup : ((assignment len).map (·.1)).Nodup := by
    rw [assignment_symbols]
    exact (sortedSymbols_perm len).nodup_iff.mpr (codedSymbols_nodup len)
  have entry := foldl_set_mem (w := 255) (assignment len) (Vector.replicate 322 0) sym c nodup
    (by rw [split] at mem'; rw [assignment, split]; exact mem') ((mem_codedSymbols len).mp h).1
  have small : c < 2 ^ 255 := by
    have total := spaceBefore_add_share len h
    have pos : 0 < codeShare len sym := Nat.two_pow_pos _
    have : c ≤ c * codeShare len sym := Nat.le_mul_of_pos_right c pos
    omega
  rw [assignCodes, entry, Option.getD_some, BitVec.toNat_ofNat, Nat.mod_eq_of_lt small, value]

end Sys2Proof.Machine
end

