-- ==== Sys2Proof/Laws/Ports.lean ====
section
/-! SUPPORT. The ports, the bit packer and the bit unpacker: what each can do and what it leaves
unchanged. -/

namespace Sys2Proof.Machine

/-! ## The OUT port -/

theorem outWrite_of_accepts {s : State} (h : outAccepts s.outp = true) (v : Byte) :
    outWrite v s = .ok () (s.withOutp { s.outp with bytes := s.outp.bytes ++ [v] }) := by
  simp [outWrite, h]

theorem outWrite_of_refuses {s : State} (h : outAccepts s.outp = false) (v : Byte) :
    outWrite v s = .raise .ioWrite 0 s := by
  simp [outWrite, h]

theorem outAccepts_of_room {s : State} {n : Nat} (h : OutRoom (n + 1) s) : outAccepts s.outp = true := by
  unfold OutRoom at h
  unfold outAccepts
  split <;> simp_all
  omega

theorem State.withOutp_same_bytes {s : State} {limit : Option Nat} (h : s.outp.limit = limit) :
    s.withOutp { bytes := s.outp.bytes, limit := limit } = s := by
  subst h; rfl

/-- `repeat n times: OutWrite(0)` as the loop it stands for (spec/44_escape.md R227). -/
def outZerosLoop : Nat → State → Run Unit
  | 0, s => .ok () s
  | n + 1, s => (outWrite 0 s).andThen fun _ t => outZerosLoop n t

/-- Writing zeros in one go is the loop of R227. -/
theorem outZeros_eq_loop (n : Nat) (s : State) : outZeros n s = outZerosLoop n s := by
  induction n generalizing s with
  | zero =>
    cases h : s.outp.limit <;> simp [outZeros, outZerosLoop, State.withOutp_same_bytes, h]
  | succ n ih =>
    cases hl : s.outp.limit with
    | none =>
      have acc : outAccepts s.outp = true := by simp [outAccepts, hl]
      simp only [outZerosLoop, outWrite_of_accepts acc, Run.ok_andThen, ← ih]
      simp [outZeros, hl, State.withOutp, List.replicate_succ]
    | some lim =>
      by_cases room : s.outp.bytes.length < lim
      · have acc : outAccepts s.outp = true := by simp [outAccepts, hl, room]
        simp only [outZerosLoop, outWrite_of_accepts acc, Run.ok_andThen, ← ih]
        have split1 : lim - s.outp.bytes.length = lim - (s.outp.bytes.length + 1) + 1 := by omega
        simp only [outZeros, hl, State.withOutp_outp, List.length_append, List.length_singleton]
        by_cases fits : s.outp.bytes.length + (n + 1) ≤ lim
        · rw [if_pos (Or.inl fits), if_pos (Or.inl (by omega))]
          simp [State.withOutp, List.replicate_succ]
        · have pos : ¬ n = 0 := by omega
          rw [if_neg (by omega), if_neg (by omega)]
          simp [State.withOutp, split1, List.replicate_succ]
      · have acc : outAccepts s.outp = false := by simp [outAccepts, hl, room]
        have none_fit : lim - s.outp.bytes.length = 0 := by omega
        simp only [outZerosLoop, outWrite_of_refuses acc, Run.raise_andThen, outZeros, hl]
        rw [if_neg (by omega)]
        simp only [none_fit, List.replicate_zero, List.append_nil]
        rw [State.withOutp_same_bytes hl]

/-! ## What is touched -/

/-- Only the packer and the OUT port differ, and OUT has only grown. -/
def PackStep (s t : State) : Prop :=
  ∃ (p : Packer) (added : List Byte), p.closed = s.bo.closed ∧
    t = (s.withBo p).withOutp { s.outp with bytes := s.outp.bytes ++ added }

theorem PackStep.refl (s : State) : PackStep s s := ⟨s.bo, [], rfl, by simp [State.withBo, State.withOutp]⟩

theorem PackStep.trans {a b c : State} (h₁ : PackStep a b) (h₂ : PackStep b c) : PackStep a c := by
  obtain ⟨p, xs, hp, rfl⟩ := h₁
  obtain ⟨q, ys, hq, rfl⟩ := h₂
  exact ⟨q, xs ++ ys, by simpa using hq.trans hp, by simp [State.withBo, State.withOutp]⟩

/-- Only the unpacker and the IN position differ; nothing is read twice. -/
def UnpackStep (s t : State) : Prop :=
  ∃ (u : Unpacker) (n : Nat), (s.bi.eos = true → u.eos = true) ∧
    t = (s.withBi u).withInp { s.inp with pos := s.inp.pos + n }

theorem UnpackStep.refl (s : State) : UnpackStep s s := ⟨s.bi, 0, id, by simp [State.withBi, State.withInp]⟩

theorem UnpackStep.trans {a b c : State} (h₁ : UnpackStep a b) (h₂ : UnpackStep b c) : UnpackStep a c := by
  obtain ⟨u, m, hu, rfl⟩ := h₁
  obtain ⟨v, n, hv, rfl⟩ := h₂
  refine ⟨v, m + n, fun h => hv (by simpa using hu h), ?_⟩
  simp [State.withBi, State.withInp, Nat.add_assoc]

/-! ## The packer -/

theorem outWrite_packStep (v : Byte) (s : State) : PackStep s (outWrite v s).final := by
  unfold outWrite
  split
  · exact ⟨s.bo, [v], rfl, by simp [State.withBo, State.withOutp]⟩
  · exact PackStep.refl s

theorem putBit_packStep (b : Bool) (s : State) : PackStep s (putBit b s).final := by
  unfold putBit
  split
  · refine Run.final_andThen PackStep.trans (outWrite_packStep _ s) fun a t _ => ?_
    exact ⟨{ t.bo with acc := 0, cnt := 0 }, [], rfl, by simp [State.withBo, State.withOutp]⟩
  · exact ⟨{ s.bo with acc := shiftIn s.bo.acc b, cnt := s.bo.cnt + 1 }, [], rfl,
      by simp [State.withBo, State.withOutp]⟩

theorem putBitList_packStep (bits : List Bool) (s : State) : PackStep s (putBitList bits s).final := by
  induction bits generalizing s with
  | nil => exact PackStep.refl s
  | cons b bits ih => exact Run.final_andThen PackStep.trans (putBit_packStep b s) fun _ t _ => ih t

theorem outZeros_packStep (n : Nat) (s : State) : PackStep s (outZeros n s).final := by
  rw [outZeros_eq_loop]
  induction n generalizing s with
  | zero => exact PackStep.refl s
  | succ n ih => exact Run.final_andThen PackStep.trans (outWrite_packStep 0 s) fun _ t _ => ih t

@[simp] theorem bitsMsbFirst_length {w : Nat} (v : BitVec w) (n : Nat) : (bitsMsbFirst v n).length = n := by
  induction n with
  | zero => rfl
  | succ n ih => simp [bitsMsbFirst, ih]

theorem putBitList_append (xs ys : List Bool) (s : State) :
    putBitList (xs ++ ys) s = (putBitList xs s).andThen fun _ t => putBitList ys t := by
  induction xs generalizing s with
  | nil => rfl
  | cons b xs ih => simp [putBitList, Run.andThen_assoc, ih]

/-! ## The unpacker -/

theorem inRead_unpackStep (s : State) : UnpackStep s (inRead s).2 := by
  unfold inRead
  split
  · exact ⟨s.bi, 1, id, by simp [State.withBi, State.withInp]⟩
  · split <;> exact UnpackStep.refl s

theorem takeBit_unpackStep (s : State) : UnpackStep s (takeBit s).final :=
  ⟨{ s.bi with rem := s.bi.rem - 1 }, 0, id, by simp [takeBit, State.withBi, State.withInp]⟩

/-- Everything GetBit can do (spec/41_bitstream.md R151). -/
theorem getBit_cases (s : State) :
    (s.bi.rem ≠ 0 ∧ getBit s = takeBit s) ∨
    (s.bi.rem = 0 ∧ s.bi.eos = true ∧ getBit s = .ok none s) ∨
    (s.bi.rem = 0 ∧ s.bi.eos = false ∧ ∃ v, s.inp.bytes[s.inp.pos]? = some v ∧
      getBit s = .ok (some (v.getLsbD 7))
        ((s.withInp { s.inp with pos := s.inp.pos + 1 }).withBi { s.bi with buf := v, rem := 7 })) ∨
    (s.bi.rem = 0 ∧ s.bi.eos = false ∧ s.inp.bytes[s.inp.pos]? = none ∧ s.inp.atEnd = .eos ∧
      getBit s = .ok none (s.withBi { s.bi with eos := true })) ∨
    (s.bi.rem = 0 ∧ s.bi.eos = false ∧ s.inp.bytes[s.inp.pos]? = none ∧ s.inp.atEnd = .ioerr ∧
      getBit s = .raise .ioRead 0 s) := by
  by_cases hr : s.bi.rem = 0
  · refine .inr ?_
    cases he : s.bi.eos with
    | true => exact .inl ⟨hr, rfl, by simp [getBit, hr, he]⟩
    | false =>
      refine .inr ?_
      cases hb : s.inp.bytes[s.inp.pos]? with
      | some v => exact .inl ⟨hr, rfl, v, rfl, by simp [getBit, hr, he, inRead, hb, takeBit, State.withBi]⟩
      | none =>
        refine .inr ?_
        cases hend : s.inp.atEnd with
        | eos => exact .inl ⟨hr, rfl, rfl, rfl, by simp [getBit, hr, he, inRead, hb, hend]⟩
        | ioerr => exact .inr ⟨hr, rfl, rfl, rfl, by simp [getBit, hr, he, inRead, hb, hend]⟩
  · exact .inl ⟨hr, if_neg hr⟩

theorem getBit_unpackStep (s : State) : UnpackStep s (getBit s).final := by
  obtain ⟨-, h⟩ | ⟨-, -, h⟩ | ⟨-, -, v, -, h⟩ | ⟨-, -, -, -, h⟩ | ⟨-, -, -, -, h⟩ := getBit_cases s
  · exact h ▸ takeBit_unpackStep s
  · exact h ▸ UnpackStep.refl s
  · exact ⟨{ s.bi with buf := v, rem := 7 }, 1, id, by simp [h, State.withBi, State.withInp]⟩
  · exact ⟨{ s.bi with eos := true }, 0, fun _ => rfl, by simp [h, State.withBi, State.withInp]⟩
  · exact h ▸ UnpackStep.refl s

end Sys2Proof.Machine
end

