-- ==== Sys2Proof/Laws/Bits.lean ====
section
/-! SUPPORT. The bit streams as lists of bits: what one PutBit adds to the bits written, what one GetBit takes
from the bits unread (spec/41_bitstream.md R150 to R152). -/

namespace Sys2Proof.Machine

@[simp] theorem byteBits_length (b : Byte) : (byteBits b).length = 8 := bitsMsbFirst_length b 8

/-- The bits of a value depend only on its low bits. -/
theorem bitsMsbFirst_congr {v w : Nat} (x : BitVec v) (y : BitVec w) (n : Nat)
    (h : ∀ i < n, x.getLsbD i = y.getLsbD i) : bitsMsbFirst x n = bitsMsbFirst y n := by
  induction n with
  | zero => rfl
  | succ n ih => simp [bitsMsbFirst, h n (by omega), ih fun i hi => h i (by omega)]

theorem shiftIn_getLsbD_zero (acc : Byte) (b : Bool) : (shiftIn acc b).getLsbD 0 = b := by
  revert acc b; decide

theorem shiftIn_getLsbD_succ (acc : Byte) (b : Bool) (i : Nat) (h : i < 7) :
    (shiftIn acc b).getLsbD (i + 1) = acc.getLsbD i := by
  interval_cases i <;> (revert acc b; decide)

/-- Shifting a bit in puts it after the bits already there. -/
theorem bitsMsbFirst_shiftIn (acc : Byte) (b : Bool) (n : Nat) (h : n ≤ 7) :
    bitsMsbFirst (shiftIn acc b) (n + 1) = bitsMsbFirst acc n ++ [b] := by
  induction n with
  | zero => simpa only [bitsMsbFirst, List.nil_append, List.cons.injEq, and_true] using shiftIn_getLsbD_zero acc b
  | succ n ih =>
    rw [bitsMsbFirst, ih (by omega), shiftIn_getLsbD_succ acc b n (by omega)]
    rfl

/-- PutBit where the byte is not completed, or OUT takes it. -/
theorem putBit_ok {s : State} (b : Bool) (h : s.bo.cnt = 7 → outAccepts s.outp = true) :
    ∃ t, putBit b s = .ok () t ∧ PackStep s t ∧ writtenBits t = writtenBits s ++ [b] ∧
      t.bo.cnt = s.bo.cnt + 1 ∧
      t.outp.bytes.length = s.outp.bytes.length + (s.bo.cnt.toNat + 1) / 8 := by
  by_cases full : s.bo.cnt = 7
  · have e : putBit b s = .ok () ((s.withOutp { s.outp with bytes := s.outp.bytes ++ [shiftIn s.bo.acc b] }).withBo
        { s.bo with acc := 0, cnt := 0 }) := by
      simp [putBit, full, outWrite_of_accepts (h full)]
    refine ⟨_, e, by simpa [e] using putBit_packStep b s, ?_, by simp [full], by simp [full]⟩
    have bits := bitsMsbFirst_shiftIn s.bo.acc b 7 (by omega)
    simp [writtenBits, full, bitsMsbFirst, byteBits] at bits ⊢
    exact bits
  · have e : putBit b s = .ok () (s.withBo { s.bo with acc := shiftIn s.bo.acc b, cnt := s.bo.cnt + 1 }) :=
      if_neg full
    have small : s.bo.cnt.toNat < 7 := by
      have := s.bo.cnt.isLt
      have ne : s.bo.cnt.toNat ≠ 7 := fun h7 => full (BitVec.eq_of_toNat_eq (by simpa using h7))
      omega
    have next : (s.bo.cnt + 1).toNat = s.bo.cnt.toNat + 1 := by
      rw [BitVec.toNat_add]; simp; omega
    refine ⟨_, e, by simpa [e] using putBit_packStep b s, ?_, rfl, ?_⟩
    · have next' : (s.bo.cnt + 1#3).toNat = s.bo.cnt.toNat + 1 := next
      simp [writtenBits, next', bitsMsbFirst_shiftIn s.bo.acc b s.bo.cnt.toNat (by omega)]
    · simp; omega

/-- PutBit where the byte is completed and OUT refuses it: nothing has happened (R150, R153). -/
theorem putBit_refused {s : State} (b : Bool) (full : s.bo.cnt = 7) (h : outAccepts s.outp = false) :
    putBit b s = .raise .ioWrite 0 s := by
  simp [putBit, full, outWrite_of_refuses h]

/-! ## Reading -/

theorem unreadBits_of_rem_zero {s : State} (h : s.bi.rem = 0) :
    unreadBits s = if s.bi.eos then [] else (s.inp.bytes.drop s.inp.pos).flatMap byteBits := by
  simp [unreadBits, h, bitsMsbFirst]

/-- GetBit with a bit unread gives the first of them. -/
theorem getBit_some {s : State} {b : Bool} {rest : List Bool} (h : unreadBits s = b :: rest) :
    ∃ t, getBit s = .ok (some b) t ∧ UnpackStep s t ∧ unreadBits t = rest ∧ t.bi.eos = s.bi.eos := by
  obtain ⟨hr, e⟩ | ⟨hr, he, e⟩ | ⟨hr, he, v, hv, e⟩ | ⟨hr, he, hv, hend, e⟩ | ⟨hr, he, hv, hend, e⟩ :=
    getBit_cases s
  · have step := getBit_unpackStep s
    rw [e] at step
    have rem : s.bi.rem.toNat = (s.bi.rem - 1).toNat + 1 := by
      have ne : s.bi.rem.toNat ≠ 0 := fun h0 => hr (BitVec.eq_of_toNat_eq (by simpa using h0))
      rw [BitVec.toNat_sub]; simp; omega
    have bits : bitsMsbFirst s.bi.buf s.bi.rem.toNat =
        s.bi.buf.getLsbD (s.bi.rem - 1).toNat :: bitsMsbFirst s.bi.buf (s.bi.rem - 1).toNat := by
      rw [rem]; rfl
    have split : unreadBits s = s.bi.buf.getLsbD (s.bi.rem - 1).toNat ::
        (bitsMsbFirst s.bi.buf (s.bi.rem - 1).toNat ++
          if s.bi.eos then [] else (s.inp.bytes.drop s.inp.pos).flatMap byteBits) := by
      rw [unreadBits, bits]; rfl
    rw [split] at h
    obtain ⟨rfl, rfl⟩ := List.cons.inj h
    exact ⟨_, e, step, rfl, rfl⟩
  · simp [unreadBits_of_rem_zero hr, he] at h
  · have step := getBit_unpackStep s
    rw [e] at step
    have drop : s.inp.bytes.drop s.inp.pos = v :: s.inp.bytes.drop (s.inp.pos + 1) := by
      obtain ⟨lt, eq⟩ := List.getElem?_eq_some_iff.mp hv
      rw [← eq]; exact List.drop_eq_getElem_cons lt
    have split : unreadBits s = v.getLsbD 7 ::
        (bitsMsbFirst v 7 ++ (s.inp.bytes.drop (s.inp.pos + 1)).flatMap byteBits) := by
      simp [unreadBits_of_rem_zero hr, he, drop, byteBits, bitsMsbFirst]
    rw [split] at h
    obtain ⟨rfl, rfl⟩ := List.cons.inj h
    exact ⟨_, e, step, by simp [unreadBits, he], rfl⟩
  · have past : s.inp.bytes.length ≤ s.inp.pos := List.getElem?_eq_none_iff.mp hv
    simp [unreadBits_of_rem_zero hr, he, List.drop_eq_nil_of_le past] at h
  · have past : s.inp.bytes.length ≤ s.inp.pos := List.getElem?_eq_none_iff.mp hv
    simp [unreadBits_of_rem_zero hr, he, List.drop_eq_nil_of_le past] at h

/-- With nothing unread, BI_REM is 0. -/
theorem rem_eq_zero_of_unread_nil {s : State} (h : unreadBits s = []) : s.bi.rem = 0 := by
  have len := congrArg List.length h
  simp [unreadBits] at len
  exact BitVec.eq_of_toNat_eq (by simpa using len.1)

/-- GetBit with nothing unread and a clean end gives the end-of-stream marker. -/
theorem getBit_none {s : State} (h : unreadBits s = []) (clean : EndsClean s) :
    getBit s = .ok none (s.withBi { s.bi with eos := true }) := by
  have hr := rem_eq_zero_of_unread_nil h
  obtain ⟨hr', e⟩ | ⟨-, he, e⟩ | ⟨-, he, v, hv, e⟩ | ⟨-, -, -, -, e⟩ | ⟨-, he, hv, hend, e⟩ := getBit_cases s
  · exact absurd hr hr'
  · rw [e]
    have same : s.bi = { s.bi with eos := true } := by rw [← he]
    rw [← same]; rfl
  · obtain ⟨lt, eq⟩ := List.getElem?_eq_some_iff.mp hv
    have len := congrArg List.length h
    simp [unreadBits_of_rem_zero hr, he, List.length_flatMap] at len
    omega
  · exact e
  · rcases clean with c | c
    · simp [he] at c
    · simp [hend] at c

/-- GetBit with nothing unread and an I/O error at the end raises E_IO_READ (R151). -/
theorem getBit_raises {s : State} (h : unreadBits s = []) (unclean : ¬ EndsClean s) :
    getBit s = .raise .ioRead 0 s := by
  have hr := rem_eq_zero_of_unread_nil h
  obtain ⟨hr', e⟩ | ⟨-, he, e⟩ | ⟨-, he, v, hv, e⟩ | ⟨-, -, -, hend, e⟩ | ⟨-, -, -, -, e⟩ := getBit_cases s
  · exact absurd hr hr'
  · exact absurd (.inl he) unclean
  · obtain ⟨lt, eq⟩ := List.getElem?_eq_some_iff.mp hv
    have len := congrArg List.length h
    simp [unreadBits_of_rem_zero hr, he, List.length_flatMap] at len
    omega
  · exact absurd (.inr hend) unclean
  · exact e

end Sys2Proof.Machine
end

