-- ==== Sys2Proof/Laws/Builder.lean ====
section
/-! SUPPORT. The tree builder (spec/42_frequency.md R173, R178): the arena FBUILD leaves stands for one binary tree
whose leaves are the 322 symbols, each once. -/

namespace Sys2Proof.Machine

/-! ## The tree an arena node stands for -/

/-- Node `n` of the arena is the root of the tree. -/
def Stands (t : HuffTree) : Nat → CodeTree → Prop
  | _, .empty => False
  | n, .leaf sym => n = sym ∧ sym < 322
  | n, .node l r => 322 ≤ n ∧ Stands t (t.leftOf n) l ∧ Stands t (t.rightOf n) r

/-- The symbols at a tree's leaves, left to right. -/
def CodeTree.leaves : CodeTree → List Nat
  | .empty => []
  | .leaf sym => [sym]
  | .node l r => l.leaves ++ r.leaves

/-- The number of levels below a tree's root. -/
def CodeTree.height : CodeTree → Nat
  | .empty => 0
  | .leaf _ => 0
  | .node l r => max l.height r.height + 1

/-- Each leaf's symbol with its depth, the root at depth `d`. -/
def CodeTree.depthsFrom : CodeTree → Nat → List (Nat × Nat)
  | .empty, _ => []
  | .leaf sym, d => [(sym, d)]
  | .node l r, d => l.depthsFrom (d + 1) ++ r.depthsFrom (d + 1)

theorem leafDepths_of_stands {t : HuffTree} {T : CodeTree} {n : Nat} (h : Stands t n T) (fuel d : Nat)
    (enough : T.height < fuel) : leafDepths t fuel n d = T.depthsFrom d := by
  induction T generalizing n fuel d with
  | empty => exact h.elim
  | leaf sym =>
    obtain ⟨rfl, lt⟩ := h
    obtain ⟨fuel, rfl⟩ := Nat.exists_eq_succ_of_ne_zero (Nat.ne_of_gt enough)
    simp [leafDepths, lt, CodeTree.depthsFrom]
  | node l r ihl ihr =>
    obtain ⟨ge, hl, hr⟩ := h
    obtain ⟨fuel, rfl⟩ := Nat.exists_eq_succ_of_ne_zero (Nat.ne_of_gt (Nat.lt_of_le_of_lt (Nat.zero_le _) enough))
    simp only [CodeTree.height] at enough
    simp only [leafDepths, if_neg (Nat.not_lt.mpr ge), CodeTree.depthsFrom]
    rw [ihl hl fuel (d + 1) (by omega), ihr hr fuel (d + 1) (by omega)]

theorem CodeTree.depthsFrom_symbols (T : CodeTree) (d : Nat) : (T.depthsFrom d).map (·.1) = T.leaves := by
  induction T generalizing d with
  | empty => rfl
  | leaf sym => rfl
  | node l r ihl ihr => simp [CodeTree.depthsFrom, CodeTree.leaves, ihl, ihr]

theorem Stands.leaves_pos {t : HuffTree} {T : CodeTree} {n : Nat} (h : Stands t n T) : 0 < T.leaves.length := by
  induction T generalizing n with
  | empty => exact h.elim
  | leaf sym => simp [CodeTree.leaves]
  | node l r ihl ihr =>
    obtain ⟨-, hl, hr⟩ := h
    have := ihl hl
    simp [CodeTree.leaves]; omega

theorem Stands.height_lt {t : HuffTree} {T : CodeTree} {n : Nat} (h : Stands t n T) :
    T.height < T.leaves.length := by
  induction T generalizing n with
  | empty => exact h.elim
  | leaf sym => simp [CodeTree.leaves, CodeTree.height]
  | node l r ihl ihr =>
    obtain ⟨-, hl, hr⟩ := h
    have := ihl hl
    have := ihr hr
    have := hl.leaves_pos
    have := hr.leaves_pos
    simp only [CodeTree.leaves, CodeTree.height, List.length_append]; omega

theorem CodeTree.depthsFrom_bounds {T : CodeTree} {d : Nat} {x : Nat × Nat} (h : x ∈ T.depthsFrom d) :
    d ≤ x.2 ∧ x.2 ≤ d + T.height := by
  induction T generalizing d with
  | empty => simp [CodeTree.depthsFrom] at h
  | leaf sym => simp [CodeTree.depthsFrom] at h; simp [h, CodeTree.height]
  | node l r ihl ihr =>
    simp only [CodeTree.depthsFrom, List.mem_append] at h
    rcases h with h | h
    · have := ihl h; simp only [CodeTree.height]; omega
    · have := ihr h; simp only [CodeTree.height]; omega

/-- The Kraft equality of a full binary tree (R178). -/
theorem Stands.kraft {t : HuffTree} {T : CodeTree} {n : Nat} (h : Stands t n T) (D d : Nat)
    (deep : d + T.height ≤ D) : ((T.depthsFrom d).map fun x => 2 ^ (D - x.2)).sum = 2 ^ (D - d) := by
  induction T generalizing n d with
  | empty => exact h.elim
  | leaf sym => simp [CodeTree.depthsFrom]
  | node l r ihl ihr =>
    obtain ⟨-, hl, hr⟩ := h
    simp only [CodeTree.height] at deep
    simp only [CodeTree.depthsFrom, List.map_append, List.sum_append]
    rw [ihl hl (d + 1) (by omega), ihr hr (d + 1) (by omega)]
    have : D - d = D - (d + 1) + 1 := by omega
    rw [this, pow_succ]; omega

/-! ## The merge loop -/

theorem foldl_lesserKey_mem (xs : List PoolKey) (x : PoolKey) : xs.foldl lesserKey x ∈ x :: xs := by
  induction xs generalizing x with
  | nil => simp
  | cons y ys ih =>
    have := ih (lesserKey x y)
    simp only [List.foldl_cons, List.mem_cons] at this ⊢
    rcases this with h | h
    · rw [h]; unfold lesserKey; split <;> simp
    · exact .inr (.inr h)

theorem removeLeast_perm {pool rest : List PoolKey} {a : PoolKey} (h : removeLeast pool = some (a, rest)) :
    pool.Perm (a :: rest) := by
  cases pool with
  | nil => simp [removeLeast] at h
  | cons x xs =>
    simp only [removeLeast, Option.some.injEq, Prod.mk.injEq] at h
    obtain ⟨rfl, rfl⟩ := h
    exact List.perm_cons_erase (foldl_lesserKey_mem xs x)

theorem removeLeast_cons (x : PoolKey) (xs : List PoolKey) : ∃ a rest, removeLeast (x :: xs) = some (a, rest) :=
  ⟨_, _, rfl⟩

/-- One merge: with two members in the pool the loop creates node `n` from two of them and goes on. -/
theorem mergeLoop_succ {fuel n : Nat} {pool : List PoolKey} (two : 2 ≤ pool.length) :
    ∃ a b rest, pool.Perm (a :: b :: rest) ∧
      removeLeast pool = some (a, (pool.erase a)) ∧ removeLeast (pool.erase a) = some (b, rest) ∧
      mergeLoop (fuel + 1) n pool =
        ⟨a.2, b.2, a.1 + b.1⟩ :: mergeLoop fuel (n + 1) (rest ++ [(a.1 + b.1, n)]) := by
  match pool, two with
  | x :: xs, two =>
    obtain ⟨a, rest₁, h₁⟩ := removeLeast_cons x xs
    have p₁ := removeLeast_perm h₁
    have e₁ : rest₁ = (x :: xs).erase a := by
      simp only [removeLeast, Option.some.injEq, Prod.mk.injEq] at h₁
      rw [← h₁.2, h₁.1]
    have len : xs.length + 1 = rest₁.length + 1 := by simpa using p₁.length_eq
    have two : 2 ≤ xs.length + 1 := by simpa using two
    cases rest₁ with
    | nil => rw [List.length_nil] at len; omega
    | cons y ys =>
      obtain ⟨b, rest₂, h₂⟩ := removeLeast_cons y ys
      refine ⟨a, b, rest₂, p₁.trans ((removeLeast_perm h₂).cons a), e₁ ▸ h₁, e₁ ▸ h₂, ?_⟩
      simp only [mergeLoop, h₁, h₂]

/-- The merge loop builds one tree out of those its pool stands for. -/
theorem mergeLoop_stands (t : HuffTree) (fuel n : Nat) (pool : List PoolKey) (T : Nat → CodeTree)
    (arena : ∀ j m, (mergeLoop fuel n pool)[j]? = some m → t.leftOf (n + j) = m.left ∧ t.rightOf (n + j) = m.right)
    (internal : 322 ≤ n) (size : pool.length = fuel + 1) (below : ∀ p ∈ pool, p.2 < n)
    (stands : ∀ p ∈ pool, Stands t p.2 (T p.2)) :
    ∃ root R, Stands t root R ∧ R.leaves.Perm (pool.flatMap fun p => (T p.2).leaves) ∧
      (fuel = 0 → ∃ w, pool = [(w, root)]) ∧ (fuel ≠ 0 → root = n + fuel - 1) := by
  induction fuel generalizing n pool T with
  | zero =>
    match pool, size with
    | [p], _ => exact ⟨p.2, T p.2, stands p (by simp), by simp, fun _ => ⟨p.1, rfl⟩, fun h => absurd rfl h⟩
  | succ fuel ih =>
    obtain ⟨a, b, rest, perm, -, -, loop⟩ := mergeLoop_succ (fuel := fuel) (n := n) (pool := pool) (by omega)
    have inPool : ∀ p ∈ a :: b :: rest, p ∈ pool := fun p hp => perm.mem_iff.mpr hp
    let T' : Nat → CodeTree := fun m => if m = n then .node (T a.2) (T b.2) else T m
    have old : ∀ p ∈ pool, T' p.2 = T p.2 := fun p hp => if_neg (Nat.ne_of_lt (below p hp))
    have len := perm.length_eq
    obtain ⟨root, R, hR, leaves, zero, succ⟩ := ih (n + 1) (rest ++ [(a.1 + b.1, n)]) T'
      (fun j m hj => by
        have := arena (j + 1) m (by rw [loop]; simpa using hj)
        rwa [show n + (j + 1) = n + 1 + j by omega] at this)
      (by omega) (by simp at len ⊢; omega)
      (fun p hp => by
        rcases List.mem_append.mp hp with hp | hp
        · exact Nat.lt_succ_of_lt (below p (inPool p (by simp [hp])))
        · simp at hp; simp [hp])
      (fun p hp => by
        rcases List.mem_append.mp hp with hp | hp
        · have mem := inPool p (by simp [hp])
          rw [old p mem]; exact stands p mem
        · obtain rfl : p = (a.1 + b.1, n) := by simpa using hp
          obtain ⟨hl, hr⟩ := arena 0 ⟨a.2, b.2, a.1 + b.1⟩ (by simp [loop])
          simp only [Nat.add_zero] at hl hr
          simp only [T', if_true, Stands]
          rw [hl, hr]
          exact ⟨internal, stands a (inPool a (by simp)), stands b (inPool b (by simp))⟩)
    refine ⟨root, R, hR, leaves.trans ?_, fun h => by omega, fun _ => ?_⟩
    · refine List.Perm.trans ?_ (perm.flatMap_right _).symm
      have keep : (rest.flatMap fun p => (T' p.2).leaves) = rest.flatMap fun p => (T p.2).leaves := by
        refine List.flatMap_congr fun p hp => ?_
        rw [old p (inPool p (by simp [hp]))]
      simp only [List.flatMap_append, keep, List.flatMap_cons, List.flatMap_nil, List.append_nil, T', if_true,
        CodeTree.leaves]
      exact List.perm_append_comm.trans (by rw [List.append_assoc])
    · by_cases f0 : fuel = 0
      · obtain ⟨w, hw⟩ := zero f0
        subst f0
        have : rest = [] := List.eq_nil_of_length_eq_zero (by simp at len; omega)
        simp only [this, List.nil_append, List.cons.injEq, Prod.mk.injEq, and_true] at hw
        omega
      · have := succ f0; omega

/-! ## The arena FBUILD leaves -/

theorem tableOf_getElem? {α : Type} (n : Nat) (d : α) (l : List α) (i : Nat) (h : i < n) (hl : i < l.length) :
    (tableOf n d l)[i]? = l[i]? := by
  rw [Vector.getElem?_eq_getElem h, List.getElem?_eq_getElem hl]
  simp [tableOf, hl, h]

theorem mergeLoop_length (fuel n : Nat) (pool : List PoolKey) (size : pool.length = fuel + 1) :
    (mergeLoop fuel n pool).length = fuel := by
  induction fuel generalizing n pool with
  | zero => rfl
  | succ fuel ih =>
    obtain ⟨a, b, rest, perm, -, -, loop⟩ := mergeLoop_succ (fuel := fuel) (n := n) (pool := pool) (by omega)
    have len := perm.length_eq
    rw [loop, List.length_cons, ih (n + 1) _ (by simp at len ⊢; omega)]

/-- Every child of a merge is an older node. -/
theorem mergeLoop_older (fuel n : Nat) (pool : List PoolKey) (size : pool.length = fuel + 1)
    (below : ∀ p ∈ pool, p.2 < n) (j : Nat) (m : Merge) (h : (mergeLoop fuel n pool)[j]? = some m) :
    m.left < n + j ∧ m.right < n + j := by
  induction fuel generalizing n pool j with
  | zero => simp [mergeLoop] at h
  | succ fuel ih =>
    obtain ⟨a, b, rest, perm, -, -, loop⟩ := mergeLoop_succ (fuel := fuel) (n := n) (pool := pool) (by omega)
    have len := perm.length_eq
    have inPool : ∀ p ∈ a :: b :: rest, p ∈ pool := fun p hp => perm.mem_iff.mpr hp
    rw [loop] at h
    cases j with
    | zero =>
      obtain rfl := Option.some.inj (by simpa using h)
      exact ⟨below a (inPool a (by simp)), below b (inPool b (by simp))⟩
    | succ j =>
      have := ih (n + 1) (rest ++ [(a.1 + b.1, n)]) (by simp at len ⊢; omega) (fun p hp => by
        rcases List.mem_append.mp hp with hp | hp
        · exact Nat.lt_succ_of_lt (below p (inPool p (by simp [hp])))
        · simp at hp; simp [hp]) j (by simpa using h)
      omega

theorem leafPool_length (freq : Vector (BitVec 32) 322) : (leafPool freq).length = 322 := by simp [leafPool]

theorem merges_length (freq : Vector (BitVec 32) 322) : (merges freq).length = 321 :=
  mergeLoop_length 321 322 _ (leafPool_length freq)

theorem leafPool_below (freq : Vector (BitVec 32) 322) : ∀ p ∈ leafPool freq, p.2 < 322 := by
  intro p hp
  obtain ⟨i, hi, rfl⟩ := List.mem_map.mp hp
  simpa using hi

/-- HL and HR of the arena are the merges' children: no index is lost in 10 bits. -/
theorem buildTree_children (freq : Vector (BitVec 32) 322) (j : Nat) (m : Merge) (h : (merges freq)[j]? = some m) :
    (buildTree freq).leftOf (322 + j) = m.left ∧ (buildTree freq).rightOf (322 + j) = m.right := by
  have lt : j < 321 := by
    have := (List.getElem?_eq_some_iff.mp h).1
    rwa [merges_length] at this
  have old := mergeLoop_older 321 322 _ (leafPool_length freq) (leafPool_below freq) j m h
  have left := tableOf_getElem? 321 0 ((merges freq).map fun m => BitVec.ofNat 10 m.left) j lt
    (by simp [merges_length, lt])
  have right := tableOf_getElem? 321 0 ((merges freq).map fun m => BitVec.ofNat 10 m.right) j lt
    (by simp [merges_length, lt])
  rw [List.getElem?_map, h] at left right
  constructor
  · simp only [HuffTree.leftOf, buildTree, Nat.add_sub_cancel_left, left, Option.map_some, Option.getD_some,
      BitVec.toNat_ofNat]
    omega
  · simp only [HuffTree.rightOf, buildTree, Nat.add_sub_cancel_left, right, Option.map_some, Option.getD_some,
      BitVec.toNat_ofNat]
    omega

/-- The arena FBUILD leaves stands, from its root 642, for one tree with every symbol at one leaf. -/
theorem buildTree_stands (freq : Vector (BitVec 32) 322) :
    ∃ T, Stands (buildTree freq) 642 T ∧ T.leaves.Perm (List.range 322) := by
  obtain ⟨root, R, hR, leaves, -, root_eq⟩ := mergeLoop_stands (buildTree freq) 321 322 (leafPool freq) .leaf
    (buildTree_children freq) (by omega) (leafPool_length freq) (leafPool_below freq)
    (fun p hp => ⟨rfl, leafPool_below freq p hp⟩)
  obtain rfl := root_eq (by omega)
  refine ⟨R, hR, leaves.trans ?_⟩
  simp [leafPool, List.flatMap_map, CodeTree.leaves]

end Sys2Proof.Machine
end

