-- ==== Sys2Proof/Laws/Coder.lean ====
section
/-! SUPPORT. What EncSym, DecSym, the escape transform, HDRW and HDRR touch. -/

namespace Sys2Proof.Machine

/-! ## Encoding: only the packer and OUT -/

theorem encSym_packStep (sym : Nat) (s : State) : PackStep s (encSym sym s).final := by
  unfold encSym
  split
  · exact PackStep.refl s
  · exact putBitList_packStep _ s

theorem writeLengths_packStep (syms : List Nat) (s : State) : PackStep s (writeLengths syms s).final := by
  induction syms generalizing s with
  | nil => exact PackStep.refl s
  | cons sym syms ih => exact Run.final_andThen PackStep.trans (putBitList_packStep _ s) fun _ t _ => ih t

theorem emitAll_encoding_packStep (syms : List Nat) (s : State) :
    PackStep s (emitAll .encoding syms s).final := by
  induction syms generalizing s with
  | nil => exact PackStep.refl s
  | cons sym syms ih => exact Run.final_andThen PackStep.trans (encSym_packStep sym s) fun _ t _ => ih t

theorem emitSymbolBytes_packStep (sym : Nat) (s : State) : PackStep s (emitSymbolBytes sym s).final := by
  unfold emitSymbolBytes
  split
  · exact outWrite_packStep _ s
  · split
    · exact PackStep.refl s
    · exact outZeros_packStep _ s

/-- Symbols that have codes are sent as their codes, one after the other, before the rest. -/
theorem emitAll_encoding_append {syms rest : List Nat} {s : State} (coded : ∀ sym ∈ syms, s.lenAt sym ≠ 0) :
    emitAll .encoding (syms ++ rest) s =
      (putBitList (codesOf s syms) s).andThen fun _ t => emitAll .encoding rest t := by
  induction syms generalizing s with
  | nil => rfl
  | cons sym syms ih =>
    have send : emit .encoding sym s = putBitList (codeBits s.cn.len s.cn.code sym) s := by
      show encSym sym s = _
      rw [encSym, if_neg (coded sym (by simp))]
      rfl
    have code : codesOf s (sym :: syms) = codeBits s.cn.len s.cn.code sym ++ codesOf s syms := rfl
    rw [code, putBitList_append, List.cons_append, emitAll, send, Run.andThen_assoc]
    have packs := putBitList_packStep (codeBits s.cn.len s.cn.code sym) s
    cases h : putBitList (codeBits s.cn.len s.cn.code sym) s with
    | raise c p t => rfl
    | ok u t =>
      rw [h] at packs
      obtain ⟨p, added, -, rfl : t = _⟩ := packs
      exact ih fun x hx => coded x (by simp [hx])

/-- A symbol without a code raises E_NO_CODE before anything of it is sent (spec/45_huffman.md R240). -/
theorem encSym_of_bare {sym : Nat} {s : State} (bare : s.lenAt sym = 0) :
    encSym sym s = .raise .noCode (BitVec.ofNat 24 sym) s := if_pos bare

/-- XSYM's body where OUT refuses a byte: those before it stand (spec/44_escape.md R227). -/
theorem emitSymbolBytes_refused {sym : Nat} {s : State} (full : ¬ OutRoom (symbolBytes sym).length s) :
    emitSymbolBytes sym s = .raise .ioWrite 0
      (s.withOutp { s.outp with bytes := s.outp.bytes ++ (symbolBytes sym).take (outLeft s) }) := by
  unfold OutRoom at full
  cases limit : s.outp.limit with
  | none => simp [limit] at full
  | some lim =>
    simp only [limit] at full
    by_cases literal : sym ≤ 255
    · simp only [symbolBytes, literal, if_true, List.length_singleton] at full
      have refuses : outAccepts s.outp = false := by
        simp only [outAccepts, limit, decide_eq_false_iff_not]
        omega
      have left : outLeft s = 0 := by
        simp only [outLeft, limit, Option.getD_some]
        omega
      rw [emitSymbolBytes, if_pos literal, outWrite_of_refuses refuses, left]
      simp [State.withOutp]
    · by_cases eof : sym = 256
      · simp [symbolBytes, eof] at full
      · simp only [symbolBytes, literal, eof, if_false, List.length_replicate] at full
        have pos := Nat.two_pow_pos (sym - 256)
        rw [emitSymbolBytes, if_neg literal, if_neg eof]
        simp only [outZeros, limit]
        rw [if_neg (by omega)]
        simp [State.withOutp, outLeft, limit, symbolBytes, literal, eof]
        omega

/-! ## Counting: only FREQ and HT_VALID, which it can only clear -/

/-- Only FREQ and HT_VALID differ: HT_VALID is cleared, or nothing has changed. -/
def CountStep (s t : State) : Prop :=
  t = s ∨ ∃ f, t = s.withFq { freq := f, ht := s.fq.ht, valid := false }

theorem CountStep.trans {a b c : State} (h₁ : CountStep a b) (h₂ : CountStep b c) : CountStep a c := by
  obtain rfl | ⟨f, rfl⟩ := h₁
  · exact h₂
  · obtain rfl | ⟨g, rfl⟩ := h₂
    · exact .inr ⟨f, rfl⟩
    · exact .inr ⟨g, rfl⟩

/-- A full counter raises and nothing is counted (spec/42_frequency.md R170). -/
theorem incFreq_of_full {sym : Nat} {s : State} (full : s.freqAt sym = 0xFFFFFFFF) :
    incFreq sym s = .raise .freqOvf (BitVec.ofNat 24 sym) s := if_pos full

theorem incFreq_of_room {sym : Nat} {s : State} (room : s.freqAt sym ≠ 0xFFFFFFFF) :
    incFreq sym s = .ok () ((s.setFreq sym (s.freqAt sym + 1)).setHtValid false) := if_neg room

theorem State.setFreq_freqAt {sym : Nat} (s : State) (v : BitVec 32) (other : Nat) (h : sym < 322) :
    (s.setFreq sym v).freqAt other = if sym = other then v else s.freqAt other := by
  simp only [State.setFreq, State.freqAt, State.withFq_fq, Vector.getElem?_setIfInBounds, h]
  split <;> rfl

theorem incFreq_countStep (sym : Nat) (s : State) : CountStep s (incFreq sym s).final := by
  unfold incFreq
  split
  · exact .inl rfl
  · exact .inr ⟨_, rfl⟩

theorem emitAll_counting_countStep (syms : List Nat) (s : State) :
    CountStep s (emitAll .counting syms s).final := by
  induction syms generalizing s with
  | nil => exact .inl rfl
  | cons sym syms ih => exact Run.final_andThen CountStep.trans (incFreq_countStep sym s) fun _ t _ => ih t

/-! ## The escape transform -/

/-- What a command of pass `m` touches besides ESC_CNT, ESC_MODE and RUN. -/
def EmitStep : Pass → State → State → Prop
  | .counting => CountStep
  | .encoding => PackStep

theorem EmitStep.refl (m : Pass) (s : State) : EmitStep m s s := by
  cases m
  · exact .inl rfl
  · exact PackStep.refl s

theorem EmitStep.trans {m : Pass} {a b c : State} (h₁ : EmitStep m a b) (h₂ : EmitStep m b c) :
    EmitStep m a c := by
  cases m
  · exact CountStep.trans h₁ h₂
  · exact PackStep.trans h₁ h₂

theorem emit_emitStep (m : Pass) (sym : Nat) (s : State) : EmitStep m s (emit m sym s).final := by
  cases m
  · exact incFreq_countStep sym s
  · exact encSym_packStep sym s

theorem emitAll_emitStep (m : Pass) (syms : List Nat) (s : State) : EmitStep m s (emitAll m syms s).final := by
  cases m
  · exact emitAll_counting_countStep syms s
  · exact emitAll_encoding_packStep syms s

/-- Everything the flush of a pending run can do. -/
theorem flushPending_cases (m : Pass) (s : State) :
    (s.esc.counting = false ∧ flushPending m s = .ok () s) ∨
    (s.esc.counting = true ∧ flushPending m s = emitAll m (flushSymbols s.esc.run) (s.withEsc .idle)) := by
  cases h : s.esc.counting <;> simp [flushPending, flush, h]

/-- What the escape transform can do: the run counter goes on, or it is left as it is or cleared, and then
symbols are emitted. -/
def EscapeStep (m : Pass) (s t : State) : Prop :=
  (∃ r, r ≠ 0 ∧ t = s.withEsc { counting := true, mode := if s.esc.counting then s.esc.mode else m, run := r }) ∨
  EmitStep m s t ∨ EmitStep m (s.withEsc .idle) t

theorem flushPending_escapeStep (m : Pass) (s : State) : EscapeStep m s (flushPending m s).final := by
  obtain ⟨-, h⟩ | ⟨-, h⟩ := flushPending_cases m s
  · exact .inr (.inl (by simpa [h] using EmitStep.refl m s))
  · exact .inr (.inr (by simpa [h] using emitAll_emitStep m _ (s.withEsc .idle)))

theorem countZero_escapeStep (m : Pass) (s : State) : EscapeStep m s (countZero m s).final := by
  unfold countZero
  split
  · rename_i hc
    split
    · exact .inr (.inl (EmitStep.refl m s))
    · rename_i hr
      refine .inl ⟨s.esc.run + 1, ?_, ?_⟩
      · intro h0
        apply hr
        have := congrArg (· - 1) h0
        simpa using this
      · simp [hc]
  · rename_i hc
    exact .inl ⟨1, by decide, by simp [hc]⟩

theorem escByte_escapeStep (v : Byte) (m : Pass) (s : State) : EscapeStep m s (escByte v m s).final := by
  unfold escByte
  split
  · exact countZero_escapeStep m s
  · obtain ⟨-, h⟩ | ⟨-, h⟩ := flushPending_cases m s
    · exact .inr (.inl (by simpa [h] using emit_emitStep m v.toNat s))
    · refine .inr (.inr ?_)
      rw [h]
      exact Run.final_andThen EmitStep.trans (emitAll_emitStep m _ _) fun _ t _ => emit_emitStep m v.toNat t

/-! ## Decoding -/

theorem decLoop_unpackStep (fuel : Nat) (n : CodeTree) (k : Nat) (s : State) :
    UnpackStep s (decLoop fuel n k s).final := by
  induction fuel generalizing n k s with
  | zero => exact UnpackStep.refl s
  | succ fuel ih =>
    refine Run.final_andThen UnpackStep.trans (getBit_unpackStep s) fun r t _ => ?_
    cases r with
    | none => exact UnpackStep.refl t
    | some b =>
      dsimp only
      split
      · exact UnpackStep.refl t
      · exact ih _ _ t

/-- Everything DecSym can do: a symbol is noted, or an error is raised with RES and DEC_EOF as before. -/
theorem decSym_cases (s : State) :
    (∃ sym t, UnpackStep s t ∧ decSym s = .ok sym (noteSymbol sym t)) ∨
    (∃ c p t, UnpackStep s t ∧ decSym s = .raise c p t) := by
  have step := decLoop_unpackStep (bitsLeft s + 1) s.cn.ct 0 s
  unfold decSym
  cases h : decLoop (bitsLeft s + 1) s.cn.ct 0 s with
  | ok sym t => exact .inl ⟨sym, t, by simpa [h] using step, rfl⟩
  | raise c p t => exact .inr ⟨c, p, t, by simpa [h] using step, rfl⟩

/-! ## The header -/

theorem readLength_unpackStep (sym m : Nat) (v : Byte) (s : State) :
    UnpackStep s (readLength sym m v s).final := by
  induction m generalizing v s with
  | zero => exact UnpackStep.refl s
  | succ m ih =>
    refine Run.final_andThen UnpackStep.trans (getBit_unpackStep s) fun r t _ => ?_
    cases r with
    | none => exact UnpackStep.refl t
    | some b => exact ih _ t

/-- Only the unpacker, the IN position and LEN differ. -/
def HeaderStep (s t : State) : Prop := ∃ l, UnpackStep (s.withCn { s.cn with len := l }) t

theorem HeaderStep.trans {a b c : State} (h₁ : HeaderStep a b) (h₂ : HeaderStep b c) : HeaderStep a c := by
  obtain ⟨l, u, m, hu, rfl⟩ := h₁
  obtain ⟨l', v, n, hv, rfl⟩ := h₂
  refine ⟨l', v, m + n, fun h => hv (by simpa using hu (by simpa using h)), ?_⟩
  simp [State.withBi, State.withInp, State.withCn, Nat.add_assoc]

theorem readLengths_headerStep (syms : List Nat) (s : State) : HeaderStep s (readLengths syms s).final := by
  induction syms generalizing s with
  | nil => exact ⟨s.cn.len, UnpackStep.refl s⟩
  | cons sym syms ih =>
    refine Run.final_andThen HeaderStep.trans ⟨s.cn.len, readLength_unpackStep sym 8 0 s⟩ fun v t _ => ?_
    exact HeaderStep.trans ⟨t.cn.len.setIfInBounds sym v, UnpackStep.refl _⟩ (ih _)

/-- CheckComplete writes nothing. -/
@[simp] theorem checkComplete_final (s : State) : (checkComplete s).final = s := by
  unfold checkComplete; split <;> [rfl; (split <;> rfl)]

/-- CheckComplete passes exactly on a complete table (spec/43_canonical.md R193). -/
theorem checkComplete_eq_ok {s t : State} {u : Unit} :
    checkComplete s = .ok u t ↔ t = s ∧ kraftSum s.cn.len = 2 ^ 255 := by
  unfold checkComplete
  constructor
  · intro h
    split at h
    · cases h
    · split at h
      · cases h
      · cases h
        exact ⟨rfl, by omega⟩
  · rintro ⟨rfl, h⟩
    rw [if_neg (by omega), if_neg (by omega)]

end Sys2Proof.Machine
end

