-- ==== Sys2Proof/Laws/PerInstr.lean ====
section
/-! SUPPORT. One law per command, as the host splits them: the word of a command carries the command's own opcode
byte in bits 31..24, whatever its operands (spec/30_encoding.md R101). -/

namespace Sys2Proof.Laws

theorem append_toNat {n m : Nat} (a : BitVec n) (b : BitVec m) :
    (a ++ b).toNat = a.toNat * 2 ^ m + b.toNat := by
  rw [BitVec.toNat_append, ← Nat.shiftLeft_add_eq_or_of_lt b.isLt, Nat.shiftLeft_eq]

theorem opcode_byte {w : Word} {o : BitVec 8} {x : BitVec 24} (h : w.toNat = o.toNat * 2 ^ 24 + x.toNat) :
    fieldOpcode w = o := by
  refine BitVec.eq_of_toNat_eq ?_
  rw [fieldOpcode, BitVec.extractLsb'_toNat, h, Nat.shiftRight_eq_div_pow]
  have := o.isLt
  have := x.isLt
  generalize o.toNat = a at *
  generalize x.toNat = b at *
  omega

theorem formatN_opcode (o : BitVec 8) : fieldOpcode (formatN o) = o :=
  opcode_byte (x := 0#24) (by simp only [formatN, BitVec.toNat_cast, append_toNat])

theorem formatB_opcode (o : BitVec 8) (b : Bool) : fieldOpcode (formatB o b) = o :=
  opcode_byte (x := 0#23 ++ BitVec.ofBool b) (by
    simp only [formatB, BitVec.toNat_cast, append_toNat]; ring)

theorem formatS_opcode (o : BitVec 8) (sym : Nat) : fieldOpcode (formatS o sym) = o :=
  opcode_byte (x := 0#15 ++ BitVec.ofNat 9 sym) (by
    simp only [formatS, BitVec.toNat_cast, append_toNat]; ring)

theorem formatY_opcode (o : BitVec 8) (v : Byte) : fieldOpcode (formatY o v) = o :=
  opcode_byte (x := 0#16 ++ v) (by simp only [formatY, BitVec.toNat_cast, append_toNat]; ring)

theorem formatL_opcode (o : BitVec 8) (sym : Nat) (imm : Byte) : fieldOpcode (formatL o sym imm) = o :=
  opcode_byte (x := imm ++ 0#7 ++ BitVec.ofNat 9 sym) (by
    simp only [formatL, BitVec.toNat_cast, append_toNat]; ring)

theorem formatL3_opcode (o : BitVec 8) (sym k : Nat) : fieldOpcode (formatL3 o sym k) = o :=
  opcode_byte (x := 0#5 ++ BitVec.ofNat 3 k ++ 0#7 ++ BitVec.ofNat 9 sym) (by
    simp only [formatL3, BitVec.toNat_cast, append_toNat]; ring)

namespace EncodedOpcode

/-- The word of `i` carries `i`'s opcode. -/
def Statement (i : Instr) : Prop := fieldOpcode (encode i) = i.opcode

theorem nop : Statement .nop := formatN_opcode _
theorem srst : Statement .srst := formatN_opcode _
theorem symlim : Statement .symlim := formatN_opcode _
theorem bwr (b : Bool) : Statement (.bwr b) := formatB_opcode _ _
theorem bfin : Statement .bfin := formatN_opcode _
theorem brd : Statement .brd := formatN_opcode _
theorem brdne : Statement .brdne := formatN_opcode _
theorem fclr : Statement .fclr := formatN_opcode _
theorem finc (s : Nat) : Statement (.finc s) := formatS_opcode _ _
theorem fget (s : Nat) : Statement (.fget s) := formatS_opcode _ _
theorem fbuild : Statement .fbuild := formatN_opcode _
theorem ctree : Statement .ctree := formatN_opcode _
theorem clen : Statement .clen := formatN_opcode _
theorem lset (s : Nat) (i : Byte) : Statement (.lset s i) := formatL_opcode _ _ _
theorem lget (s : Nat) : Statement (.lget s) := formatS_opcode _ _
theorem cget (s : Nat) (k : Nat) : Statement (.cget s k) := formatL3_opcode _ _ _
theorem hdrw : Statement .hdrw := formatN_opcode _
theorem hdrr : Statement .hdrr := formatN_opcode _
theorem cbyte (v : Byte) : Statement (.cbyte v) := formatY_opcode _ _
theorem cend : Statement .cend := formatN_opcode _
theorem ebyte (v : Byte) : Statement (.ebyte v) := formatY_opcode _ _
theorem eend : Statement .eend := formatN_opcode _
theorem xsym (s : Nat) : Statement (.xsym s) := formatS_opcode _ _
theorem henc (s : Nat) : Statement (.henc s) := formatS_opcode _ _
theorem hdec : Statement .hdec := formatN_opcode _
theorem xdec : Statement .xdec := formatN_opcode _

end EncodedOpcode

end Sys2Proof.Laws
end

