-- ==== Sys2Proof/Laws/Tree.lean ====
section
/-! SUPPORT. Paths in a code tree: what inserting one leaf changes, and where a set of prefix-free paths leads
(spec/43_canonical.md R195). -/

namespace Sys2Proof.Machine

@[simp] theorem CodeTree.follow_nil (t : CodeTree) : t.follow [] = t := rfl

@[simp] theorem CodeTree.follow_cons (t : CodeTree) (b : Bool) (bits : List Bool) :
    t.follow (b :: bits) = (t.child b).follow bits := rfl

theorem CodeTree.follow_append (t : CodeTree) (xs ys : List Bool) : t.follow (xs ++ ys) = (t.follow xs).follow ys := by
  induction xs generalizing t with
  | nil => rfl
  | cons b xs ih => exact ih _

@[simp] theorem CodeTree.empty_child (b : Bool) : CodeTree.empty.child b = .empty := by cases b <;> rfl

@[simp] theorem CodeTree.leaf_child (sym : Nat) (b : Bool) : (CodeTree.leaf sym).child b = .empty := by cases b <;> rfl

theorem CodeTree.empty_follow (bits : List Bool) : CodeTree.empty.follow bits = .empty := by
  induction bits with
  | nil => rfl
  | cons b bits ih => rw [follow_cons, empty_child, ih]

/-- Nothing lies below a leaf. -/
theorem CodeTree.leaf_follow (sym : Nat) {bits : List Bool} (h : bits ≠ []) : (CodeTree.leaf sym).follow bits = .empty := by
  cases bits with
  | nil => exact absurd rfl h
  | cons b bits => rw [follow_cons, leaf_child, empty_follow]

theorem CodeTree.insert_child_same (t : CodeTree) (b : Bool) (bits : List Bool) (sym : Nat) :
    (t.insert (b :: bits) sym).child b = (t.child b).insert bits sym := by
  cases b <;> rfl

theorem CodeTree.insert_child_other (t : CodeTree) {b c : Bool} (h : b ≠ c) (bits : List Bool) (sym : Nat) :
    (t.insert (b :: bits) sym).child c = t.child c := by
  cases b <;> cases c <;> first | rfl | exact absurd rfl h

/-- The inserted leaf stands at the end of its path. -/
theorem CodeTree.follow_insert_self (t : CodeTree) (p : List Bool) (sym : Nat) : (t.insert p sym).follow p = .leaf sym := by
  induction p generalizing t with
  | nil => cases t <;> rfl
  | cons b p ih => rw [follow_cons, insert_child_same, ih]

/-- Above the inserted leaf there are internal nodes. -/
theorem CodeTree.follow_insert_above (t : CodeTree) {q p : List Bool} (sym : Nat) (h : q <+: p) (ne : q ≠ p) :
    ∃ l r, (t.insert p sym).follow q = .node l r := by
  induction q generalizing t p with
  | nil =>
    cases p with
    | nil => exact absurd rfl ne
    | cons b p => cases b <;> exact ⟨_, _, rfl⟩
  | cons b q ih =>
    obtain ⟨c, p, rfl⟩ : ∃ c p', p = c :: p' := by
      cases p with
      | nil => exact absurd (List.prefix_nil.mp h) (by simp)
      | cons c p => exact ⟨c, p, rfl⟩
    obtain ⟨rfl, hq⟩ := List.cons_prefix_cons.mp h
    rw [follow_cons, insert_child_same]
    exact ih _ hq fun e => ne (by rw [e])

/-- Off the path of the inserted leaf nothing changes. -/
theorem CodeTree.follow_insert_off (t : CodeTree) {q p : List Bool} (sym : Nat) (h : ¬ q <+: p) (h' : ¬ p <+: q) :
    (t.insert p sym).follow q = t.follow q := by
  induction q generalizing t p with
  | nil => exact absurd List.nil_prefix h
  | cons b q ih =>
    cases p with
    | nil => exact absurd List.nil_prefix h'
    | cons c p =>
      by_cases e : c = b
      · subst e
        rw [follow_cons, insert_child_same, follow_cons]
        exact ih _ (fun x => h (List.cons_prefix_cons.mpr ⟨rfl, x⟩)) fun x => h' (List.cons_prefix_cons.mpr ⟨rfl, x⟩)
      · rw [follow_cons, insert_child_other _ e, follow_cons]

/-- The tree of some symbols, each at the end of its path. -/
def treeOf (path : Nat → List Bool) (syms : List Nat) : CodeTree :=
  syms.foldl (fun t sym => t.insert (path sym) sym) .empty

theorem treeOf_append (path : Nat → List Bool) (syms : List Nat) (sym : Nat) :
    treeOf path (syms ++ [sym]) = (treeOf path syms).insert (path sym) sym := by
  simp [treeOf]

/-- Where a path leads in the tree of symbols with prefix-free paths: to a leaf at the end of a symbol's path, to an
internal node above one, to nothing elsewhere. -/
theorem treeOf_follow (path : Nat → List Bool) (syms : List Nat)
    (free : ∀ a ∈ syms, ∀ b ∈ syms, path a <+: path b → a = b) (nodup : syms.Nodup) (q : List Bool) :
    (∀ sym ∈ syms, path sym = q → (treeOf path syms).follow q = .leaf sym) ∧
    (∀ sym ∈ syms, q <+: path sym → q ≠ path sym → ∃ l r, (treeOf path syms).follow q = .node l r) ∧
    ((∀ sym ∈ syms, ¬ q <+: path sym) → (treeOf path syms).follow q = .empty) := by
  induction syms using List.reverseRecOn with
  | nil => exact ⟨by simp, by simp, fun _ => CodeTree.empty_follow q⟩
  | append_singleton syms a ih =>
    have hfree : ∀ x ∈ syms, ∀ y ∈ syms, path x <+: path y → x = y := fun x hx y hy =>
      free x (by simp [hx]) y (by simp [hy])
    have nd := List.nodup_append.mp nodup
    obtain ⟨i1, i2, i3⟩ := ih hfree nd.1
    have new (x : Nat) (hx : x ∈ syms) : x ≠ a := fun e => nd.2.2 x hx a (by simp) e
    have off (x : Nat) (hx : x ∈ syms) : ¬ path x <+: path a ∧ ¬ path a <+: path x :=
      ⟨fun h => new x hx (free x (by simp [hx]) a (by simp) h), fun h => new x hx (free a (by simp) x (by simp [hx]) h).symm⟩
    rw [treeOf_append]
    by_cases up : q <+: path a
    · by_cases e : q = path a
      · subst e
        refine ⟨?_, ?_, ?_⟩
        · intro s hs h
          rcases List.mem_append.mp hs with hs | hs
          · exact absurd (h ▸ List.prefix_refl _) (off s hs).1
          · obtain rfl := List.mem_singleton.mp hs
            exact CodeTree.follow_insert_self _ _ _
        · intro s hs h ne
          rcases List.mem_append.mp hs with hs | hs
          · exact absurd h (off s hs).2
          · obtain rfl := List.mem_singleton.mp hs
            exact absurd rfl ne
        · intro h
          exact absurd up (h a (by simp))
      · have node := CodeTree.follow_insert_above (treeOf path syms) a up e
        refine ⟨?_, fun _ _ _ _ => node, ?_⟩
        · intro s hs h
          rcases List.mem_append.mp hs with hs | hs
          · exact absurd (h ▸ up) (off s hs).1
          · obtain rfl := List.mem_singleton.mp hs
            exact absurd h.symm e
        · intro h
          exact absurd up (h a (by simp))
    · by_cases down : path a <+: q
      · have gone : ((treeOf path syms).insert (path a) a).follow q = .empty := by
          obtain ⟨r, rfl⟩ := down
          rw [CodeTree.follow_append, CodeTree.follow_insert_self]
          exact CodeTree.leaf_follow a fun e => up (by simp [e])
        refine ⟨?_, ?_, fun _ => gone⟩
        · intro s hs h
          rcases List.mem_append.mp hs with hs | hs
          · exact absurd (h ▸ down) (off s hs).2
          · obtain rfl := List.mem_singleton.mp hs
            exact absurd (h ▸ List.prefix_refl _) up
        · intro s hs h ne
          rcases List.mem_append.mp hs with hs | hs
          · exact absurd (down.trans h) (off s hs).2
          · obtain rfl := List.mem_singleton.mp hs
            exact absurd h up
      · rw [CodeTree.follow_insert_off _ a up down]
        refine ⟨?_, ?_, ?_⟩
        · intro s hs h
          rcases List.mem_append.mp hs with hs | hs
          · exact i1 s hs h
          · obtain rfl := List.mem_singleton.mp hs
            exact absurd (h ▸ List.prefix_refl _) up
        · intro s hs h ne
          rcases List.mem_append.mp hs with hs | hs
          · exact i2 s hs h ne
          · obtain rfl := List.mem_singleton.mp hs
            exact absurd h up
        · intro h
          exact i3 fun s hs => h s (by simp [hs])

end Sys2Proof.Machine
end

