-- ==== Sys2Proof/Laws/Prefix.lean ====
section
/-! SUPPORT. The canonical code is prefix-free, and on a complete table it fills the code space
(spec/43_canonical.md R193 to R195). -/

namespace Sys2Proof.Machine

/-! ## Bit strings as numbers -/

theorem foldl_bits (bits : List Bool) (v : Nat) :
    bits.foldl (fun v b => 2 * v + b.toNat) v = v * 2 ^ bits.length + bitsToNat bits := by
  induction bits generalizing v with
  | nil => simp [bitsToNat]
  | cons b bits ih =>
    rw [bitsToNat, List.foldl_cons, List.foldl_cons, ih, ih (2 * 0 + b.toNat), List.length_cons]
    ring

theorem bitsToNat_append (xs ys : List Bool) : bitsToNat (xs ++ ys) = bitsToNat xs * 2 ^ ys.length + bitsToNat ys := by
  rw [bitsToNat, List.foldl_append, foldl_bits]
  rfl

theorem bitsToNat_lt (bits : List Bool) : bitsToNat bits < 2 ^ bits.length := by
  induction bits using List.reverseRecOn with
  | nil => exact Nat.one_pos
  | append_singleton bits b ih =>
    rw [bitsToNat_append, List.length_append, List.length_singleton, pow_one, pow_succ]
    have : bitsToNat [b] ≤ 1 := by cases b <;> decide
    omega

/-- The code bits of a value are the value, as far as they reach. -/
theorem bitsToNat_bitsMsbFirst {w : Nat} (v : BitVec w) (n : Nat) : bitsToNat (bitsMsbFirst v n) = v.toNat % 2 ^ n := by
  induction n with
  | zero => simp [bitsMsbFirst, bitsToNat, Nat.mod_one]
  | succ n ih =>
    have e : bitsMsbFirst v (n + 1) = [v.getLsbD n] ++ bitsMsbFirst v n := rfl
    have bit : bitsToNat [v.getLsbD n] = v.toNat / 2 ^ n % 2 := by
      rw [BitVec.getLsbD, Nat.testBit_eq_decide_div_mod_eq]
      rcases Nat.mod_two_eq_zero_or_one (v.toNat / 2 ^ n) with h | h <;> simp [bitsToNat, h]
    rw [e, bitsToNat_append, ih, bitsMsbFirst_length, Nat.mod_pow_succ, bit]
    ring

/-- Two bit strings of one length and one value are the same. -/
theorem bitsToNat_injective {xs ys : List Bool} (len : xs.length = ys.length) (h : bitsToNat xs = bitsToNat ys) : xs = ys := by
  induction xs using List.reverseRecOn generalizing ys with
  | nil => exact (List.eq_nil_of_length_eq_zero len.symm).symm
  | append_singleton xs b ih =>
    rcases List.eq_nil_or_concat' ys with rfl | ⟨ys, c, rfl⟩
    · simp at len
    · rw [bitsToNat_append, bitsToNat_append] at h
      simp only [List.length_append, List.length_singleton, pow_one] at len h
      have hb : bitsToNat [b] = b.toNat := by cases b <;> rfl
      have hc : bitsToNat [c] = c.toNat := by cases c <;> rfl
      have lb := Bool.toNat_lt b
      have lc := Bool.toNat_lt c
      have inj : ∀ x y : Bool, x.toNat = y.toNat → x = y := by decide
      rw [ih (ys := ys) (by omega) (by omega), inj b c (by omega)]

/-- One string is a prefix of another exactly when the longer one's number, cut to the shorter one's length, is the
shorter one's. -/
theorem prefix_of_value {xs ys : List Bool} (le : xs.length ≤ ys.length)
    (h : bitsToNat ys / 2 ^ (ys.length - xs.length) = bitsToNat xs) : xs <+: ys := by
  have split : ys = ys.take xs.length ++ ys.drop xs.length := (List.take_append_drop _ _).symm
  have value : bitsToNat ys / 2 ^ (ys.length - xs.length) = bitsToNat (ys.take xs.length) := by
    conv_lhs => rw [split, bitsToNat_append]
    have small := bitsToNat_lt (ys.drop xs.length)
    rw [List.length_drop] at small
    rw [← split, List.length_drop, Nat.mul_comm, Nat.mul_add_div (Nat.two_pow_pos _), Nat.div_eq_of_lt small, Nat.add_zero]
  have e : ys.take xs.length = xs := bitsToNat_injective (by simp [le]) (by rw [← value, h])
  exact ⟨_, by rw [← e]; exact split.symm⟩

/-! ## The intervals of the code space -/

variable (len : Vector Byte 322)

theorem codeShare_pos (sym : Nat) : 0 < codeShare len sym := Nat.two_pow_pos _

/-- A symbol's interval ends before the interval of any symbol after it begins. -/
theorem spaceBefore_le {a b : Nat} (ha : a ∈ codedSymbols len) (hb : b ∈ codedSymbols len) (h : comesBefore len a b = true) :
    spaceBefore len a + codeShare len a ≤ spaceBefore len b := by
  have mem (x : Nat) (hx : x ∈ codedSymbols len) := (sortedSymbols_perm len).mem_iff.mpr hx
  obtain ⟨pre, post, split⟩ := List.append_of_mem (mem b hb)
  have sum (sym : Nat) (pre post : List Nat) (split : sortedSymbols len = pre ++ sym :: post) :
      (pre.map (codeShare len)).sum = spaceBefore len sym := by
    rw [← sortedSymbols_before len split, spaceBefore]
    exact (((sortedSymbols_perm len).filter _).map _).sum_eq
  have ha' : a ∈ pre := by
    rw [← sortedSymbols_before len split]
    exact List.mem_filter.mpr ⟨mem a ha, h⟩
  obtain ⟨p, q, rfl⟩ := List.append_of_mem ha'
  have := sum a p (q ++ b :: post) (by rw [split]; simp)
  rw [← sum b _ post split, ← this]
  simp

theorem comesBefore_total {a b : Nat} (h : a ≠ b) : comesBefore len a b = true ∨ comesBefore len b a = true := by
  simp only [comesBefore, Bool.or_eq_true, Bool.and_eq_true, decide_eq_true_eq, beq_iff_eq]
  omega

/-- The intervals of the coded symbols fill the code space below the Kraft sum. -/
theorem interval_of_lt {x : Nat} (h : x < kraftSum len) :
    ∃ sym ∈ codedSymbols len, spaceBefore len sym ≤ x ∧ x < spaceBefore len sym + codeShare len sym := by
  have total : kraftSum len = ((sortedSymbols len).map (codeShare len)).sum := by
    rw [kraftSum_eq_shares, ((sortedSymbols_perm len).map (codeShare len)).sum_eq]
  have find : ∀ (pre post : List Nat), sortedSymbols len = pre ++ post → (pre.map (codeShare len)).sum ≤ x →
      ∃ p sym q, sortedSymbols len = p ++ sym :: q ∧ (p.map (codeShare len)).sum ≤ x ∧
        x < (p.map (codeShare len)).sum + codeShare len sym := by
    intro pre post
    induction post generalizing pre with
    | nil =>
      intro split le
      rw [total, split, List.append_nil] at h
      omega
    | cons sym post ih =>
      intro split le
      by_cases lt : x < (pre.map (codeShare len)).sum + codeShare len sym
      · exact ⟨pre, sym, post, split, le, lt⟩
      · exact ih (pre ++ [sym]) (by simp [split]) (by simpa using Nat.not_lt.mp lt)
  obtain ⟨p, sym, q, split, le, lt⟩ := find [] _ rfl (Nat.zero_le x)
  have before : (p.map (codeShare len)).sum = spaceBefore len sym := by
    rw [← sortedSymbols_before len split, spaceBefore]
    exact (((sortedSymbols_perm len).filter _).map _).sum_eq
  exact ⟨sym, (sortedSymbols_perm len).mem_iff.mp (by simp [split]), before ▸ le, before ▸ lt⟩

/-! ## The code -/

/-- The code bits of a coded symbol, as a number scaled to the code space, are the space before it. -/
theorem codeBits_value (fits : kraftSum len ≤ 2 ^ 255) {sym : Nat} (h : sym ∈ codedSymbols len) :
    bitsToNat (codeBits len (assignCodes len) sym) * codeShare len sym = spaceBefore len sym := by
  have value := assignCodes_value len fits h
  have room := spaceBefore_add_share len h
  have le := lenNat_le len sym
  have small : ((assignCodes len)[sym]?.getD 0).toNat < 2 ^ lenNat len sym := by
    have pos := codeShare_pos len sym
    have whole : 2 ^ lenNat len sym * codeShare len sym = 2 ^ 255 := by
      rw [codeShare, ← pow_add, Nat.add_sub_cancel' le]
    by_contra hc
    have := Nat.mul_le_mul_right (codeShare len sym) (Nat.not_lt.mp hc)
    omega
  rw [codeBits, bitsToNat_bitsMsbFirst, Nat.mod_eq_of_lt small, value]

theorem codeBits_length (code : Vector (BitVec 255) 322) (sym : Nat) : (codeBits len code sym).length = lenNat len sym :=
  bitsMsbFirst_length _ _

/-- A coded symbol whose interval holds the first point of a bit string's interval: its code is a prefix of the string
or the string is a prefix of its code. -/
theorem codeBits_comparable (fits : kraftSum len ≤ 2 ^ 255) {sym : Nat} (h : sym ∈ codedSymbols len) {q : List Bool}
    (short : q.length ≤ 255) (lo : spaceBefore len sym ≤ bitsToNat q * 2 ^ (255 - q.length))
    (hi : bitsToNat q * 2 ^ (255 - q.length) < spaceBefore len sym + codeShare len sym) :
    codeBits len (assignCodes len) sym <+: q ∨ q <+: codeBits len (assignCodes len) sym := by
  have value := codeBits_value len fits h
  have le := lenNat_le len sym
  have length := codeBits_length len (assignCodes len) sym
  generalize codeBits len (assignCodes len) sym = c at *
  rw [← value] at lo hi
  rw [codeShare, ← length] at lo hi
  by_cases cmp : c.length ≤ q.length
  · refine .inl (prefix_of_value cmp ?_)
    have e : 2 ^ (255 - c.length) = 2 ^ (q.length - c.length) * 2 ^ (255 - q.length) := by
      rw [← pow_add]; congr 1; omega
    have pos : 0 < 2 ^ (255 - q.length) := Nat.two_pow_pos _
    have hi' : bitsToNat q * 2 ^ (255 - q.length) < (bitsToNat c + 1) * 2 ^ (q.length - c.length) * 2 ^ (255 - q.length) := by
      rw [Nat.mul_assoc, ← e, Nat.add_mul, Nat.one_mul]
      exact hi
    rw [e, ← Nat.mul_assoc] at lo
    have lo' := Nat.le_of_mul_le_mul_right lo pos
    have hi'' := Nat.lt_of_mul_lt_mul_right hi'
    exact Nat.div_eq_of_lt_le lo' hi''
  · refine .inr (prefix_of_value (by omega) ?_)
    have e : 2 ^ (255 - q.length) = 2 ^ (c.length - q.length) * 2 ^ (255 - c.length) := by
      rw [← pow_add]; congr 1; omega
    have pos : 0 < 2 ^ (255 - c.length) := Nat.two_pow_pos _
    rw [e, ← Nat.mul_assoc] at lo hi
    have lo' := Nat.le_of_mul_le_mul_right lo pos
    have hi' : bitsToNat q * 2 ^ (c.length - q.length) < bitsToNat c + 1 := by
      refine Nat.lt_of_mul_lt_mul_right (a := 2 ^ (255 - c.length)) ?_
      rw [Nat.add_mul, Nat.one_mul]
      exact hi
    have eq : bitsToNat c = bitsToNat q * 2 ^ (c.length - q.length) := by omega
    rw [eq, Nat.mul_div_cancel _ (Nat.two_pow_pos _)]

/-- No code is a prefix of another (R193). -/
theorem codeBits_prefix_free (fits : kraftSum len ≤ 2 ^ 255) {a b : Nat} (ha : a ∈ codedSymbols len)
    (hb : b ∈ codedSymbols len) (h : codeBits len (assignCodes len) a <+: codeBits len (assignCodes len) b) : a = b := by
  by_contra ne
  have va := codeBits_value len fits ha
  have vb := codeBits_value len fits hb
  have la := codeBits_length len (assignCodes len) a
  have lb := codeBits_length len (assignCodes len) b
  have pos := codeShare_pos len b
  obtain ⟨r, hr⟩ := h
  have small := bitsToNat_lt r
  have value : bitsToNat (codeBits len (assignCodes len) b) =
      bitsToNat (codeBits len (assignCodes len) a) * 2 ^ r.length + bitsToNat r := by
    rw [← hr, bitsToNat_append]
  have sizes : lenNat len a + r.length = lenNat len b := by
    rw [← la, ← lb, ← hr, List.length_append]
  have share : 2 ^ r.length * codeShare len b = codeShare len a := by
    have := lenNat_le len b
    rw [codeShare, codeShare, ← pow_add]
    congr 1
    omega
  have inside : spaceBefore len b = spaceBefore len a + bitsToNat r * codeShare len b := by
    rw [← vb, value, ← va, ← share]
    ring
  have below : bitsToNat r * codeShare len b < codeShare len a := by
    rw [← share]
    exact Nat.mul_lt_mul_of_pos_right small pos
  rcases comesBefore_total len ne with o | o
  · have := spaceBefore_le len ha hb o
    omega
  · have := spaceBefore_le len hb ha o
    omega

theorem buildCodeTree_eq (code : Vector (BitVec 255) 322) :
    buildCodeTree len code = treeOf (codeBits len code) (codedSymbols len) := rfl

end Sys2Proof.Machine
end

