-- ==== Sys2Proof/Laws/Walk.lean ====
section
/-! SUPPORT. What the decoder walk does on the unread bits (spec/45_huffman.md R241). -/

namespace Sys2Proof.Machine

/-- The unread bits are no more than the bits there are. -/
theorem unreadBits_length_le (s : State) : (unreadBits s).length ≤ bitsLeft s := by
  have bytes : ((s.inp.bytes.drop s.inp.pos).flatMap byteBits).length = 8 * (s.inp.bytes.length - s.inp.pos) := by
    simp [List.length_flatMap]
    omega
  unfold unreadBits bitsLeft
  split
  · simp
  · rw [List.length_append, bitsMsbFirst_length, bytes]

/-- Where the unread bits begin with a path to a leaf, the walk ends there and has read just that path. -/
theorem decLoop_of_path {fuel k : Nat} {n : CodeTree} {s : State} {path rest : List Bool} {sym : Nat} (ne : path ≠ [])
    (leaf : n.follow path = .leaf sym) (unread : unreadBits s = path ++ rest) (enough : path.length ≤ fuel) :
    ∃ t, decLoop fuel n k s = .ok sym t ∧ UnpackStep s t ∧ unreadBits t = rest ∧ t.bi.eos = s.bi.eos := by
  induction fuel generalizing n k s path with
  | zero => exact absurd (List.eq_nil_of_length_eq_zero (Nat.le_zero.mp enough)) ne
  | succ f ih =>
    cases path with
    | nil => exact absurd rfl ne
    | cons b path =>
      obtain ⟨t, get, moved, left, eos⟩ := getBit_some (s := s) (b := b) (rest := path ++ rest) unread
      rw [decLoop, get]
      simp only [Run.ok_andThen]
      rw [CodeTree.follow_cons] at leaf
      cases child : n.child b with
      | empty =>
        rw [child, CodeTree.empty_follow] at leaf
        cases leaf
      | leaf sym' =>
        rw [child] at leaf
        cases path with
        | nil =>
          obtain rfl : sym' = sym := by simpa using leaf
          exact ⟨t, rfl, moved, left, eos⟩
        | cons c path =>
          rw [CodeTree.leaf_follow _ (by simp)] at leaf
          cases leaf
      | node l r =>
        rw [child] at leaf
        have ne' : path ≠ [] := by
          rintro rfl
          simp at leaf
        obtain ⟨u, walk, moved', left', eos'⟩ := ih (k := k + 1) ne' leaf left (Nat.le_of_succ_le_succ enough)
        exact ⟨u, walk, moved.trans moved', left', eos'.trans eos⟩

/-- Where no beginning of the unread bits leads to a leaf, the walk reads every bit and asks for one more. -/
theorem decLoop_of_no_leaf {fuel k : Nat} {n : CodeTree} {s : State}
    (noLeaf : ∀ path rest sym, unreadBits s = path ++ rest → path ≠ [] → n.follow path ≠ .leaf sym)
    (enough : (unreadBits s).length < fuel) :
    ∃ f m t, decLoop fuel n k s = decLoop (f + 1) m (k + (unreadBits s).length) t ∧ UnpackStep s t ∧
      unreadBits t = [] ∧ t.bi.eos = s.bi.eos := by
  induction fuel generalizing n k s with
  | zero => exact absurd enough (Nat.not_lt_zero _)
  | succ f ih =>
    cases unread : unreadBits s with
    | nil => exact ⟨f, n, s, rfl, UnpackStep.refl s, unread, rfl⟩
    | cons b rest =>
      obtain ⟨t, get, moved, left, eos⟩ := getBit_some unread
      have next : ∀ path rest' sym, unreadBits t = path ++ rest' → path ≠ [] → (n.child b).follow path ≠ .leaf sym :=
        fun path rest' sym h _ => noLeaf (b :: path) rest' sym (by rw [unread, ← left, h]; rfl) (by simp)
      have short : (unreadBits t).length < f := by
        rw [left]
        rw [unread, List.length_cons] at enough
        omega
      have first : ∀ sym, n.child b ≠ .leaf sym := fun sym => noLeaf [b] rest sym unread (by simp)
      obtain ⟨g, m, u, walk, moved', gone, eos'⟩ := ih (k := k + 1) next short
      refine ⟨g, m, u, ?_, moved.trans moved', gone, eos'.trans eos⟩
      rw [decLoop, get]
      simp only [Run.ok_andThen]
      rw [List.length_cons, show k + (rest.length + 1) = k + 1 + (unreadBits t).length by rw [left]; omega]
      cases child : n.child b with
      | leaf sym => exact absurd child (first sym)
      | empty => rw [← child]; exact walk
      | node l r => rw [← child]; exact walk

/-- Whether the stream ends cleanly is not changed by reading on. -/
theorem UnpackStep.endsClean_iff {s t : State} (moved : UnpackStep s t) (eos : t.bi.eos = s.bi.eos) :
    EndsClean t ↔ EndsClean s := by
  obtain ⟨u, m, -, rfl⟩ := moved
  simp only [EndsClean, eos]
  rfl

/-- Where the stream ends cleanly before a leaf, the walk reads every bit and raises E_EOS_SYMBOL with their number. -/
theorem decLoop_of_truncated {fuel k : Nat} {n : CodeTree} {s : State} (clean : EndsClean s)
    (noLeaf : ∀ path rest sym, unreadBits s = path ++ rest → path ≠ [] → n.follow path ≠ .leaf sym)
    (enough : (unreadBits s).length < fuel) :
    ∃ t, decLoop fuel n k s = .raise .eosSymbol (BitVec.ofNat 24 (k + (unreadBits s).length)) t ∧ UnpackStep s t ∧
      unreadBits t = [] ∧ t.bi.eos = true := by
  obtain ⟨f, m, t, walk, moved, gone, eos⟩ := decLoop_of_no_leaf noLeaf enough
  have last := getBit_none gone ((moved.endsClean_iff eos).mpr clean)
  have moved' := getBit_unpackStep t
  rw [last] at moved'
  refine ⟨_, by rw [walk, decLoop, last]; rfl, moved.trans moved', ?_, rfl⟩
  simp [unreadBits, rem_eq_zero_of_unread_nil gone, bitsMsbFirst]

/-- Where the IN port reports an I/O error before a leaf, the walk reads every bit and raises E_IO_READ. -/
theorem decLoop_of_ioerr {fuel k : Nat} {n : CodeTree} {s : State} (unclean : ¬ EndsClean s)
    (noLeaf : ∀ path rest sym, unreadBits s = path ++ rest → path ≠ [] → n.follow path ≠ .leaf sym)
    (enough : (unreadBits s).length < fuel) :
    ∃ t, decLoop fuel n k s = .raise .ioRead 0 t ∧ UnpackStep s t ∧ unreadBits t = [] ∧ t.bi.eos = s.bi.eos := by
  obtain ⟨f, m, t, walk, moved, gone, eos⟩ := decLoop_of_no_leaf noLeaf enough
  refine ⟨t, ?_, moved, gone, eos⟩
  rw [walk, decLoop, getBit_raises gone fun c => unclean ((moved.endsClean_iff eos).mp c)]
  rfl

end Sys2Proof.Machine
end

