-- ==== Sys2Proof/Laws/Window.lean ====
section
/-! SUPPORT. The host window: which accesses it takes, and STATUS as a number (spec/10_state.md R32, R34). -/

namespace Sys2Proof.Machine

/-- The eight words of the window (R32, R74). -/
theorem windowOffset_word {j : Nat} (base : Nat) (h : j < 8) : windowOffset base (base + 4 * j) 4 = some (4 * j) := by
  unfold windowOffset
  rw [if_pos (by omega), Nat.add_sub_cancel_left]

theorem windowOffset_cmd (base : Nat) : windowOffset base base 4 = some 0 := windowOffset_word base (by decide : 0 < 8)

/-- Any other access names no word (R74). -/
theorem windowOffset_none {base addr size : Nat} (h : ¬ (size = 4 ∧ ∃ j, j < 8 ∧ addr = base + 4 * j)) :
    windowOffset base addr size = none := by
  unfold windowOffset
  rw [if_neg]
  rintro ⟨lo, hi, aligned, word⟩
  exact h ⟨word, (addr - base) / 4, by omega, by omega⟩

/-- STATUS as a number: no field spills into another. -/
theorem statusWord_toNat (s : State) :
    (statusWord s).toNat =
      s.er.err.toNat + s.er.halt.toNat * 2 ^ 8 + s.fq.valid.toNat * 2 ^ 9 + s.cn.valid.toNat * 2 ^ 10 +
        s.esc.counting.toNat * 2 ^ 11 + (escModeBit s.esc).toNat * 2 ^ 12 + s.bo.closed.toNat * 2 ^ 13 +
        s.bo.cnt.toNat * 2 ^ 14 + s.bi.rem.toNat * 2 ^ 17 + s.bi.eos.toNat * 2 ^ 21 +
        s.decEof.toNat * 2 ^ 22 + s.busy.toNat * 2 ^ 23 := by
  rw [statusWord, BitVec.toNat_ofNat, Nat.mod_eq_of_lt]
  have err := s.er.err.isLt
  have cnt := s.bo.cnt.isLt
  have rem := s.bi.rem.isLt
  have halt := Bool.toNat_le s.er.halt
  have ht := Bool.toNat_le s.fq.valid
  have code := Bool.toNat_le s.cn.valid
  have counting := Bool.toNat_le s.esc.counting
  have mode := Bool.toNat_le (escModeBit s.esc)
  have closed := Bool.toNat_le s.bo.closed
  have eos := Bool.toNat_le s.bi.eos
  have eof := Bool.toNat_le s.decEof
  have busy := Bool.toNat_le s.busy
  generalize s.er.err.toNat = x at *
  generalize s.bo.cnt.toNat = y at *
  generalize s.bi.rem.toNat = z at *
  omega

/-- A read leaves the engine as it is (R77). -/
theorem windowRead_engine (offset : Nat) (s : State) :
    windowRead offset s = { s with
      host := { s.host with reads := s.host.reads ++ [windowValue s offset] },
      free := if s.busy then s.free + 1 else s.free } := rfl

end Sys2Proof.Machine
end

