-- ==== Sys2Proof/Machine/Assembler.lean ====
section
/-! DEFINITION. The assembly syntax and its pseudo-instructions (spec/30_encoding.md R111, R112). It stands
beside the machine: nothing here is read by a step. -/

namespace Sys2Proof.Machine

/-! ## Operands -/

/-- The value of one digit in a base, if it is one. -/
def digitValue (base : Nat) (c : Char) : Option Nat :=
  let v :=
    if '0' ≤ c ∧ c ≤ '9' then c.toNat - 48
    else if 'a' ≤ c ∧ c ≤ 'f' then c.toNat - 87
    else if 'A' ≤ c ∧ c ≤ 'F' then c.toNat - 55
    else 16
  if v < base then some v else none

/-- The value of one digit after another, `acc` being that of the digits before them. -/
def digitsValue (base : Nat) : List Char → (acc : Nat) → Option Nat
  | [], acc => some acc
  | c :: cs, acc => (digitValue base c).bind fun d => digitsValue base cs (acc * base + d)

/-- "Numbers are decimal, or hexadecimal with a `0x` prefix." -/
def parseNumber : List Char → Option Nat
  | [] => none
  | '0' :: 'x' :: c :: cs => digitsValue 16 (c :: cs) 0
  | cs => digitsValue 10 cs 0

/-- A number below `bound`: "An assembler refuses an operand outside its field's range." -/
def parseBelow (bound : Nat) (cs : List Char) : Option Nat :=
  (parseNumber cs).bind fun n => if n < bound then some n else none

/-- The text `ESC(i)` without its closing bracket gives `256 + i`, for `i` in `1..65`. -/
def parseEscape (cs : List Char) : Option Nat :=
  if cs.getLast? = some ')' then
    (parseNumber cs.dropLast).bind fun i => if 1 ≤ i ∧ i ≤ 65 then some (256 + i) else none
  else none

/-- A symbol operand: `0..511`, `EOF` or `ESC(i)`. -/
def parseSymbol : List Char → Option Nat
  | ['E', 'O', 'F'] => some 256
  | 'E' :: 'S' :: 'C' :: '(' :: cs => parseEscape cs
  | cs => parseBelow 512 cs

/-- A byte operand, `0..255`. -/
def parseByte (cs : List Char) : Option Byte := (parseBelow 256 cs).map (BitVec.ofNat 8)

/-- A bit operand, `0` or `1`. -/
def parseBit (cs : List Char) : Option Bool := (parseBelow 2 cs).map (· == 1)

/-- A word index, `0..7`. -/
def parseWordIndex (cs : List Char) : Option Nat := parseBelow 8 cs

/-! ## One line -/

/-- A command without operands. -/
def asmNone (i : Instr) : List (List Char) → Option (List Instr)
  | [] => some [i]
  | _ => none

/-- A command with one operand. -/
def asmOne {α : Type} (parse : List Char → Option α) (f : α → List Instr) :
    List (List Char) → Option (List Instr)
  | [x] => (parse x).map f
  | _ => none

/-- A command with two operands. -/
def asmTwo {α β : Type} (parse : List Char → Option α) (parse' : List Char → Option β)
    (f : α → β → Instr) : List (List Char) → Option (List Instr)
  | [x, y] => (parse x).bind fun a => (parse' y).map fun b => [f a b]
  | _ => none

/-- `BWR8 v`: the eight bits of `v`, the most significant first (R112). -/
def bwr8 (v : Byte) : List Instr :=
  [.bwr (v.getLsbD 7), .bwr (v.getLsbD 6), .bwr (v.getLsbD 5), .bwr (v.getLsbD 4),
    .bwr (v.getLsbD 3), .bwr (v.getLsbD 2), .bwr (v.getLsbD 1), .bwr (v.getLsbD 0)]

/-- `CBYTES v1, ..., vn` (R112). -/
def cbytes (vs : List Byte) : List Instr := vs.map .cbyte

/-- `EBYTES v1, ..., vn` (R112). -/
def ebytes (vs : List Byte) : List Instr := vs.map .ebyte

/-- The byte operands of CBYTES and EBYTES: one or more. -/
def parseBytes : List (List Char) → Option (List Byte)
  | [] => none
  | x :: xs => (x :: xs).mapM parseByte

/-- A mnemonic with its operands, a command's or a pseudo-instruction's (R111, R112). -/
def assembleMnemonic (mnemonic : String) (operands : List (List Char)) : Option (List Instr) :=
  match mnemonic with
  | "NOP" => asmNone .nop operands
  | "SRST" => asmNone .srst operands
  | "SYMLIM" => asmNone .symlim operands
  | "BWR" => asmOne parseBit (fun b => [.bwr b]) operands
  | "BFIN" => asmNone .bfin operands
  | "BRD" => asmNone .brd operands
  | "BRDNE" => asmNone .brdne operands
  | "FCLR" => asmNone .fclr operands
  | "FINC" => asmOne parseSymbol (fun s => [.finc s]) operands
  | "FGET" => asmOne parseSymbol (fun s => [.fget s]) operands
  | "FBUILD" => asmNone .fbuild operands
  | "CTREE" => asmNone .ctree operands
  | "CLEN" => asmNone .clen operands
  | "LSET" => asmTwo parseSymbol parseByte .lset operands
  | "LGET" => asmOne parseSymbol (fun s => [.lget s]) operands
  | "CGET" => asmTwo parseSymbol parseWordIndex .cget operands
  | "HDRW" => asmNone .hdrw operands
  | "HDRR" => asmNone .hdrr operands
  | "CBYTE" => asmOne parseByte (fun v => [.cbyte v]) operands
  | "CEND" => asmNone .cend operands
  | "EBYTE" => asmOne parseByte (fun v => [.ebyte v]) operands
  | "EEND" => asmNone .eend operands
  | "XSYM" => asmOne parseSymbol (fun s => [.xsym s]) operands
  | "HENC" => asmOne parseSymbol (fun s => [.henc s]) operands
  | "HDEC" => asmNone .hdec operands
  | "XDEC" => asmNone .xdec operands
  | "FEOF" => asmNone (.finc 256) operands
  | "HEOF" => asmNone (.henc 256) operands
  | "BWR8" => asmOne parseByte bwr8 operands
  | "CBYTES" => (parseBytes operands).map cbytes
  | "EBYTES" => (parseBytes operands).map ebytes
  | _ => none

/-- A blank between the parts of a line. -/
def isBlank (c : Char) : Bool := c == ' ' || c == '\t'

/-- Blanks removed at both ends. -/
def trimBlanks (cs : List Char) : List Char := ((cs.dropWhile isBlank).reverse.dropWhile isBlank).reverse

/-- The operands of a line, "separated by commas"; none if there is nothing but blanks. -/
def splitOperands (cs : List Char) : List (List Char) :=
  if trimBlanks cs = [] then [] else (cs.splitOn ',').map trimBlanks

/-- One line: the mnemonic, the operands, "then an optional `;` comment" (R111). A line without a mnemonic holds no
command; none is a line the assembler refuses. -/
def assembleLine (line : List Char) : Option (List Instr) :=
  let text := trimBlanks (line.takeWhile (· != ';'))
  if text = [] then some []
  else assembleMnemonic (String.ofList (text.takeWhile (!isBlank ·))) (splitOperands (text.dropWhile (!isBlank ·)))

/-- The command words of an assembly text, "one command per line" (R111). -/
def assemble (text : String) : Option (List Word) :=
  ((text.toList.splitOn '\n').mapM assembleLine).map fun parts => parts.flatten.map encode

end Sys2Proof.Machine
end

