-- ==== Sys2Proof/Machine/Session.lean ====
section
/-! DEFINITION. The launch of a run, the run itself, and the two command sequences the host issues
(spec/00_scope.md R14, spec/70_reset_and_hazards.md R294 to R301). It stands beside the machine: no step
reads it. -/

namespace Sys2Proof.Machine

/-- The machine at the launch of a run: reset, with the launch parameters `IN_BYTES`, `IN_END`,
`OUT_LIMIT`, `WINDOW_BASE` and what the host does (R14, R78, R291). -/
def State.launch (inBytes : List Byte) (inEnd : InEnd) (outLimit : Option Nat) (base : Nat)
    (accesses : List HostAccess) : State :=
  { State.reset with
    inp  := { bytes := inBytes, pos := 0, atEnd := inEnd }
    outp := { bytes := [], limit := outLimit }
    host := { base := base, pending := accesses, k := 0, reads := [] } }

/-- The host's writes of some commands to CMD. -/
def cmdWrites (base : Nat) (commands : List Instr) : List HostAccess :=
  commands.map fun i => .write base 4 (encode i)

/-- A run: every access the host makes, to the last, one a step (R301). -/
def runToEnd (s : State) : Host.Outcome State Fault Refusal := Sys2Proof.core.run s.host.pending.length s

/-- The compression session for the input `bytes`; `FINC 256` is the EOF count of R295 (R294). -/
def compressionSession (bytes : List Byte) : List Instr :=
  [.srst] ++ cbytes bytes ++ [.cend, .finc 256, .fbuild, .ctree, .hdrw] ++ ebytes bytes ++
    [.eend, .henc 256, .bfin]

/-- What the decompression session starts with (R296). -/
def decompressionStart : List Instr := [.srst, .hdrr, .clen]

/-- "until STATUS.DEC_EOF = 1 or STATUS.HALT = 1": whether the host stops (R296, R297). -/
def decompressionEnds (s : State) : Bool := s.decEof || s.er.halt

/-- The loop of the decompression session: XDEC until the host stops, at most `fuel` times (R296). -/
def decompressionLoop : (fuel : Nat) → State → Host.Outcome State Fault Refusal
  | 0, s => .next s
  | fuel + 1, s =>
    match step (pushCmdWrite (encode .xdec) s) with
    | .next t => if decompressionEnds t then .next t else decompressionLoop fuel t
    | .fault f => .fault f
    | .refused r => .refused r

end Sys2Proof.Machine
end

