-- ==== Sys2Proof/Tests/Slice0.lean ====
section
/-! SUPPORT. The model's own tests: expected values are the spec's, from the rule named beside each. -/

namespace Sys2Proof.Tests

open Sys2Proof.Machine

set_option maxRecDepth 100000

/-! ## Helpers -/

/-- The state a step answers. -/
def got : Host.Outcome State Fault Refusal → State
  | .next s => s
  | _ => State.reset

/-- Reset with some IN bytes. -/
def withIn (bytes : List Byte) : State := State.reset.withInp { bytes := bytes, pos := 0, atEnd := .eos }

/-- Reset with a limit on OUT. -/
def withLimit (n : Nat) : State := State.reset.withOutp { bytes := [], limit := some n }

/-- LEN of `LSET 65, 1`, `LSET 66, 2`, `LSET 67, 2` (R197's example). -/
def exampleLen : Vector Byte 322 :=
  (((Vector.replicate 322 0).setIfInBounds 65 1).setIfInBounds 66 2).setIfInBounds 67 2

/-- The code unit of R197's example: the codes `0`, `10` and `11`. -/
def exampleCode : CodeUnit where
  len   := exampleLen
  code  := (((Vector.replicate 322 0).setIfInBounds 65 0).setIfInBounds 66 2).setIfInBounds 67 3
  ct    := .node (.leaf 65) (.node (.leaf 66) (.leaf 67))
  valid := true

/-- A state with R197's code. -/
def coded (s : State) : State := s.withCn exampleCode

/-! The example's table, without evaluating 322 entries each time. -/

theorem lenNat_zero (j : Nat) : lenNat (Vector.replicate 322 0) j = 0 := by
  simp only [lenNat, Vector.getElem?_replicate]
  split <;> rfl

theorem lenNat_set (len : Vector Byte 322) (i : Nat) (x : Byte) (h : i < 322) (j : Nat) :
    lenNat (len.setIfInBounds i x) j = if i = j then x.toNat else lenNat len j := by
  simp only [lenNat, Vector.getElem?_setIfInBounds, h]
  split <;> rfl

theorem codedSymbols_of {len : Vector Byte 322} {f : Nat → Nat} (h : ∀ j, lenNat len j = f j) :
    codedSymbols len = (List.range 322).filter fun j => f j != 0 := by
  simp only [codedSymbols, h]

theorem kraftSum_of {len : Vector Byte 322} {f : Nat → Nat} (h : ∀ j, lenNat len j = f j) :
    kraftSum len = (((List.range 322).filter fun j => f j != 0).map fun j => 2 ^ (255 - f j)).sum := by
  simp only [kraftSum, codedSymbols_of h, h]

theorem lenNat_example (j : Nat) :
    lenNat exampleLen j = if 67 = j then 2 else if 66 = j then 2 else if 65 = j then 1 else 0 := by
  simp only [exampleLen, lenNat_set _ _ _ (show 65 < 322 by decide), lenNat_set _ _ _ (show 66 < 322 by decide),
    lenNat_set _ _ _ (show 67 < 322 by decide), lenNat_zero]
  rfl

theorem exampleLen_coded : codedSymbols exampleLen = [65, 66, 67] := by
  rw [codedSymbols_of lenNat_example]
  decide

theorem exampleLen_complete : kraftSum exampleLen = 2 ^ 255 := by
  rw [kraftSum_of lenNat_example]
  decide

/-- R197's example: "CODE = 0, 2, 3". -/
theorem test_assign : assignment exampleLen = [(65, 0), (66, 2), (67, 3)] := by
  simp only [assignment, sortedSymbols, exampleLen_coded]
  decide

theorem exampleCode_canonical :
    exampleCode.code = assignCodes exampleLen ∧ exampleCode.ct = buildCodeTree exampleLen exampleCode.code := by
  refine ⟨?_, ?_⟩
  · rw [assignCodes, test_assign]
    rfl
  · rw [buildCodeTree, exampleLen_coded]
    decide

/-! ## WellFormed: an ill-formed term for each check (R107, R111) -/

theorem test_symbol_beyond_nine_bits : (Instr.finc 512).wellFormed = false := by decide
theorem test_length_symbol_beyond_nine_bits : (Instr.lset 512 3).wellFormed = false := by decide
theorem test_code_symbol_beyond_nine_bits : (Instr.cget 512 0).wellFormed = false := by decide
theorem test_word_index_beyond_three_bits : (Instr.cget 0 8).wellFormed = false := by decide
theorem test_symbol_out_of_range_is_well_formed : (Instr.finc 322).wellFormed = true := by decide

/-! ## Decoding: words written out from R102 to R108 -/

theorem test_decode_nop : decode 0b00000000_000000000000000000000000 = some .nop := by decide
theorem test_decode_srst : decode 0b00000001_000000000000000000000000 = some .srst := by decide
theorem test_decode_symlim : decode 0b00000010_000000000000000000000000 = some .symlim := by decide
theorem test_decode_bwr : decode 0b00010000_00000000000000000000000_1 = some (.bwr true) := by decide
theorem test_decode_bfin : decode 0b00010001_000000000000000000000000 = some .bfin := by decide
theorem test_decode_brd : decode 0b00010010_000000000000000000000000 = some .brd := by decide
theorem test_decode_brdne : decode 0b00010011_000000000000000000000000 = some .brdne := by decide
theorem test_decode_fclr : decode 0b00100000_000000000000000000000000 = some .fclr := by decide
theorem test_decode_finc : decode 0b00100001_000000000000000_100000001 = some (.finc 257) := by decide
theorem test_decode_fget : decode 0b00100010_000000000000000_001000001 = some (.fget 65) := by decide
theorem test_decode_fbuild : decode 0b00100011_000000000000000000000000 = some .fbuild := by decide
theorem test_decode_ctree : decode 0b00110000_000000000000000000000000 = some .ctree := by decide
theorem test_decode_clen : decode 0b00110001_000000000000000000000000 = some .clen := by decide
theorem test_decode_lset : decode 0b00110010_00000011_0000000_001000001 = some (.lset 65 3) := by decide
theorem test_decode_lget : decode 0b00110011_000000000000000_001000010 = some (.lget 66) := by decide
theorem test_decode_cget : decode 0b00110100_00000_111_0000000_011111111 = some (.cget 255 7) := by decide
theorem test_decode_hdrw : decode 0b00110101_000000000000000000000000 = some .hdrw := by decide
theorem test_decode_hdrr : decode 0b00110110_000000000000000000000000 = some .hdrr := by decide
theorem test_decode_cbyte : decode 0b01000000_0000000000000000_10000001 = some (.cbyte 129) := by decide
theorem test_decode_cend : decode 0b01000001_000000000000000000000000 = some .cend := by decide
theorem test_decode_ebyte : decode 0b01000010_0000000000000000_01000001 = some (.ebyte 65) := by decide
theorem test_decode_eend : decode 0b01000011_000000000000000000000000 = some .eend := by decide
theorem test_decode_xsym : decode 0b01000100_000000000000000_100000010 = some (.xsym 258) := by decide
theorem test_decode_henc : decode 0b01010000_000000000000000_100000000 = some (.henc 256) := by decide
theorem test_decode_hdec : decode 0b01010001_000000000000000000000000 = some .hdec := by decide
theorem test_decode_xdec : decode 0b01010010_000000000000000000000000 = some .xdec := by decide

/-- R113's illegal words. -/
theorem test_decode_illegal : [0xFF000000, 0x10000002, 0x34080041, 0x00000001].map decode = [none, none, none, none] := by
  decide

theorem test_table_word : decodeTableWord 32 0x340700FF = some (.cget 255 7) := by decide

/-! ## Assembly (R111, R112, R299) -/

theorem test_assemble_escape : assembleLine "XSYM ESC(2) ; four zeros".toList = some [.xsym 258] := by decide
theorem test_assemble_refuses : assembleLine "LSET 65, 256".toList = none := by decide
theorem test_bwr8 : bwr8 0xA0 =
    [.bwr true, .bwr false, .bwr true, .bwr false, .bwr false, .bwr false, .bwr false, .bwr false] := by decide
theorem test_empty_session : compressionSession [] =
    [.srst, .cend, .finc 256, .fbuild, .ctree, .hdrw, .eend, .henc 256, .bfin] := by decide

/-! ## Control -/

/-- R135. -/
theorem test_nop : statusWord (got (exec .nop State.reset)) = 0 := by decide

/-- R132, R265: `FINC 322` raises E_SYM_RANGE. -/
theorem test_symbol_range : (got (exec (.finc 322) State.reset)).er =
    { err := 0x11, halt := true, info := 0x21000142 } := by decide

/-- R136's example. -/
theorem test_srst : statusWord (got (exec .srst (got (exec (.finc 322) State.reset)))) = 0 := by decide

/-- R131: a halted engine discards. -/
theorem test_halted_discards : (got (exec .symlim (got (exec (.finc 322) State.reset)))).res = 0 := by decide

/-- R137. -/
theorem test_symlim : (got (exec .symlim State.reset)).res = 0x00000142 := by decide

/-! ## Bit stream -/

/-- R154's example, its third bit. -/
theorem test_bwr : statusWord (got (exec (.bwr true)
    (State.reset.withBo { acc := 2, cnt := 2, closed := false }))) = 0x0000C000 := by decide

/-- R150: the eighth bit completes the byte, the first bit in bit 7. -/
theorem test_bwr_byte : (got (exec (.bwr false)
    (State.reset.withBo { acc := 0x50, cnt := 7, closed := false }))).outp.bytes = [0xA0] := by decide

/-- R155's example. -/
theorem test_bfin : (got (exec .bfin
    (State.reset.withBo { acc := 5, cnt := 3, closed := false }))).outp.bytes = [0xA0] := by decide

theorem test_bfin_status : statusWord (got (exec .bfin
    (State.reset.withBo { acc := 5, cnt := 3, closed := false }))) = 0x00002000 := by decide

/-- R156's example: the first bit. -/
theorem test_brd : (got (exec .brd (withIn [0xA5]))).res = 1 := by decide

/-- R156: the end-of-stream marker. -/
theorem test_brd_end : (got (exec .brd (withIn []))).res = 0xFFFFFFFF := by decide

/-- R157's example. -/
theorem test_brdne_end : statusWord (got (exec .brdne (withIn []))) = 0x00200122 := by decide

theorem test_brdne : (got (exec .brdne (withIn [0x80]))).res = 1 := by decide

/-! ## Frequency table -/

/-- R174's example. -/
theorem test_finc_fget : (got (exec (.fget 321) (got (exec (.finc 321) State.reset)))).res = 1 := by decide

/-- R170: the overflow. -/
theorem test_finc_overflow : (got (exec (.finc 7) (State.reset.setFreq 7 0xFFFFFFFF))).er =
    { err := 0x12, halt := true, info := 0x21000007 } := by decide

/-- R171's example. -/
theorem test_fclr : (got (exec .fclr (State.reset.setFreq 65 5))).freqAt 65 = 0 := by decide

/-- R173: HT_VALID is set. -/
theorem test_fbuild : statusWord (got (exec .fbuild State.reset)) = 0x00000200 := by decide

/-! ## Canonical code -/

/-- R190: lengths are depths, here of the tree whose root is the two leaves 7 and 9. -/
theorem test_depths : HuffTree.depths { HuffTree.zero with
    left  := HuffTree.zero.left.setIfInBounds 320 7
    right := HuffTree.zero.right.setIfInBounds 320 9 } = [(7, 1), (9, 1)] := by decide

theorem test_ctree_no_tree : (got (exec .ctree State.reset)).er =
    { err := 0x51, halt := true, info := 0x30000000 } := by decide

/-- R197's example: "STATUS = 0x00000400". -/
theorem test_clen : statusWord (got (exec .clen (coded State.reset))) = 0x00000400 := by
  have h : checkComplete ((coded State.reset).setCodeValid false) = .ok () ((coded State.reset).setCodeValid false) :=
    checkComplete_eq_ok.mpr ⟨rfl, exampleLen_complete⟩
  have hx : exec .clen (coded State.reset) = .next (installCode ((coded State.reset).setCodeValid false)) := by
    simp only [exec, execClen]
    exact command_of_ok rfl (by simp only [h, Run.ok_andThen]; rfl)
  rw [hx]
  decide

/-- R197: CLEN from reset is under-full. -/
theorem test_clen_underfull : (got (exec .clen State.reset)).er =
    { err := 0x24, halt := true, info := 0x31000000 } := by
  have h : kraftSum (Vector.replicate 322 0) = 0 := by
    rw [kraftSum_of lenNat_zero]
    decide
  have hc : checkComplete (State.reset.setCodeValid false) = .raise .badLengths 0 (State.reset.setCodeValid false) :=
    if_pos (by show kraftSum (Vector.replicate 322 0) < 2 ^ 255; rw [h]; decide)
  have hx : exec .clen State.reset = .next (errorEntry .badLengths 0 0x31 (State.reset.setCodeValid false)) := by
    simp only [exec, execClen]
    exact command_of_raise rfl (by simp only [hc, Run.raise_andThen])
  rw [hx]
  decide

/-- R198's example. -/
theorem test_lset_lget : (got (exec (.lget 0) (got (exec (.lset 0 255) State.reset)))).res = 0xFF := by decide

theorem test_lset_clears_code_valid : (got (exec (.lset 65 1) (coded State.reset))).cn.valid = false := by decide

/-- R200. -/
theorem test_cget : (got (exec (.cget 67 0) (coded State.reset))).res = 3 := by decide

theorem test_cget_no_table : (got (exec (.cget 67 0) State.reset)).er =
    { err := 0x52, halt := true, info := 0x34000000 } := by decide

/-- R201, R133: the first byte is LEN[0]; the next is refused with seven bits of it packed. -/
theorem test_hdrw : (got (exec .hdrw (coded (withLimit 1)))).bo.cnt = 7 := by decide

/-- R202's example. -/
theorem test_hdrr : (got (exec .hdrr (withIn (List.replicate 10 0)))).er.info = 0x36000050 := by decide

theorem test_hdrr_status : statusWord (got (exec .hdrr (withIn (List.replicate 10 0)))) = 0x00200122 := by decide

/-! ## Escape transform -/

/-- R223's example, its last byte. -/
theorem test_cbyte_zero : statusWord (got (exec (.cbyte 0) State.reset)) = 0x00000800 := by decide

/-- R221: a run of 2 is the symbol 257. -/
theorem test_cbyte_flush : (got (exec (.cbyte 9)
    (State.reset.withEsc { counting := true, mode := .counting, run := 2 }))).freqAt 257 = 1 := by decide

/-- R224's example. -/
theorem test_cend : (got (exec .cend
    (State.reset.withEsc { counting := true, mode := .counting, run := 1 }))).freqAt 0 = 1 := by decide

/-- R225's example: a zero byte. -/
theorem test_ebyte_zero : statusWord (got (exec (.ebyte 0) (coded State.reset))) = 0x00001C00 := by decide

/-- R225's example: `EBYTE 66` sends `10`. -/
theorem test_ebyte : (got (exec (.ebyte 66) (coded State.reset))).bo = { acc := 2, cnt := 2, closed := false } := by
  decide

/-- R226's example. -/
theorem test_eend : (got (exec .eend ((coded State.reset).withEsc
    { counting := true, mode := .encoding, run := 1 }))).er.info = 0x43000000 := by decide

theorem test_eend_idle : (got (exec .eend (coded State.reset))).bo.cnt = 0 := by decide

/-- R227's example. -/
theorem test_xsym : (got (exec (.xsym 258) State.reset)).outp.bytes = [0, 0, 0, 0] := by decide

/-- R227's example. -/
theorem test_xsym_refused : (got (exec (.xsym 260) (withLimit 10))).outp.bytes = List.replicate 10 0 := by decide

/-! ## Huffman coder -/

/-- R243's example. -/
theorem test_henc : statusWord (got (exec (.henc 66) (coded State.reset))) = 0x00008400 := by decide

/-- R243's example. -/
theorem test_henc_no_code : (got (exec (.henc 68) (coded State.reset))).er =
    { err := 0x14, halt := true, info := 0x50000044 } := by decide

/-- R244's example. -/
theorem test_hdec : (got (exec .hdec (coded (withIn [0xB0])))).res = 66 := by decide

/-- R244's example: one bit of an unfinished code. -/
theorem test_hdec_truncated : (got (exec .hdec ((coded (withIn [])).withBi { buf := 1, rem := 1, eos := false }))).er.info =
    0x51000001 := by decide

/-- R246's example, its first XDEC. -/
theorem test_xdec : (got (exec .xdec (coded (withIn [0xB0])))).outp.bytes = [0x42] := by decide

/-! ## The window -/

/-- R130: a CMD write runs its command. -/
theorem test_step : (got (step (State.reset.withFetchWord 32 0x02000000))).res = 322 := by decide

/-- R32, R48: the host reads ID. -/
theorem test_read_id : (got (step (State.launch [] .eos none 0x40 [.read 0x50 4]))).host.reads = [0x48434531] := by
  decide

/-! ## Witnesses: for each statement a state and operands that meet its hypotheses together, at a boundary of each
clause -/

/-- Reset with some host accesses pending, the window at `0x40`. -/
def withHostDoing (accesses : List HostAccess) : State := State.launch [] .eos none 0x40 accesses

/-- Reset after an error. -/
def halted (s : State) : State := s.withEr { err := 0x11, halt := true, info := 0x21000142 }

theorem witness_PowerOnResetsLikeSrst : (withHostDoing [.powerOn]).host.pending = .powerOn :: [] := by decide

theorem witness_StepRunsTheDecodedCommand :
    (withHostDoing [.write 0x40 4 0x340700FF]).busy = false ∧
    (withHostDoing [.write 0x40 4 0x340700FF]).host.pending =
      .write (withHostDoing [.write 0x40 4 0x340700FF]).host.base 4 0x340700FF :: [] ∧
    decode 0x340700FF = some (.cget 255 7) := by decide

theorem witness_IllegalWordRaisesIllegal :
    (withHostDoing [.write 0x40 4 0x34080041]).busy = false ∧ Live (withHostDoing [.write 0x40 4 0x34080041]) ∧
    (withHostDoing [.write 0x40 4 0x34080041]).host.pending =
      .write (withHostDoing [.write 0x40 4 0x34080041]).host.base 4 0x34080041 :: [] ∧
    decode 0x34080041 = none := by decide

theorem witness_HaltedEngineDiscardsAllButSrst_other :
    (halted (withHostDoing [.write 0x40 4 0x01000001])).busy = false ∧
    (halted (withHostDoing [.write 0x40 4 0x01000001])).er.halt = true ∧
    (halted (withHostDoing [.write 0x40 4 0x01000001])).host.pending = .write 0x40 4 0x01000001 :: [] ∧
    (0x01000001 : Word) ≠ 0x01000000 := by decide

theorem witness_HaltedEngineDiscardsAllButSrst_srst :
    (halted (withHostDoing [.write 0x40 4 0x01000000])).busy = false ∧
    (halted (withHostDoing [.write 0x40 4 0x01000000])).er.halt = true ∧
    (halted (withHostDoing [.write 0x40 4 0x01000000])).host.pending = .write 0x40 4 0x01000000 :: [] := by decide

theorem witness_IdleEngineKeepsItsState : State.reset.host.pending = [] := by decide

theorem witness_CmdWriteWhileBusyIsRefused :
    ((withHostDoing [.write 0x40 4 0]).withBusy true).busy = true ∧
    ((withHostDoing [.write 0x40 4 0]).withBusy true).host.pending = .write 0x40 4 0 :: [] := by decide

theorem witness_OtherHostAccessesAreRefused_size :
    ¬ (2 = 4 ∧ ∃ j, j < 8 ∧ 0x40 = (withHostDoing [.read 0x40 2]).host.base + 4 * j) ∧
    (withHostDoing [.read 0x40 2]).host.pending = .read 0x40 2 :: [] := by decide

theorem witness_OtherHostAccessesAreRefused_beyond :
    ¬ (4 = 4 ∧ ∃ j, j < 8 ∧ 0x60 = (withHostDoing [.write 0x60 4 0]).host.base + 4 * j) ∧
    (withHostDoing [.write 0x60 4 0]).host.pending = .write 0x60 4 0 :: [] := by decide

theorem witness_OtherHostAccessesAreRefused_misaligned :
    ¬ (4 = 4 ∧ ∃ j, j < 8 ∧ 0x42 = (withHostDoing [.read 0x42 4]).host.base + 4 * j) ∧
    (withHostDoing [.read 0x42 4]).host.pending = .read 0x42 4 :: [] := by decide

theorem witness_WindowReadsShowTheRegisters_first :
    (withHostDoing [.read 0x40 4]).busy = false ∧ 0 < 8 ∧
    (withHostDoing [.read 0x40 4]).host.pending =
      .read ((withHostDoing [.read 0x40 4]).host.base + 4 * 0) 4 :: [] := by decide

theorem witness_WindowReadsShowTheRegisters_last :
    (withHostDoing [.read 0x5C 4]).busy = false ∧ 7 < 8 ∧
    (withHostDoing [.read 0x5C 4]).host.pending =
      .read ((withHostDoing [.read 0x5C 4]).host.base + 4 * 7) 4 :: [] := by decide

theorem witness_ReadsWhileBusyArePermitted_cmd :
    ((withHostDoing [.read 0x40 4]).withBusy true).busy = true ∧ 0 < 8 ∧
    ((withHostDoing [.read 0x40 4]).withBusy true).host.pending =
      .read (((withHostDoing [.read 0x40 4]).withBusy true).host.base + 4 * 0) 4 :: [] := by decide

theorem witness_ReadsWhileBusyArePermitted_status :
    ((withHostDoing [.read 0x44 4]).withBusy true).busy = true ∧ 1 < 8 ∧
    ((withHostDoing [.read 0x44 4]).withBusy true).host.pending =
      .read (((withHostDoing [.read 0x44 4]).withBusy true).host.base + 4 * 1) 4 :: [] := by decide

theorem witness_ReadsWhileBusyArePermitted_value :
    ((withHostDoing [.read 0x48 4]).withBusy true).busy = true ∧ 2 < 8 ∧
    ((withHostDoing [.read 0x48 4]).withBusy true).host.pending =
      .read (((withHostDoing [.read 0x48 4]).withBusy true).host.base + 4 * 2) 4 :: [] := by decide

theorem witness_ReadsWhileBusyArePermitted_id :
    ((withHostDoing [.read 0x50 4]).withBusy true).busy = true ∧ 4 < 8 ∧
    ((withHostDoing [.read 0x50 4]).withBusy true).host.pending =
      .read (((withHostDoing [.read 0x50 4]).withBusy true).host.base + 4 * 4) 4 :: [] := by decide

theorem witness_ReadsWhileBusyArePermitted_reserved :
    ((withHostDoing [.read 0x54 4]).withBusy true).busy = true ∧ 5 < 8 ∧
    ((withHostDoing [.read 0x54 4]).withBusy true).host.pending =
      .read (((withHostDoing [.read 0x54 4]).withBusy true).host.base + 4 * 5) 4 :: [] := by decide

theorem witness_ReadsWhileBusyArePermitted_last :
    ((withHostDoing [.read 0x5C 4]).withBusy true).busy = true ∧ 7 < 8 ∧
    ((withHostDoing [.read 0x5C 4]).withBusy true).host.pending =
      .read (((withHostDoing [.read 0x5C 4]).withBusy true).host.base + 4 * 7) 4 :: [] := by decide

theorem witness_WritesToOtherWordsAreIgnored_first : 1 ≤ 1 ∧ 1 < 8 ∧
    (withHostDoing [.write 0x44 4 5]).host.pending =
      .write ((withHostDoing [.write 0x44 4 5]).host.base + 4 * 1) 4 5 :: [] := by decide

theorem witness_WritesToOtherWordsAreIgnored_last : 1 ≤ 7 ∧ 7 < 8 ∧
    (withHostDoing [.write 0x5C 4 5]).host.pending =
      .write ((withHostDoing [.write 0x5C 4 5]).host.base + 4 * 7) 4 5 :: [] := by decide

theorem witness_EveryCmdWriteCompletes :
    (withHostDoing [.write 0x40 4 0xFFFFFFFF]).busy = false ∧
    (withHostDoing [.write 0x40 4 0xFFFFFFFF]).host.pending =
      .write (withHostDoing [.write 0x40 4 0xFFFFFFFF]).host.base 4 0xFFFFFFFF :: [] := by decide

theorem witness_DecodeOfEncodeIsTheCommand : (Instr.cget 511 7).wellFormed = true := by decide

theorem witness_DecodedWordIsTheEncoding : decode 0x32FF01FF = some (.lset 511 255) := by decide

theorem witness_AtMostOneRowMatches :
    opcodeRows[9]? = some ⟨"FGET", 0x22000000, 0xFFFFFE00, fun w => .fget (fieldSym w)⟩ ∧
    OpcodeRow.hits ⟨"FGET", 0x22000000, 0xFFFFFE00, fun w => .fget (fieldSym w)⟩ 0x220001FF = true :=
  ⟨rfl, by decide⟩

theorem witness_FirstFailedCheckIsReported_first :
    Live State.reset ∧ checksOf State.reset (.henc 322) =
      [] ++ symbolCheck 322 :: [codeCheck State.reset, openCheck State.reset] ∧
    (symbolCheck 322).passes = false := ⟨rfl, rfl, by decide⟩

theorem witness_FirstFailedCheckIsReported_later :
    Live State.reset ∧ checksOf State.reset (.henc 321) =
      [symbolCheck 321] ++ codeCheck State.reset :: [openCheck State.reset] ∧
    (∀ p ∈ [symbolCheck 321], p.passes = true) ∧ (codeCheck State.reset).passes = false :=
  ⟨rfl, rfl, by simp [symbolCheck], rfl⟩

theorem witness_RaisedCausesAreThoseOfTheTable :
    Live State.reset ∧ TreeOk State.reset ∧
    exec .ctree State.reset = .next (State.reset.withEr { err := 0x51, halt := true, info := 0x30000000 }) :=
  ⟨rfl, (by intro h; cases h), rfl⟩

/-- For every statement whose one hypothesis is `Live s`. -/
theorem witness_live : Live State.reset := rfl

/-- Reset with a packer. -/
def packed (s : State) (acc : Byte) (cnt : BitVec 3) : State := s.withBo { acc := acc, cnt := cnt, closed := false }

theorem witness_BwrPacksOneBit_partial :
    Live (packed State.reset 63 6) ∧ (packed State.reset 63 6).bo.closed = false ∧
    (packed State.reset 63 6).bo.cnt ≠ 7 := by decide

theorem witness_BwrPacksOneBit_byte :
    Live (packed (withLimit 1) 127 7) ∧ (packed (withLimit 1) 127 7).bo.closed = false ∧
    (packed (withLimit 1) 127 7).bo.cnt = 7 ∧ OutRoom 1 (packed (withLimit 1) 127 7) :=
  ⟨rfl, rfl, rfl, Nat.le_refl 1⟩

theorem witness_BwrPacksOneBit_refused :
    Live (packed (withLimit 0) 127 7) ∧ (packed (withLimit 0) 127 7).bo.closed = false ∧
    (packed (withLimit 0) 127 7).bo.cnt = 7 ∧ ¬ OutRoom 1 (packed (withLimit 0) 127 7) :=
  ⟨rfl, rfl, rfl, Nat.not_succ_le_zero 0⟩

theorem witness_BfinPadsAndCloses_empty :
    Live State.reset ∧ State.reset.bo.closed = false ∧ State.reset.bo.cnt = 0 := by decide

theorem witness_BfinPadsAndCloses_byte :
    Live (packed (withLimit 1) 1 1) ∧ (packed (withLimit 1) 1 1).bo.closed = false ∧
    (packed (withLimit 1) 1 1).bo.cnt ≠ 0 ∧ OutRoom 1 (packed (withLimit 1) 1 1) :=
  ⟨rfl, rfl, by decide, Nat.le_refl 1⟩

theorem witness_BfinPadsAndCloses_refused :
    Live (packed (withLimit 0) 1 1) ∧ (packed (withLimit 0) 1 1).bo.closed = false ∧
    (packed (withLimit 0) 1 1).bo.cnt ≠ 0 ∧ ¬ OutRoom 1 (packed (withLimit 0) 1 1) :=
  ⟨rfl, rfl, by decide, Nat.not_succ_le_zero 0⟩

/-- Reset with an unpacker. -/
def unpacked (s : State) (buf : Byte) (rem : BitVec 4) (eos : Bool) : State :=
  s.withBi { buf := buf, rem := rem, eos := eos }

/-- Reset with an IN port that ends in an I/O error. -/
def withBadIn : State := State.reset.withInp { bytes := [], pos := 0, atEnd := .ioerr }

/-- The clauses of BrdReadsOneBit and BrdneNeedsABit. -/
theorem witness_BrdReadsOneBit_buffered :
    Live (unpacked State.reset 1 1 false) ∧ (unpacked State.reset 1 1 false).bi.rem ≠ 0 := by decide

theorem witness_BrdReadsOneBit_refill :
    Live (withIn [7]) ∧ (withIn [7]).bi.rem = 0 ∧ (withIn [7]).bi.eos = false ∧
    (withIn [7]).inp.bytes[(withIn [7]).inp.pos]? = some 7 := by decide

theorem witness_BrdReadsOneBit_ended :
    Live (unpacked (withIn [7]) 0 0 true) ∧ (unpacked (withIn [7]) 0 0 true).bi.rem = 0 ∧
    (unpacked (withIn [7]) 0 0 true).bi.eos = true := by decide

theorem witness_BrdReadsOneBit_eos :
    Live State.reset ∧ State.reset.bi.rem = 0 ∧ State.reset.bi.eos = false ∧
    State.reset.inp.bytes[State.reset.inp.pos]? = none ∧ State.reset.inp.atEnd = .eos := by decide

theorem witness_BrdReadsOneBit_ioerr :
    Live withBadIn ∧ withBadIn.bi.rem = 0 ∧ withBadIn.bi.eos = false ∧
    withBadIn.inp.bytes[withBadIn.inp.pos]? = none ∧ withBadIn.inp.atEnd = .ioerr := by decide

theorem witness_PackingLaw_refused :
    ¬ OutRoom (((withLimit 1).bo.cnt.toNat + (List.replicate 16 true).length) / 8) (withLimit 1) :=
  Nat.not_succ_le_self 1

theorem witness_PackingLaw_fits :
    OutRoom (((withLimit 1).bo.cnt.toNat + (List.replicate 15 true).length) / 8) (withLimit 1) := Nat.le_refl 1

theorem witness_UnpackingLaw_bit : Live (withIn [128]) ∧
    unreadBits (withIn [128]) = true :: List.replicate 7 false := by decide

theorem witness_UnpackingLaw_end : Live (withIn []) ∧ unreadBits (withIn []) = [] ∧ EndsClean (withIn []) :=
  ⟨rfl, rfl, .inr rfl⟩

theorem witness_FincCountsOrOverflows_counts :
    Live (State.reset.setFreq 321 0xFFFFFFFE) ∧ 321 < 322 ∧
    (State.reset.setFreq 321 0xFFFFFFFE).freqAt 321 ≠ 0xFFFFFFFF := by decide

theorem witness_FincCountsOrOverflows_overflows :
    Live (State.reset.setFreq 321 0xFFFFFFFF) ∧ 321 < 322 ∧
    (State.reset.setFreq 321 0xFFFFFFFF).freqAt 321 = 0xFFFFFFFF := by decide

theorem witness_UnbuiltTreeIsNeverRead :
    State.reset.fq.valid = false ∧ exec .nop State.reset = .next State.reset := ⟨rfl, rfl⟩

theorem witness_ClenAssignsTheCanonicalCode :
    Live (coded State.reset) ∧ kraftSum (coded State.reset).cn.len = 2 ^ 255 := ⟨rfl, exampleLen_complete⟩

theorem witness_ClenRejectsIncompleteTables_underfull :
    Live (State.reset.setLen 65 1) ∧ kraftSum (State.reset.setLen 65 1).cn.len < 2 ^ 255 := by
  refine ⟨rfl, ?_⟩
  have h (j : Nat) : lenNat (State.reset.setLen 65 1).cn.len j = if 65 = j then 1 else 0 :=
    (lenNat_set _ 65 1 (by decide) j).trans (by rw [show State.reset.cn.len = Vector.replicate 322 0 from rfl, lenNat_zero]; rfl)
  rw [kraftSum_of h]
  decide

theorem witness_ClenRejectsIncompleteTables_overfull :
    Live ((coded State.reset).setLen 68 255) ∧ kraftSum ((coded State.reset).setLen 68 255).cn.len > 2 ^ 255 := by
  refine ⟨rfl, ?_⟩
  have h (j : Nat) : lenNat ((coded State.reset).setLen 68 255).cn.len j =
      if 68 = j then 255 else if 67 = j then 2 else if 66 = j then 2 else if 65 = j then 1 else 0 :=
    (lenNat_set exampleLen 68 255 (by decide) j).trans (by rw [lenNat_example]; rfl)
  rw [kraftSum_of h]
  decide

theorem witness_CanonicalTreeIsStrict :
    kraftSum exampleLen = 2 ^ 255 ∧ 67 ∈ codedSymbols exampleLen ∧
    (buildCodeTree exampleLen (assignCodes exampleLen)).follow [true, true] = .leaf 67 ∧
    (buildCodeTree exampleLen (assignCodes exampleLen)).follow [true] = .node (.leaf 66) (.leaf 67) := by
  refine ⟨exampleLen_complete, by rw [exampleLen_coded]; decide, ?_, ?_⟩ <;>
    rw [← exampleCode_canonical.1, ← exampleCode_canonical.2] <;> rfl

/-! The Huffman tree of an all-zero table: merge `k` joins nodes `2k` and `2k + 1` (R173). -/

theorem lesserKey_zero {a b : Nat} (h : a ≤ b) : lesserKey (0, a) (0, b) = (0, a) := by
  simp [lesserKey, keyLe, h]

theorem foldl_lesserKey_zero (l : List Nat) (a : Nat) (h : ∀ b ∈ l, a ≤ b) :
    (l.map fun b => ((0, b) : PoolKey)).foldl lesserKey (0, a) = (0, a) := by
  induction l with
  | nil => rfl
  | cons b l ih =>
    rw [List.map_cons, List.foldl_cons, lesserKey_zero (h b (by simp))]
    exact ih fun c hc => h c (by simp [hc])

/-- The pool of the nodes `a, …, a + n - 1`, all of weight 0. -/
def zeroPool (a n : Nat) : List PoolKey := (List.range' a n).map fun b => (0, b)

theorem removeLeast_zeroPool (a n : Nat) : removeLeast (zeroPool a (n + 1)) = some ((0, a), zeroPool (a + 1) n) := by
  have h : ((List.range' (a + 1) n).map fun b => ((0, b) : PoolKey)).foldl lesserKey (0, a) = (0, a) :=
    foldl_lesserKey_zero _ a fun b hb => by
      have := List.mem_range'_1.mp hb
      omega
  rw [zeroPool, List.range'_succ, List.map_cons, removeLeast, h, List.erase_cons_head]
  rfl

theorem zeroPool_append (a n : Nat) : zeroPool a n ++ [(0, a + n)] = zeroPool a (n + 1) := by
  simp [zeroPool, List.range'_concat]

theorem mergeLoop_zeroPool (fuel a : Nat) :
    mergeLoop fuel (a + fuel + 1) (zeroPool a (fuel + 1)) =
      (List.range fuel).map fun k => ⟨a + 2 * k, a + 2 * k + 1, 0⟩ := by
  induction fuel generalizing a with
  | zero => rfl
  | succ f ih =>
    rw [mergeLoop, removeLeast_zeroPool]
    simp only
    rw [removeLeast_zeroPool]
    simp only [Nat.add_zero]
    have e : a + (f + 1) + 1 = a + 1 + 1 + f := by omega
    rw [e, zeroPool_append, show a + 1 + 1 + f + 1 = (a + 2) + f + 1 by omega, ih, List.range_succ_eq_map, List.map_cons,
      List.map_map]
    congr 1
    refine List.map_congr_left fun k _ => ?_
    simp only [Function.comp, Merge.mk.injEq, and_true]
    omega

/-- FREQ after reset. -/
abbrev zeroFreq : Vector (BitVec 32) 322 := Vector.replicate 322 0

theorem leafPool_zero : leafPool zeroFreq = zeroPool 0 322 := by
  rw [leafPool, zeroPool, List.range_eq_range']
  refine List.map_congr_left fun i hi => ?_
  have := List.mem_range'_1.mp hi
  simp [show i < 322 by omega]

theorem merges_zero : merges zeroFreq = (List.range 321).map fun k => ⟨0 + 2 * k, 0 + 2 * k + 1, 0⟩ := by
  rw [merges, leafPool_zero]
  exact mergeLoop_zeroPool 321 0

theorem children_zero (n : Nat) (h : 322 ≤ n) (h' : n ≤ 642) :
    (buildTree zeroFreq).leftOf n = 2 * (n - 322) ∧ (buildTree zeroFreq).rightOf n = 2 * (n - 322) + 1 := by
  simp only [HuffTree.leftOf, HuffTree.rightOf, buildTree, merges_zero]
  rw [tableOf_getElem? _ _ _ _ (by omega) (by simp; omega), tableOf_getElem? _ _ _ _ (by omega) (by simp; omega)]
  simp only [List.map_map, List.getElem?_map, List.getElem?_range (show n - 322 < 321 by omega), Option.map_some,
    Option.getD_some, Function.comp, BitVec.toNat_ofNat]
  omega

theorem depth_zero (fuel n d : Nat) (h : n ≤ 642) (hd : 2 ^ d ≤ 643 - n) :
    ∀ x ∈ leafDepths (buildTree zeroFreq) fuel n d, x.2 ≤ 9 := by
  induction fuel generalizing n d with
  | zero => intro x hx; cases hx
  | succ f ih =>
    intro x hx
    rw [leafDepths] at hx
    split at hx
    · obtain rfl := List.mem_singleton.mp hx
      by_contra hc
      have : 2 ^ 10 ≤ 2 ^ d := Nat.pow_le_pow_right (by decide) (Nat.not_le.mp hc)
      omega
    · have hc := children_zero n (by omega) h
      have hp : 2 ^ (d + 1) = 2 * 2 ^ d := by ring
      rcases List.mem_append.mp hx with hx | hx
      · rw [hc.1] at hx
        exact ih _ _ (by omega) (by omega) x hx
      · rw [hc.2] at hx
        exact ih _ _ (by omega) (by omega) x hx

theorem depthIn_le (ds : List (Nat × Nat)) (m sym : Nat) (h : ∀ x ∈ ds, x.2 ≤ m) : depthIn ds sym ≤ m := by
  unfold depthIn
  cases hl : ds.lookup sym with
  | none => exact Nat.zero_le m
  | some d =>
    obtain ⟨k, hk⟩ : ∃ k, (k, d) ∈ ds := by
      obtain ⟨l₁, l₂, rfl, -⟩ := List.lookup_eq_some_iff.mp hl
      exact ⟨sym, by simp⟩
    exact h _ hk

/-- Reset after FBUILD. -/
def built : State := State.reset.withFq { freq := zeroFreq, ht := buildTree zeroFreq, valid := true }

theorem witness_CtreeTakesLengthsFromTheTree :
    Live built ∧ built.fq.valid = true ∧ TreeOk built ∧
    ∀ sym, sym < 322 → depthIn built.fq.ht.depths sym < 256 :=
  ⟨rfl, rfl, fun _ => rfl, fun sym _ =>
    Nat.lt_of_le_of_lt (depthIn_le _ 9 sym (depth_zero 322 642 0 (Nat.le_refl _) (Nat.le_refl _))) (by decide)⟩

/-- A tree whose internal nodes hang one below the other, down to the leaves 0 and 1 at depth 321. -/
def deep : State := State.reset.withFq { State.reset.fq with
  valid := true
  ht := { HuffTree.zero with
    left  := tableOf 321 0 ((List.range 321).map fun k => BitVec.ofNat 10 (k + 1))
    right := tableOf 321 0 ((List.range 321).map fun k => if k = 0 then 0 else BitVec.ofNat 10 (321 + k)) } }

theorem children_deep (k : Nat) (h : k < 321) :
    deep.fq.ht.leftOf (322 + k) = k + 1 ∧ deep.fq.ht.rightOf (322 + k) = if k = 0 then 0 else 321 + k := by
  simp only [HuffTree.leftOf, HuffTree.rightOf, deep, State.withFq, Nat.add_sub_cancel_left]
  rw [tableOf_getElem? _ _ _ _ h (by simpa using h), tableOf_getElem? _ _ _ _ h (by simpa using h)]
  simp only [List.getElem?_map, List.getElem?_range h, Option.map_some, Option.getD_some, BitVec.toNat_ofNat]
  refine ⟨by omega, ?_⟩
  split
  · rfl
  · rw [BitVec.toNat_ofNat]
    omega

theorem lookup_deep (k fuel d : Nat) (h : k < 321) :
    (leafDepths deep.fq.ht (fuel + k + 2) (322 + k) d).lookup 0 = some (d + k + 1) := by
  induction k generalizing d with
  | zero =>
    rw [leafDepths, if_neg (by omega), (children_deep 0 h).1, (children_deep 0 h).2, leafDepths, leafDepths]
    rfl
  | succ k ih =>
    rw [leafDepths, if_neg (by omega), (children_deep _ h).1, (children_deep _ h).2, if_neg (by omega),
      show fuel + (k + 1) + 1 = fuel + k + 1 + 1 from rfl, leafDepths, if_pos (by omega), List.singleton_append,
      List.lookup_cons, show (0 == k + 1 + 1) = false by simp, show 321 + (k + 1) = 322 + k by omega, ih _ (by omega)]
    exact congrArg some (show d + 1 + k + 1 = d + (k + 1) + 1 by omega)

theorem witness_CtreeRejectsDeepTrees :
    Live deep ∧ deep.fq.valid = true ∧ 0 < 322 ∧ 256 ≤ depthIn deep.fq.ht.depths 0 ∧
    ∀ lower, lower < 0 → depthIn deep.fq.ht.depths lower < 256 := by
  have h : depthIn deep.fq.ht.depths 0 = 321 := by
    rw [depthIn, HuffTree.depths, show 642 = 322 + 320 from rfl, lookup_deep 320 0 0 (by decide)]
    rfl
  exact ⟨rfl, rfl, by decide, by omega, fun _ h => absurd h (Nat.not_lt_zero _)⟩

theorem witness_LengthAndCodeAccess :
    Live (coded State.reset) ∧ 321 < 322 ∧ (coded State.reset).cn.valid = true := by decide

theorem witness_HdrwWritesTheHeader :
    Live (coded (withLimit 322)) ∧ (coded (withLimit 322)).cn.valid = true ∧
    (coded (withLimit 322)).bo.closed = false ∧ OutRoom 322 (coded (withLimit 322)) ∧
    (coded (withLimit 322)).bo.cnt = 0 := ⟨rfl, rfl, rfl, Nat.le_refl 322, rfl⟩

theorem witness_HdrwWritesTheHeader_refused :
    Live (coded (withLimit 321)) ∧ (coded (withLimit 321)).cn.valid = true ∧
    (coded (withLimit 321)).bo.closed = false ∧ ¬ OutRoom 322 (coded (withLimit 321)) :=
  ⟨rfl, rfl, rfl, Nat.not_succ_le_self 321⟩

theorem flatMap_replicate_zero (n : Nat) :
    (List.replicate n (0 : Byte)).flatMap byteBits = List.replicate (8 * n) false := by
  induction n with
  | zero => rfl
  | succ n ih =>
    rw [List.replicate_succ, List.flatMap_cons, ih, Nat.mul_succ, Nat.add_comm, List.replicate_add]
    rfl

theorem unreadBits_withIn (n : Nat) :
    unreadBits (withIn (List.replicate n 0)) = List.replicate (8 * n) false :=
  (List.nil_append _).trans (flatMap_replicate_zero n)

theorem witness_HdrrReadsTheHeader :
    Live (withIn (List.replicate 322 0)) ∧
    unreadBits (withIn (List.replicate 322 0)) = List.replicate 2576 false ++ [] ∧
    (List.replicate 2576 false).length = 2576 :=
  ⟨rfl, by rw [unreadBits_withIn, List.append_nil], List.length_replicate⟩

theorem witness_HdrrOnShortStreams_empty :
    Live (withIn []) ∧ (unreadBits (withIn [])).length < 2576 ∧ EndsClean (withIn []) :=
  ⟨rfl, by decide, .inr rfl⟩

theorem witness_HdrrOnShortStreams_almost :
    Live (unpacked (withIn (List.replicate 321 0)) 0 7 false) ∧
    (unreadBits (unpacked (withIn (List.replicate 321 0)) 0 7 false)).length = 2575 ∧
    EndsClean (unpacked (withIn (List.replicate 321 0)) 0 7 false) := by
  refine ⟨rfl, ?_, .inr rfl⟩
  simp only [unreadBits, unpacked, withIn, State.withBi, State.withInp, Bool.false_eq_true, if_false, List.drop_zero,
    flatMap_replicate_zero, List.length_append, bitsMsbFirst_length, List.length_replicate]
  rfl

theorem badIn_unclean : ¬ EndsClean withBadIn := by rintro (h | h) <;> cases h

theorem witness_HdrrOnShortStreams_ioerr :
    Live withBadIn ∧ (unreadBits withBadIn).length < 2576 ∧ ¬ EndsClean withBadIn :=
  ⟨rfl, by decide, badIn_unclean⟩

/-- A pending run of `n` zero bytes. -/
def running (s : State) (m : Pass) (n : BitVec 66) : State := s.withEsc { counting := true, mode := m, run := n }

theorem witness_ZeroByteCountsTheRun_starts :
    Live (coded State.reset) ∧ (coded State.reset).cn.valid = true ∧ (coded State.reset).bo.closed = false ∧
    (coded State.reset).esc.counting = false := by decide

theorem witness_ZeroByteCountsTheRun_lengthens :
    Live (running (coded State.reset) .encoding (BitVec.ofNat 66 (2 ^ 66 - 2))) ∧
    (running (coded State.reset) .encoding (BitVec.ofNat 66 (2 ^ 66 - 2))).cn.valid = true ∧
    (running (coded State.reset) .encoding (BitVec.ofNat 66 (2 ^ 66 - 2))).bo.closed = false ∧
    (running (coded State.reset) .encoding (BitVec.ofNat 66 (2 ^ 66 - 2))).esc.counting = true ∧
    (running (coded State.reset) .encoding (BitVec.ofNat 66 (2 ^ 66 - 2))).esc.mode = .encoding ∧
    (running (coded State.reset) .encoding (BitVec.ofNat 66 (2 ^ 66 - 2))).esc.run.toNat ≠ 2 ^ 66 - 1 := by decide

theorem witness_ZeroByteCountsTheRun_raises :
    Live (running State.reset .counting (BitVec.ofNat 66 (2 ^ 66 - 1))) ∧
    (running State.reset .counting (BitVec.ofNat 66 (2 ^ 66 - 1))).esc.counting = true ∧
    (running State.reset .counting (BitVec.ofNat 66 (2 ^ 66 - 1))).esc.mode = .counting ∧
    (running State.reset .counting (BitVec.ofNat 66 (2 ^ 66 - 1))).esc.run.toNat = 2 ^ 66 - 1 := by decide

theorem freqAt_reset (sym : Nat) : State.reset.freqAt sym ≠ 0xFFFFFFFF := by
  have h : State.reset.freqAt sym = 0 := by
    simp only [State.freqAt, State.reset, Vector.getElem?_replicate]
    split <;> rfl
  rw [h]
  decide

/-- A run of every symbol. -/
theorem witness_CendCountsThePendingRun :
    Live (running State.reset .counting (BitVec.allOnes 66)) ∧
    ((running State.reset .counting (BitVec.allOnes 66)).esc.counting = true →
      (running State.reset .counting (BitVec.allOnes 66)).esc.mode = .counting) ∧
    ∀ i, i < 66 → (pendingRun (running State.reset .counting (BitVec.allOnes 66))).getLsbD i = true →
      (running State.reset .counting (BitVec.allOnes 66)).freqAt (runSymbol i) ≠ 0xFFFFFFFF :=
  ⟨rfl, fun _ => rfl, fun _ _ _ => freqAt_reset _⟩

/-- A run of 3, whose second symbol, 0, has its counter full. -/
def runFull : State := running (State.reset.setFreq 0 0xFFFFFFFF) .counting 3

theorem witness_CendCountsThePendingRun_full :
    Live runFull ∧ (runFull.esc.counting = true → runFull.esc.mode = .counting) ∧
    flushSymbols (pendingRun runFull) = [257] ++ 0 :: [] ∧ (∀ sym ∈ [257], runFull.freqAt sym ≠ 0xFFFFFFFF) ∧
    runFull.freqAt 0 = 0xFFFFFFFF := by decide

/-- The literal's own counter is full, with no run pending. -/
theorem witness_CbyteCountsALiteral_full :
    Live (State.reset.setFreq 255 0xFFFFFFFF) ∧ (255 : Byte) ≠ 0 ∧
    ((State.reset.setFreq 255 0xFFFFFFFF).esc.counting = true →
      (State.reset.setFreq 255 0xFFFFFFFF).esc.mode = .counting) ∧
    flushSymbols (pendingRun (State.reset.setFreq 255 0xFFFFFFFF)) ++ [(255 : Byte).toNat] = [] ++ 255 :: [] ∧
    (State.reset.setFreq 255 0xFFFFFFFF).freqAt 255 = 0xFFFFFFFF := by decide

theorem witness_CbyteCountsALiteral :
    Live (running State.reset .counting (BitVec.allOnes 66)) ∧ (255 : Byte) ≠ 0 ∧
    ((running State.reset .counting (BitVec.allOnes 66)).esc.counting = true →
      (running State.reset .counting (BitVec.allOnes 66)).esc.mode = .counting) ∧
    (∀ i, i < 66 → (pendingRun (running State.reset .counting (BitVec.allOnes 66))).getLsbD i = true →
      (running State.reset .counting (BitVec.allOnes 66)).freqAt (runSymbol i) ≠ 0xFFFFFFFF) ∧
    (running State.reset .counting (BitVec.allOnes 66)).freqAt (255 : Byte).toNat ≠ 0xFFFFFFFF :=
  ⟨rfl, by decide, fun _ => rfl, fun _ _ _ => freqAt_reset _, freqAt_reset _⟩

/-- What EncodingPassSendsCodes asks of the state, whichever clause. -/
abbrev SendsTo (s : State) : Prop :=
  Live s ∧ s.cn.valid = true ∧ s.bo.closed = false ∧ (s.esc.counting = true → s.esc.mode = .encoding)

theorem witness_EncodingPassSendsCodes_ebyte :
    SendsTo (coded (withLimit 0)) ∧ (66 : Byte) ≠ 0 ∧
    flushSymbols (pendingRun (coded (withLimit 0))) ++ [(66 : Byte).toNat] = [66] ∧
    (∀ sym ∈ [66], (coded (withLimit 0)).lenAt sym ≠ 0) ∧
    OutRoom (((coded (withLimit 0)).bo.cnt.toNat + (codesOf (coded (withLimit 0)) [66]).length) / 8)
      (coded (withLimit 0)) :=
  ⟨by decide, by decide, by decide, by decide, (by decide : _ ≤ 0)⟩

/-- A code in which symbol 0 has one bit, so that a run can be sent. -/
def zeroCoded (s : State) : State := (coded s).setLen 0 1

theorem witness_EncodingPassSendsCodes_eend :
    SendsTo (running (zeroCoded (withLimit 0)) .encoding 1) ∧
    flushSymbols (pendingRun (running (zeroCoded (withLimit 0)) .encoding 1)) = [0] ∧
    (∀ sym ∈ [0], (running (zeroCoded (withLimit 0)) .encoding 1).lenAt sym ≠ 0) ∧
    OutRoom (((running (zeroCoded (withLimit 0)) .encoding 1).bo.cnt.toNat +
      (codesOf (running (zeroCoded (withLimit 0)) .encoding 1) [0]).length) / 8)
      (running (zeroCoded (withLimit 0)) .encoding 1) :=
  ⟨by decide, by decide, by decide, (by decide : _ ≤ 0)⟩

/-- The run's symbol has a code and the byte has none. -/
theorem witness_EncodingPassSendsCodes_bare :
    SendsTo (running (zeroCoded (withLimit 0)) .encoding 1) ∧ (255 : Byte) ≠ 0 ∧
    flushSymbols (pendingRun (running (zeroCoded (withLimit 0)) .encoding 1)) ++ [(255 : Byte).toNat] =
      [0] ++ 255 :: [] ∧
    (∀ sym ∈ [0], (running (zeroCoded (withLimit 0)) .encoding 1).lenAt sym ≠ 0) ∧
    (running (zeroCoded (withLimit 0)) .encoding 1).lenAt 255 = 0 ∧
    OutRoom (((running (zeroCoded (withLimit 0)) .encoding 1).bo.cnt.toNat +
      (codesOf (running (zeroCoded (withLimit 0)) .encoding 1) [0]).length) / 8)
      (running (zeroCoded (withLimit 0)) .encoding 1) :=
  ⟨by decide, by decide, by decide, by decide, by decide, (by decide : _ ≤ 0)⟩

/-- The eighth bit is refused: the run's symbol fills the packer's byte. -/
theorem witness_EncodingPassSendsCodes_refused :
    SendsTo (running (packed (zeroCoded (withLimit 0)) 127 7) .encoding 1) ∧
    flushSymbols (pendingRun (running (packed (zeroCoded (withLimit 0)) 127 7) .encoding 1)) = [0] ++ [] ∧
    (∀ sym ∈ [0], (running (packed (zeroCoded (withLimit 0)) 127 7) .encoding 1).lenAt sym ≠ 0) ∧
    ¬ OutRoom (((running (packed (zeroCoded (withLimit 0)) 127 7) .encoding 1).bo.cnt.toNat +
      (codesOf (running (packed (zeroCoded (withLimit 0)) 127 7) .encoding 1) [0]).length) / 8)
      (running (packed (zeroCoded (withLimit 0)) 127 7) .encoding 1) :=
  ⟨by decide, by decide, by decide, (by decide : ¬ _ ≤ 0)⟩

theorem witness_XsymEmitsTheSymbolsBytes_room :
    Live State.reset ∧ 321 < 322 ∧ OutRoom (symbolBytes 321).length State.reset := ⟨rfl, by decide, trivial⟩

theorem witness_XsymEmitsTheSymbolsBytes_refused :
    Live (withLimit 1) ∧ 257 < 322 ∧ ¬ OutRoom (symbolBytes 257).length (withLimit 1) :=
  ⟨rfl, by decide, Nat.not_succ_le_self 1⟩

theorem witness_HencSendsTheCode_sends :
    Live (coded (withLimit 0)) ∧ 67 < 322 ∧ (coded (withLimit 0)).cn.valid = true ∧
    (coded (withLimit 0)).bo.closed = false ∧ (coded (withLimit 0)).lenAt 67 ≠ 0 ∧
    OutRoom (((coded (withLimit 0)).bo.cnt.toNat + ((coded (withLimit 0)).lenAt 67).toNat) / 8) (coded (withLimit 0)) := by
  refine ⟨rfl, by decide, rfl, rfl, by decide, ?_⟩
  show _ ≤ 0
  decide

theorem witness_HencSendsTheCode_refused :
    Live (packed (coded (withLimit 0)) 127 7) ∧ 65 < 322 ∧ (packed (coded (withLimit 0)) 127 7).cn.valid = true ∧
    (packed (coded (withLimit 0)) 127 7).bo.closed = false ∧ (packed (coded (withLimit 0)) 127 7).lenAt 65 ≠ 0 ∧
    ¬ OutRoom (((packed (coded (withLimit 0)) 127 7).bo.cnt.toNat +
      ((packed (coded (withLimit 0)) 127 7).lenAt 65).toNat) / 8) (packed (coded (withLimit 0)) 127 7) :=
  ⟨rfl, by decide, rfl, rfl, by decide, (by decide : ¬ _ ≤ 0)⟩

theorem witness_HencSendsTheCode_no_code :
    Live (coded State.reset) ∧ 321 < 322 ∧ (coded State.reset).cn.valid = true ∧
    (coded State.reset).bo.closed = false ∧ (coded State.reset).lenAt 321 = 0 := by decide

theorem witness_HdecFollowsCtToALeaf :
    Live (coded (withIn [0xB0])) ∧ (coded (withIn [0xB0])).cn.valid = true ∧ [true, false] ≠ [] ∧
    (coded (withIn [0xB0])).cn.ct.follow [true, false] = .leaf 66 ∧
    unreadBits (coded (withIn [0xB0])) = [true, false] ++ [true, true, false, false, false, false] := by decide

theorem witness_XdecEmitsTheDecodedSymbol :
    Live (coded (withIn [0xB0])) ∧ (coded (withIn [0xB0])).cn.valid = true ∧ [true, false] ≠ [] ∧
    (coded (withIn [0xB0])).cn.ct.follow [true, false] = .leaf 66 ∧
    unreadBits (coded (withIn [0xB0])) = [true, false] ++ [true, true, false, false, false, false] ∧
    OutRoom (symbolBytes 66).length (coded (withIn [0xB0])) :=
  ⟨rfl, rfl, by decide, by decide, by decide, trivial⟩

/-- R197's code with IN bytes and an OUT that takes no byte. -/
def fullOut : State := (coded (withIn [0xB0])).withOutp { bytes := [], limit := some 0 }

theorem witness_XdecEmitsTheDecodedSymbol_refused :
    Live fullOut ∧ fullOut.cn.valid = true ∧ [true, false] ≠ [] ∧ fullOut.cn.ct.follow [true, false] = .leaf 66 ∧
    unreadBits fullOut = [true, false] ++ [true, true, false, false, false, false] ∧
    ¬ OutRoom (symbolBytes 66).length fullOut :=
  ⟨rfl, rfl, by decide, by decide, by decide, Nat.not_succ_le_zero 0⟩

/-- What DecodingATruncatedSymbol asks of the stream: no beginning of it leads to a leaf. -/
abbrev EndsBeforeALeaf (s : State) : Prop :=
  ∀ path rest sym, unreadBits s = path ++ rest → path ≠ [] → s.cn.ct.follow path ≠ .leaf sym

/-- The stream ends inside a code. -/
theorem witness_DecodingATruncatedSymbol_inside :
    Live (unpacked (coded State.reset) 1 1 false) ∧ (unpacked (coded State.reset) 1 1 false).cn.valid = true ∧
    EndsClean (unpacked (coded State.reset) 1 1 false) ∧ EndsBeforeALeaf (unpacked (coded State.reset) 1 1 false) := by
  refine ⟨rfl, rfl, .inr rfl, ?_⟩
  intro path rest sym h hp
  have h' : [true] = path ++ rest := h
  rcases path with _ | ⟨b, path⟩
  · exact absurd rfl hp
  · obtain ⟨rfl, e⟩ := List.cons.inj h'
    obtain ⟨rfl, -⟩ := List.append_eq_nil_iff.mp e.symm
    intro h
    cases h

theorem endsBeforeALeaf_of_nil {s : State} (h : unreadBits s = []) : EndsBeforeALeaf s := fun _ _ _ e hp =>
  absurd (List.append_eq_nil_iff.mp (e.symm.trans h)).1 hp

/-- The stream ends before the first bit: the payload is 0. -/
theorem witness_DecodingATruncatedSymbol_empty :
    Live (coded (withIn [])) ∧ (coded (withIn [])).cn.valid = true ∧ EndsClean (coded (withIn [])) ∧
    unreadBits (coded (withIn [])) = [] ∧ EndsBeforeALeaf (coded (withIn [])) :=
  ⟨rfl, rfl, .inr rfl, rfl, endsBeforeALeaf_of_nil rfl⟩

theorem witness_DecodingATruncatedSymbol_ioerr :
    Live (coded withBadIn) ∧ (coded withBadIn).cn.valid = true ∧ ¬ EndsClean (coded withBadIn) ∧
    EndsBeforeALeaf (coded withBadIn) :=
  ⟨rfl, rfl, badIn_unclean, endsBeforeALeaf_of_nil rfl⟩

theorem witness_DecodingInvertsEncoding :
    Live (coded (withIn [0xB0])) ∧ CodeOk (coded (withIn [0xB0])) ∧ (coded (withIn [0xB0])).cn.valid = true ∧
    66 < 322 ∧ (coded (withIn [0xB0])).lenAt 66 ≠ 0 ∧
    unreadBits (coded (withIn [0xB0])) = codesOf (coded (withIn [0xB0])) [66] ++ [true, true, false, false, false, false] :=
  ⟨rfl, fun _ => ⟨exampleLen_complete, exampleCode_canonical⟩, rfl, by decide, by decide, by decide⟩

theorem witness_OnlyResultCommandsWriteRes :
    (Instr.nop ≠ .srst) ∧ writesRes .nop = false ∧ exec .nop State.reset = .next State.reset := ⟨by decide, rfl, rfl⟩

/-- OnlyItsWritersChangeEachTable, ValidityFlagsAreSetByTheirBuilders and StickyFlagsStay. -/
theorem witness_StickyFlagsStay :
    (Instr.brd ≠ .srst) ∧ exec .brd (halted State.reset) = .next (halted State.reset) ∧
    (halted State.reset).er.halt = true := ⟨by decide, rfl, rfl⟩

theorem witness_ValidityFlagsAreSetByTheirBuilders :
    exec .fbuild State.reset = .next (State.reset.withFq
      { State.reset.fq with ht := buildTree State.reset.fq.freq, valid := true }) := rfl

theorem witness_StreamsOnlyMoveForward : step State.reset = .next State.reset := rfl

/-- StepKeepsInvariant: a state with a code, a bit in the packer and a run pending. -/
theorem witness_StepKeepsInvariant : Inv (running (packed (coded (withLimit 1)) 1 1) .encoding 3) where
  idle     := rfl
  errors   := ⟨rfl, rfl⟩
  tree     := by intro h; cases h
  code     := fun _ => ⟨exampleLen_complete, exampleCode_canonical⟩
  escape   := by show (3 : BitVec 66) ≠ 0; decide
  packer   := by show 1 < 2; decide
  unpacker := ⟨by decide, by intro h; cases h⟩
  ports    := ⟨Nat.le_refl 0, fun _ _ => Nat.zero_le _⟩

end Sys2Proof.Tests
end

section
/-! What every command keeps. A command is made of a few micro-operations; a property of the state that each of
them keeps is kept by the command, on every path and on errors too. The frames, the sticky flags and the invariant
(spec/10_state.md R34 to R58) are such properties. -/

namespace Sys2Proof.Machine

/-! ## Runs -/

/-- A property that the first part of a run reaches and the second part keeps. -/
theorem Run.ends_andThen {α β : Type} {P : State → Prop} {r : Run α} {f : α → State → Run β} (first : P r.final)
    (second : ∀ a t, P t → P (f a t).final) : P (r.andThen f).final := by
  cases r with
  | ok a t => exact second a t first
  | raise c p t => exact first

/-- A precondition changes nothing, and what follows it runs only where it holds. -/
theorem require_ends {α : Type} {P : State → Prop} {b : Bool} {c : Cause} {s : State} {f : Unit → State → Run α}
    (start : P s) (rest : b = true → P (f () s).final) : P ((require b c s).andThen f).final := by
  cases b with
  | true => exact rest rfl
  | false => exact start

/-- The symbol-range check changes nothing, and what follows it runs only for a symbol. -/
theorem needSymbol_ends {α : Type} {P : State → Prop} {sym : Nat} {s : State} {f : Unit → State → Run α}
    (start : P s) (rest : sym < 322 → P (f () s).final) : P ((needSymbol sym s).andThen f).final := by
  by_cases lt : sym < 322
  · simpa [needSymbol_of_lt lt] using rest lt
  · simpa [needSymbol_of_ge (Nat.not_lt.mp lt)] using start

/-- A property that error entry and the body keep is kept by the command. -/
theorem command_ends {P : State → Prop} {i : Instr} {body : State → Run Unit} {s t : State}
    (h : command i body s = .next t) (raised : ∀ c p u, P u → P (errorEntry c p i.opcode u)) (start : P s)
    (ends : P (body s).final) : P t :=
  command_keeps (R := fun s t => P s → P t) (fun _ => id) (fun c p kept start => raised c p _ (kept start)) h
    (fun _ _ => ends) start

/-! ## The loops over one micro-operation -/

section Loops

variable {P : State → Prop}

theorem putBitList_keeps (bit : ∀ b s, P s → P (putBit b s).final) (bits : List Bool) (s : State) (start : P s) :
    P (putBitList bits s).final := by
  induction bits generalizing s with
  | nil => exact start
  | cons b bits ih => exact Run.ends_andThen (bit b s start) fun _ t => ih t

theorem encSym_keeps (bit : ∀ b s, P s → P (putBit b s).final) (sym : Nat) (s : State) (start : P s) :
    P (encSym sym s).final := by
  unfold encSym
  split
  · exact start
  · exact putBitList_keeps bit _ s start

theorem writeLengths_keeps (bit : ∀ b s, P s → P (putBit b s).final) (syms : List Nat) (s : State) (start : P s) :
    P (writeLengths syms s).final := by
  induction syms generalizing s with
  | nil => exact start
  | cons sym syms ih => exact Run.ends_andThen (putBitList_keeps bit _ s start) fun _ t => ih t

theorem emitSymbolBytes_keeps (byte : ∀ v s, P s → P (outWrite v s).final) (sym : Nat) (s : State) (start : P s) :
    P (emitSymbolBytes sym s).final := by
  have zeros : ∀ n s, P s → P (outZerosLoop n s).final := by
    intro n
    induction n with
    | zero => exact fun s start => start
    | succ n ih => exact fun s start => Run.ends_andThen (byte 0 s start) fun _ t => ih t
  unfold emitSymbolBytes
  split
  · exact byte _ s start
  · split
    · exact start
    · exact outZeros_eq_loop _ s ▸ zeros _ s start

theorem decLoop_keeps (get : ∀ s, P s → P (getBit s).final) (fuel : Nat) (n : CodeTree) (k : Nat) (s : State)
    (start : P s) : P (decLoop fuel n k s).final := by
  induction fuel generalizing n k s with
  | zero => exact start
  | succ fuel ih =>
    refine Run.ends_andThen (get s start) fun r t got => ?_
    cases r with
    | none => exact got
    | some b =>
      dsimp only
      split
      · exact got
      · exact ih _ _ t got

theorem readLength_keeps (get : ∀ s, P s → P (getBit s).final) (sym m : Nat) (v : Byte) (s : State) (start : P s) :
    P (readLength sym m v s).final := by
  induction m generalizing v s with
  | zero => exact start
  | succ m ih =>
    refine Run.ends_andThen (get s start) fun r t got => ?_
    cases r with
    | none => exact got
    | some b => exact ih _ t got

theorem readLengths_keeps (get : ∀ s, P s → P (getBit s).final) (set : ∀ sym v s, P s → P (s.setLen sym v))
    (syms : List Nat) (s : State) (start : P s) : P (readLengths syms s).final := by
  induction syms generalizing s with
  | nil => exact start
  | cons sym syms ih =>
    exact Run.ends_andThen (readLength_keeps get sym 8 0 s start) fun v t got => ih _ (set sym v t got)

theorem flushPending_keeps (m : Pass) (idle : ∀ s, P s → P (s.withEsc .idle))
    (one : ∀ sym s, P s → P (emit m sym s).final) (s : State) (start : P s) : P (flushPending m s).final := by
  have all : ∀ syms s, P s → P (emitAll m syms s).final := by
    intro syms
    induction syms with
    | nil => exact fun s start => start
    | cons sym syms ih => exact fun s start => Run.ends_andThen (one sym s start) fun _ t => ih t
  obtain ⟨-, h⟩ | ⟨-, h⟩ := flushPending_cases m s
  · exact h ▸ start
  · exact h ▸ all _ _ (idle s start)

/-- A run that is not full does not wrap to 0 (spec/44_escape.md R222). -/
theorem run_succ_ne_zero {r : BitVec 66} (room : r ≠ BitVec.allOnes 66) : r + 1 ≠ 0 := fun h =>
  room (by rw [eq_neg_of_add_eq_zero_left h]; rfl)

theorem countZero_keeps {m : Pass}
    (running : ∀ m r s, r ≠ 0 → P s → P (s.withEsc { counting := true, mode := m, run := r })) (s : State)
    (start : P s) : P (countZero m s).final := by
  unfold countZero
  split
  · rename_i counting
    split
    · exact start
    · rename_i room
      have next := running s.esc.mode _ s (run_succ_ne_zero room) start
      rwa [← counting] at next
  · exact running m 1 s (by decide) start

theorem escByte_keeps (m : Pass) (idle : ∀ s, P s → P (s.withEsc .idle))
    (running : ∀ m r s, r ≠ 0 → P s → P (s.withEsc { counting := true, mode := m, run := r }))
    (one : ∀ sym s, P s → P (emit m sym s).final) (v : Byte) (s : State) (start : P s) :
    P (escByte v m s).final := by
  unfold escByte
  split
  · exact countZero_keeps running s start
  · exact Run.ends_andThen (flushPending_keeps m idle one s start) fun _ t => one v.toNat t

end Loops

/-! ## The commands -/

/-- `P` is kept by each micro-operation the command `i` is made of, and by error entry. -/
structure KeptBy (i : Instr) (P : State → Prop) : Prop where
  raised    : ∀ c p s, P s → P (errorEntry c p i.opcode s)
  result    : writesRes i = true → ∀ v s, P s → P (s.withRes v)
  eofNoted  : writesDecEof i = true → ∀ b s, P s → P (s.withDecEof (s.decEof || b))
  bitPut    : writesPacker i = true → ∀ b s, P s → P (putBit b s).final
  byteOut   : writesOut i = true → ∀ v s, P s → P (outWrite v s).final
  bitGot    : readsIn i = true → ∀ s, P s → P (getBit s).final
  counted   : writesFreq i = true → ∀ sym s, P s → P (incFreq sym s).final
  runIdle   : writesRun i = true → ∀ s, P s → P (s.withEsc .idle)
  runCounts : writesRun i = true → ∀ m r s, r ≠ 0 → P s → P (s.withEsc { counting := true, mode := m, run := r })
  uncoded   : (writesLen i || writesCode i) = true → ∀ s, P s → P (s.setCodeValid false)
  lengthSet : writesLen i = true → ∀ sym v s, s.cn.valid = false → P s → P (s.setLen sym v)
  installed : i = .clen → ∀ s, kraftSum s.cn.len = 2 ^ 255 → P s → P (installCode s)
  fromTree  : i = .ctree → ∀ s, s.fq.valid = true → P s → P (ctreeBody s).final
  cleared   : i = .fclr → ∀ s, P s → P (s.withFq { s.fq with freq := Vector.replicate 322 0, valid := false })
  built     : i = .fbuild → ∀ s, P s → P (s.withFq { s.fq with ht := buildTree s.fq.freq, valid := true })
  closed    : i = .bfin → ∀ s, P s → P (s.withBo { acc := 0, cnt := 0, closed := true })

namespace KeptBy

variable {i : Instr} {P : State → Prop} (kept : KeptBy i P)
include kept

theorem decodes (res : writesRes i = true) (eof : writesDecEof i = true) (get : readsIn i = true) (s : State)
    (start : P s) : P (decSym s).final :=
  Run.ends_andThen (decLoop_keeps (kept.bitGot get) _ _ _ s start) fun sym t got =>
    kept.eofNoted eof (sym == 256) _ (kept.result res _ t got)

theorem checksAndInstalls (clen : i = .clen) (s : State) (start : P s) :
    P ((checkComplete s).andThen fun _ s => .ok () (installCode s)).final := by
  cases h : checkComplete s with
  | ok u t =>
    obtain ⟨rfl, complete⟩ := checkComplete_eq_ok.mp h
    exact kept.installed clen t complete start
  | raise c p t =>
    have same : t = s := by simpa [h] using checkComplete_final s
    exact same ▸ start

/-- With CODE_VALID cleared, HDRR's entries are set one by one. -/
theorem readsHeader (len : writesLen i = true) (get : readsIn i = true) (syms : List Nat) (s : State)
    (start : P s) : P (readLengths syms (s.setCodeValid false)).final := by
  have uncoded := kept.uncoded (by simp [len]) s start
  refine (readLengths_keeps (P := fun s => P s ∧ s.cn.valid = false) ?_ ?_ syms _ ⟨uncoded, rfl⟩).1
  · intro s ⟨start, invalid⟩
    obtain ⟨u, n, -, eq⟩ := getBit_unpackStep s
    exact ⟨kept.bitGot get s start, by simpa [eq] using invalid⟩
  · intro sym v s ⟨start, invalid⟩
    exact ⟨kept.lengthSet len sym v s invalid start, invalid⟩

end KeptBy

/-- The commands are made of the micro-operations that `KeptBy` lists, each in the class the spec gives it. -/
theorem exec_keeps {i : Instr} {P : State → Prop} (kept : KeptBy i P) (notReset : i ≠ .srst) {s t : State}
    (h : exec i s = .next t) (start : P s) : P t := by
  unfold exec at h
  cases i with
  | nop => exact command_ends h kept.raised start start
  | srst => exact absurd rfl notReset
  | symlim => exact command_ends h kept.raised start (kept.result rfl _ s start)
  | bwr bit =>
    exact command_ends h kept.raised start (require_ends start fun _ => kept.bitPut rfl bit s start)
  | bfin =>
    refine command_ends h kept.raised start (require_ends start fun _ => ?_)
    refine Run.ends_andThen ?_ fun _ t => kept.closed rfl t
    unfold flushPartial
    split
    · exact start
    · exact kept.byteOut rfl _ s start
  | brd =>
    refine command_ends h kept.raised start ?_
    exact Run.ends_andThen (kept.bitGot rfl s start) fun _ t => kept.result rfl _ t
  | brdne =>
    refine command_ends h kept.raised start (Run.ends_andThen (kept.bitGot rfl s start) fun r t got => ?_)
    cases r with
    | none => exact got
    | some b => exact kept.result rfl _ t got
  | fclr => exact command_ends h kept.raised start (kept.cleared rfl s start)
  | finc sym =>
    exact command_ends h kept.raised start (needSymbol_ends start fun _ => kept.counted rfl sym s start)
  | fget sym =>
    exact command_ends h kept.raised start (needSymbol_ends start fun _ => kept.result rfl _ s start)
  | fbuild => exact command_ends h kept.raised start (kept.built rfl s start)
  | ctree =>
    exact command_ends h kept.raised start (require_ends start fun valid => kept.fromTree rfl s valid start)
  | clen =>
    exact command_ends h kept.raised start (kept.checksAndInstalls rfl _ (kept.uncoded rfl s start))
  | lset sym imm =>
    exact command_ends h kept.raised start
      (needSymbol_ends start fun _ => kept.lengthSet rfl sym imm _ rfl (kept.uncoded rfl s start))
  | lget sym =>
    exact command_ends h kept.raised start (needSymbol_ends start fun _ => kept.result rfl _ s start)
  | cget sym k =>
    exact command_ends h kept.raised start
      (needSymbol_ends start fun _ => require_ends start fun _ => kept.result rfl _ s start)
  | hdrw =>
    exact command_ends h kept.raised start
      (require_ends start fun _ => require_ends start fun _ => writeLengths_keeps (kept.bitPut rfl) _ s start)
  | hdrr => exact command_ends h kept.raised start (kept.readsHeader rfl rfl _ s start)
  | cbyte byte =>
    exact command_ends h kept.raised start (require_ends start fun _ =>
      escByte_keeps .counting (kept.runIdle rfl) (kept.runCounts rfl) (kept.counted rfl) byte s start)
  | cend =>
    exact command_ends h kept.raised start (require_ends start fun _ =>
      flushPending_keeps .counting (kept.runIdle rfl) (kept.counted rfl) s start)
  | ebyte byte =>
    exact command_ends h kept.raised start
      (require_ends start fun _ => require_ends start fun _ => require_ends start fun _ =>
        escByte_keeps .encoding (kept.runIdle rfl) (kept.runCounts rfl) (encSym_keeps (kept.bitPut rfl)) byte s start)
  | eend =>
    exact command_ends h kept.raised start
      (require_ends start fun _ => require_ends start fun _ => require_ends start fun _ =>
        flushPending_keeps .encoding (kept.runIdle rfl) (encSym_keeps (kept.bitPut rfl)) s start)
  | xsym sym =>
    exact command_ends h kept.raised start
      (needSymbol_ends start fun _ => emitSymbolBytes_keeps (kept.byteOut rfl) sym s start)
  | henc sym =>
    exact command_ends h kept.raised start
      (needSymbol_ends start fun _ => require_ends start fun _ => require_ends start fun _ =>
        encSym_keeps (kept.bitPut rfl) sym s start)
  | hdec =>
    exact command_ends h kept.raised start (require_ends start fun _ =>
      Run.ends_andThen (kept.decodes rfl rfl rfl s start) fun _ _ => id)
  | xdec =>
    exact command_ends h kept.raised start (require_ends start fun _ =>
      Run.ends_andThen (kept.decodes rfl rfl rfl s start) fun sym t => emitSymbolBytes_keeps (kept.byteOut rfl) sym t)

/-! # What each command leaves as it was (spec/10_state.md R34 to R58) -/

/-- From `s` to `t` only what command `i` writes has changed, no sticky flag is cleared and no validity flag is set
but by its builder. -/
structure Within (i : Instr) (s t : State) : Prop where
  res       : writesRes i = true ∨ t.res = s.res
  freq      : writesFreq i = true ∨ t.fq.freq = s.fq.freq
  arena     : writesHt i = true ∨ t.fq.ht = s.fq.ht
  len       : writesLen i = true ∨ t.cn.len = s.cn.len
  code      : writesCode i = true ∨ t.cn.code = s.cn.code ∧ t.cn.ct = s.cn.ct
  packer    : writesPacker i = true ∨ t.bo = s.bo
  out       : writesOut i = true ∨ t.outp = s.outp
  unpacker  : readsIn i = true ∨ t.bi = s.bi ∧ t.inp = s.inp
  run       : writesRun i = true ∨ t.esc = s.esc
  decEof    : writesDecEof i = true ∨ t.decEof = s.decEof
  outside   : t.host = s.host ∧ t.busy = s.busy ∧ t.free = s.free
  treeBuilt : t.fq.valid = true → i = .fbuild ∨ s.fq.valid = true
  codeBuilt : t.cn.valid = true → i = .ctree ∨ i = .clen ∨ s.cn.valid = true
  closed    : s.bo.closed = true → t.bo.closed = true
  ended     : s.bi.eos = true → t.bi.eos = true
  eofSeen   : s.decEof = true → t.decEof = true

theorem Within.refl (i : Instr) (s : State) : Within i s s :=
  ⟨.inr rfl, .inr rfl, .inr rfl, .inr rfl, .inr ⟨rfl, rfl⟩, .inr rfl, .inr rfl, .inr ⟨rfl, rfl⟩, .inr rfl,
    .inr rfl, ⟨rfl, rfl, rfl⟩, .inr, fun valid => .inr (.inr valid), id, id, id⟩

/-- CTREE writes the code unit alone, where it raises too. -/
theorem ctreeBody_final (s : State) : ∃ v, (ctreeBody s).final = s.withCn v := by
  unfold ctreeBody
  split
  · exact ⟨s.cn, rfl⟩
  · refine Run.ends_andThen (P := fun t => ∃ v, t = s.withCn v) ⟨_, checkComplete_final _⟩ ?_
    rintro - t ⟨v, rfl⟩
    exact ⟨_, rfl⟩

/-- Each micro-operation of a command stays within its frame. -/
theorem within_kept (i : Instr) (s₀ : State) : KeptBy i (Within i s₀) where
  raised _ _ _ w := { w with }
  result yes _ _ w := { w with res := .inl yes }
  eofNoted yes _ _ w := { w with decEof := .inl yes, eofSeen := fun h => by simp [w.eofSeen h] }
  bitPut yes b s w := by
    obtain ⟨p, added, closed, eq⟩ := putBit_packStep b s
    rw [eq]
    exact { w with
      packer := .inl yes, out := .inl (by simp [writesOut, yes]), closed := fun h => closed.trans (w.closed h) }
  byteOut yes v s w := by
    unfold outWrite
    split
    · exact { w with out := .inl yes }
    · exact w
  bitGot yes s w := by
    obtain ⟨u, n, eos, eq⟩ := getBit_unpackStep s
    rw [eq]
    exact { w with unpacker := .inl yes, ended := fun h => eos (w.ended h) }
  counted yes sym s w := by
    obtain eq | ⟨f, eq⟩ := incFreq_countStep sym s
    · exact eq.symm ▸ w
    · rw [eq]
      exact { w with freq := .inl yes, treeBuilt := Bool.noConfusion }
  runIdle yes _ w := { w with run := .inl yes }
  runCounts yes _ _ _ _ w := { w with run := .inl yes }
  uncoded _ _ w := { w with codeBuilt := Bool.noConfusion }
  lengthSet yes _ _ _ _ w := { w with len := .inl yes }
  installed clen _ _ w := { w with code := .inl (by rw [clen]; rfl), codeBuilt := fun _ => .inr (.inl clen) }
  fromTree ctree s _ w := by
    obtain ⟨v, eq⟩ := ctreeBody_final s
    rw [eq]
    exact { w with
      len := .inl (by rw [ctree]; rfl), code := .inl (by rw [ctree]; rfl), codeBuilt := fun _ => .inl ctree }
  cleared fclr _ w := { w with freq := .inl (by rw [fclr]; rfl), treeBuilt := Bool.noConfusion }
  built fbuild _ w := { w with arena := .inl (by rw [fbuild]; rfl), treeBuilt := fun _ => .inl fbuild }
  closed bfin _ w := { w with packer := .inl (by rw [bfin]; rfl), closed := fun _ => rfl }

/-- Everything a command but SRST leaves as it was, on every path and on errors too. -/
theorem exec_within {i : Instr} {s t : State} (notReset : i ≠ .srst) (h : exec i s = .next t) : Within i s t :=
  exec_keeps (within_kept i s) notReset h (.refl i s)

/-- A halted engine discards every command but SRST (spec/40_control.md R131). -/
theorem exec_of_halted {i : Instr} {s : State} (notReset : i ≠ .srst) (halted : s.er.halt = true) :
    exec i s = .next s := by
  unfold exec
  cases i with
  | srst => exact absurd rfl notReset
  | _ => exact command_of_halted halted

/-- HDRR leaves CODE_VALID 0 (R58). -/
theorem hdrr_uncodes {s t : State} (live : Live s) (h : exec .hdrr s = .next t) : t.cn.valid = false := by
  have uncoded : ∀ u, HeaderStep (s.setCodeValid false) u → u.cn.valid = false := by
    rintro u ⟨l, v, n, -, rfl⟩
    rfl
  have ends := readLengths_headerStep (List.range 322) (s.setCodeValid false)
  obtain ⟨halted, -⟩ | ⟨-, body⟩ | ⟨-, c, p, u, body, rfl⟩ := command_cases (show execHdrr s = .next t from h)
  · simp [live] at halted
  · exact uncoded t (by simpa [body] using ends)
  · exact uncoded u (by simpa [body] using ends)

/-- Outside the class of commands that may write an item, the item is as it was. -/
theorem unchanged_of_outside {inClass : Bool} {p : Prop} (either : inClass = true ∨ p) (outside : inClass = false) :
    p :=
  either.resolve_left (by simp [outside])

/-- Settles O54: RES is one of the items of `Within`. -/
theorem onlyResultCommandsWriteRes : Obligations.OnlyResultCommandsWriteRes := fun _ _ _ notReset no h =>
  unchanged_of_outside (exec_within notReset h).res no

/-- Settles O55: each item of `Within`, for the commands outside the item's class. -/
theorem onlyItsWritersChangeEachTable : Obligations.OnlyItsWritersChangeEachTable := by
  intro i s t notReset h
  have w := exec_within notReset h
  exact ⟨unchanged_of_outside w.freq, unchanged_of_outside w.arena, unchanged_of_outside w.len,
    unchanged_of_outside w.code, unchanged_of_outside w.packer, unchanged_of_outside w.out,
    unchanged_of_outside w.unpacker, unchanged_of_outside w.run, unchanged_of_outside w.decEof, w.outside⟩

/-- Settles O56: SRST clears both flags, the other commands keep `Within`, and HDRR clears CODE_VALID first. -/
theorem validityFlagsAreSetByTheirBuilders : Obligations.ValidityFlagsAreSetByTheirBuilders := by
  intro i s t h
  by_cases reset : i = .srst
  · subst reset
    cases h
    exact ⟨Bool.noConfusion, Bool.noConfusion, fun _ hdrr => nomatch hdrr⟩
  · have w := exec_within reset h
    exact ⟨w.treeBuilt, w.codeBuilt, fun live hdrr => hdrr_uncodes live (hdrr ▸ h)⟩

/-- Settles O57: a halted engine discards the command, and `Within` keeps the other flags. -/
theorem stickyFlagsStay : Obligations.StickyFlagsStay := by
  intro i s t notReset h
  have w := exec_within notReset h
  refine ⟨fun halted => ?_, w.closed, w.ended, w.eofSeen⟩
  simpa [exec_of_halted notReset halted] using h.symm

/-! # While HT_VALID = 0 the arena is not read (spec/93_implementation_defined.md U2) -/

/-- The state with other arena contents. -/
def State.withArena (ht : HuffTree) (s : State) : State := s.withFq { s.fq with ht := ht }

/-- `r'` is the run `r` with other arena contents in the state it ends in. -/
def SameBut {α : Type} (ht : HuffTree) : Run α → Run α → Prop
  | .ok a s, r' => r' = .ok a (s.withArena ht)
  | .raise c p s, r' => r' = .raise c p (s.withArena ht)

section Blind

variable {α β : Type} {ht : HuffTree}

theorem SameBut.andThen {r r' : Run α} {f f' : α → State → Run β} (first : SameBut ht r r')
    (second : ∀ a t, SameBut ht (f a t) (f' a (t.withArena ht))) : SameBut ht (r.andThen f) (r'.andThen f') := by
  cases r with
  | ok a t => exact first.symm ▸ second a t
  | raise c p t => exact first.symm ▸ rfl

theorem SameBut.ite {p : Prop} [Decidable p] {a b a' b' : Run α} (yes : SameBut ht a a') (no : SameBut ht b b') :
    SameBut ht (if p then a else b) (if p then a' else b') := by
  split
  · exact yes
  · exact no

theorem require_blind (b : Bool) (c : Cause) (s : State) :
    SameBut ht (require b c s) (require b c (s.withArena ht)) := by
  cases b <;> rfl

theorem needSymbol_blind (sym : Nat) (s : State) : SameBut ht (needSymbol sym s) (needSymbol sym (s.withArena ht)) :=
  .ite rfl rfl

/-! ## The packer and OUT -/

theorem outWrite_blind (v : Byte) (s : State) : SameBut ht (outWrite v s) (outWrite v (s.withArena ht)) :=
  .ite rfl rfl

theorem putBit_blind (b : Bool) (s : State) : SameBut ht (putBit b s) (putBit b (s.withArena ht)) :=
  .ite (.andThen (outWrite_blind _ s) fun _ _ => rfl) rfl

theorem putBitList_blind (bits : List Bool) (s : State) :
    SameBut ht (putBitList bits s) (putBitList bits (s.withArena ht)) := by
  induction bits generalizing s with
  | nil => rfl
  | cons b bits ih => exact .andThen (putBit_blind b s) fun _ => ih

theorem encSym_blind (sym : Nat) (s : State) : SameBut ht (encSym sym s) (encSym sym (s.withArena ht)) :=
  .ite rfl (putBitList_blind _ s)

theorem writeLengths_blind (syms : List Nat) (s : State) :
    SameBut ht (writeLengths syms s) (writeLengths syms (s.withArena ht)) := by
  induction syms generalizing s with
  | nil => rfl
  | cons sym syms ih => exact .andThen (putBitList_blind _ s) fun _ => ih

theorem flushPartial_blind (s : State) : SameBut ht (flushPartial s) (flushPartial (s.withArena ht)) :=
  .ite rfl (outWrite_blind _ s)

theorem outZeros_blind (n : Nat) (s : State) : SameBut ht (outZeros n s) (outZeros n (s.withArena ht)) := by
  rw [outZeros_eq_loop, outZeros_eq_loop]
  induction n generalizing s with
  | zero => rfl
  | succ n ih => exact .andThen (outWrite_blind 0 s) fun _ => ih

theorem emitSymbolBytes_blind (sym : Nat) (s : State) :
    SameBut ht (emitSymbolBytes sym s) (emitSymbolBytes sym (s.withArena ht)) :=
  .ite (outWrite_blind _ s) (.ite rfl (outZeros_blind _ s))

/-! ## The unpacker and the decoder -/

theorem inRead_withArena (s : State) :
    inRead (s.withArena ht) = ((inRead s).1, (inRead s).2.withArena ht) := by
  cases byte : s.inp.bytes[s.inp.pos]? with
  | some v => simp [inRead, State.withArena, byte, State.withInp, State.withFq]
  | none => cases atEnd : s.inp.atEnd <;> simp [inRead, State.withArena, byte, atEnd]

theorem getBit_blind (s : State) : SameBut ht (getBit s) (getBit (s.withArena ht)) := by
  refine .ite (.ite rfl ?_) rfl
  rw [inRead_withArena]
  obtain ⟨item, t⟩ := inRead s
  cases item <;> rfl

theorem decLoop_blind (fuel : Nat) (n : CodeTree) (k : Nat) (s : State) :
    SameBut ht (decLoop fuel n k s) (decLoop fuel n k (s.withArena ht)) := by
  induction fuel generalizing n k s with
  | zero => rfl
  | succ fuel ih =>
    refine .andThen (getBit_blind s) fun r t => ?_
    cases r with
    | none => rfl
    | some b =>
      dsimp only
      split
      · rfl
      · exact ih _ _ t

theorem decSym_blind (s : State) : SameBut ht (decSym s) (decSym (s.withArena ht)) :=
  .andThen (decLoop_blind _ _ _ s) fun _ _ => rfl

theorem readLength_blind (sym m : Nat) (v : Byte) (s : State) :
    SameBut ht (readLength sym m v s) (readLength sym m v (s.withArena ht)) := by
  induction m generalizing v s with
  | zero => rfl
  | succ m ih =>
    refine .andThen (getBit_blind s) fun r t => ?_
    cases r with
    | none => rfl
    | some b => exact ih _ t

theorem readLengths_blind (syms : List Nat) (s : State) :
    SameBut ht (readLengths syms s) (readLengths syms (s.withArena ht)) := by
  induction syms generalizing s with
  | nil => rfl
  | cons sym syms ih => exact .andThen (readLength_blind sym 8 0 s) fun v t => ih (t.setLen sym v)

/-! ## Counting, the escape transform and the code -/

theorem incFreq_blind (sym : Nat) (s : State) : SameBut ht (incFreq sym s) (incFreq sym (s.withArena ht)) :=
  .ite rfl rfl

theorem emit_blind (m : Pass) (sym : Nat) (s : State) : SameBut ht (emit m sym s) (emit m sym (s.withArena ht)) := by
  cases m with
  | counting => exact incFreq_blind sym s
  | encoding => exact encSym_blind sym s

theorem emitAll_blind (m : Pass) (syms : List Nat) (s : State) :
    SameBut ht (emitAll m syms s) (emitAll m syms (s.withArena ht)) := by
  induction syms generalizing s with
  | nil => rfl
  | cons sym syms ih => exact .andThen (emit_blind m sym s) fun _ => ih

theorem flushPending_blind (m : Pass) (s : State) :
    SameBut ht (flushPending m s) (flushPending m (s.withArena ht)) :=
  .ite (emitAll_blind m _ (s.withEsc .idle)) rfl

theorem escByte_blind (v : Byte) (m : Pass) (s : State) :
    SameBut ht (escByte v m s) (escByte v m (s.withArena ht)) :=
  .ite (.ite (.ite rfl rfl) rfl) (.andThen (flushPending_blind m s) fun _ => emit_blind m v.toNat)

theorem checkComplete_blind (s : State) : SameBut ht (checkComplete s) (checkComplete (s.withArena ht)) :=
  .ite rfl (.ite rfl rfl)

/-! ## The command wrapper -/

theorem command_blind {i : Instr} {body : State → Run Unit} {s t : State} (h : command i body s = .next t)
    (blind : SameBut ht (body s) (body (s.withArena ht))) :
    command i body (s.withArena ht) = .next (t.withArena ht) := by
  obtain ⟨halted, rfl⟩ | ⟨live, ends⟩ | ⟨live, c, p, u, ends, rfl⟩ := command_cases h
  · exact command_of_halted halted
  · rw [ends] at blind
    exact command_of_ok live blind
  · rw [ends] at blind
    exact command_of_raise (s := s.withArena ht) live blind

end Blind

theorem needTree_of_unbuilt {s : State} (unbuilt : s.fq.valid = false) : needTree s = .raise .noTree 0 s := by
  simp [needTree, unbuilt]

/-- While HT_VALID = 0, a command that does not write the arena leaves whatever it holds there. -/
theorem exec_blind {i : Instr} {s t : State} (ht : HuffTree) (notReset : i ≠ .srst) (notBuilder : i ≠ .fbuild)
    (unbuilt : s.fq.valid = false) (h : exec i s = .next t) :
    exec i (s.withArena ht) = .next (t.withArena ht) := by
  unfold exec at h ⊢
  cases i with
  | nop => exact command_blind h rfl
  | srst => exact absurd rfl notReset
  | symlim => exact command_blind h rfl
  | bwr bit => exact command_blind h (.andThen (require_blind _ _ s) fun _ => putBit_blind bit)
  | bfin =>
    exact command_blind h (.andThen (require_blind _ _ s) fun _ t =>
      .andThen (flushPartial_blind t) fun _ _ => rfl)
  | brd => exact command_blind h (.andThen (getBit_blind s) fun _ _ => rfl)
  | brdne =>
    refine command_blind h (.andThen (getBit_blind s) fun r t => ?_)
    cases r <;> rfl
  | fclr => exact command_blind h rfl
  | finc sym => exact command_blind h (.andThen (needSymbol_blind sym s) fun _ => incFreq_blind sym)
  | fget sym => exact command_blind h (.andThen (needSymbol_blind sym s) fun _ _ => rfl)
  | fbuild => exact absurd rfl notBuilder
  | ctree =>
    exact command_blind (i := .ctree) h (by
      rw [needTree_of_unbuilt unbuilt, needTree_of_unbuilt (s := s.withArena ht) unbuilt]
      rfl)
  | clen =>
    exact command_blind h (.andThen (checkComplete_blind (s.setCodeValid false)) fun _ _ => rfl)
  | lset sym imm => exact command_blind h (.andThen (needSymbol_blind sym s) fun _ _ => rfl)
  | lget sym => exact command_blind h (.andThen (needSymbol_blind sym s) fun _ _ => rfl)
  | cget sym k =>
    exact command_blind h (.andThen (needSymbol_blind sym s) fun _ t =>
      .andThen (require_blind _ _ t) fun _ _ => rfl)
  | hdrw =>
    exact command_blind h (.andThen (require_blind _ _ s) fun _ t =>
      .andThen (require_blind _ _ t) fun _ => writeLengths_blind _)
  | hdrr => exact command_blind h (readLengths_blind _ (s.setCodeValid false))
  | cbyte byte => exact command_blind h (.andThen (require_blind _ _ s) fun _ => escByte_blind byte _)
  | cend => exact command_blind h (.andThen (require_blind _ _ s) fun _ => flushPending_blind _)
  | ebyte byte =>
    exact command_blind h (.andThen (require_blind _ _ s) fun _ t => .andThen (require_blind _ _ t) fun _ t =>
      .andThen (require_blind _ _ t) fun _ => escByte_blind byte _)
  | eend =>
    exact command_blind h (.andThen (require_blind _ _ s) fun _ t => .andThen (require_blind _ _ t) fun _ t =>
      .andThen (require_blind _ _ t) fun _ => flushPending_blind _)
  | xsym sym => exact command_blind h (.andThen (needSymbol_blind sym s) fun _ => emitSymbolBytes_blind sym)
  | henc sym =>
    exact command_blind h (.andThen (needSymbol_blind sym s) fun _ t => .andThen (require_blind _ _ t) fun _ t =>
      .andThen (require_blind _ _ t) fun _ => encSym_blind sym)
  | hdec =>
    exact command_blind h (.andThen (require_blind _ _ s) fun _ t => .andThen (decSym_blind t) fun _ _ => rfl)
  | xdec =>
    exact command_blind h (.andThen (require_blind _ _ s) fun _ t =>
      .andThen (decSym_blind t) fun sym => emitSymbolBytes_blind sym)

/-- FBUILD writes the whole arena from FREQ. -/
theorem fbuild_blind {s t : State} (ht : HuffTree) (h : exec .fbuild s = .next t) :
    ∃ ht', exec .fbuild (s.withArena ht) = .next (t.withArena ht') := by
  change execFbuild s = .next t at h
  show ∃ ht', execFbuild (s.withArena ht) = .next (t.withArena ht')
  obtain ⟨halted, rfl⟩ | ⟨live, ends⟩ | ⟨-, c, p, u, ends, -⟩ := command_cases h
  · exact ⟨ht, command_of_halted halted⟩
  · cases ends
    exact ⟨buildTree s.fq.freq, command_of_ok (s := s.withArena ht) live rfl⟩
  · cases ends

/-- Settles O33: SRST and FBUILD write the arena without reading it, and the other commands leave it. -/
theorem unbuiltTreeIsNeverRead : Obligations.UnbuiltTreeIsNeverRead := by
  intro i s t ht unbuilt h
  by_cases reset : i = .srst
  · subst reset
    cases h
    exact ⟨_, rfl⟩
  by_cases builder : i = .fbuild
  · subst builder
    exact fbuild_blind ht h
  · exact ⟨ht, exec_blind ht reset builder unbuilt h⟩

/-! # The lengths CTREE takes from a built tree are complete (spec/42_frequency.md R178, spec/43_canonical.md R190) -/

/-! ## Depths in a built tree -/

/-- A symbol at one leaf only has that leaf's depth. -/
theorem depthIn_of_mem {ds : List (Nat × Nat)} (nodup : (ds.map (·.1)).Nodup) {sym d : Nat} (h : (sym, d) ∈ ds) :
    depthIn ds sym = d := by
  obtain ⟨pre, post, rfl⟩ := List.append_of_mem h
  have absent : pre.lookup sym = none := by
    rw [List.map_append, List.nodup_append] at nodup
    rw [List.lookup_eq_none_iff]
    exact fun p mem => bne_iff_ne.mpr fun eq => nodup.2.2 p.1 (List.mem_map_of_mem mem) sym (by simp) eq.symm
  simp [depthIn, List.lookup_append, absent]

/-- Adding up over the symbols by their depths is adding up over the leaves. -/
theorem sum_over_leaves {ds : List (Nat × Nat)} {syms : List Nat} (leaves : (ds.map (·.1)).Perm syms)
    (nodup : syms.Nodup) (f : Nat → Nat) :
    (syms.map fun sym => f (depthIn ds sym)).sum = (ds.map fun x => f x.2).sum := by
  have nodup' := leaves.nodup_iff.mpr nodup
  rw [← (leaves.map fun sym => f (depthIn ds sym)).sum_eq, List.map_map]
  congr 1
  exact List.map_congr_left fun x hx => congrArg f (depthIn_of_mem nodup' hx)

/-- HT as FBUILD leaves it is one tree with two subtrees below its root, every symbol at one leaf. -/
theorem buildTree_depths (freq : Vector (BitVec 32) 322) :
    ∃ l r, Stands (buildTree freq) 642 (.node l r) ∧ ((CodeTree.node l r).leaves).Perm (List.range 322) ∧
      (buildTree freq).depths = (CodeTree.node l r).depthsFrom 0 ∧ (CodeTree.node l r).height ≤ 321 := by
  obtain ⟨T, stands, leaves⟩ := buildTree_stands freq
  have height : T.height < 322 := by simpa [leaves.length_eq] using stands.height_lt
  cases T with
  | empty => exact stands.elim
  | leaf sym =>
    obtain ⟨root, lt⟩ := stands
    omega
  | node l r => exact ⟨l, r, stands, leaves, leafDepths_of_stands stands 322 0 height, by omega⟩

/-- Every symbol is a leaf of the tree FBUILD builds (R178). -/
theorem buildTree_leaves (freq : Vector (BitVec 32) 322) :
    ((buildTree freq).depths.map (·.1)).Perm (List.range 322) := by
  obtain ⟨l, r, -, leaves, depths, -⟩ := buildTree_depths freq
  rwa [depths, CodeTree.depthsFrom_symbols]

/-- No leaf is the root, and none lies deeper than 321 (R178). -/
theorem depthIn_buildTree_bounds (freq : Vector (BitVec 32) 322) {sym : Nat} (h : sym < 322) :
    1 ≤ depthIn (buildTree freq).depths sym ∧ depthIn (buildTree freq).depths sym ≤ 321 := by
  have leaves := buildTree_leaves freq
  have nodup := leaves.nodup_iff.mpr List.nodup_range
  obtain ⟨x, mem, rfl⟩ := List.mem_map.mp (leaves.mem_iff.mpr (List.mem_range.mpr h))
  rw [depthIn_of_mem nodup mem]
  obtain ⟨l, r, -, -, depths, height⟩ := buildTree_depths freq
  rw [depths] at mem
  have deepest := CodeTree.depthsFrom_bounds mem
  simp only [CodeTree.depthsFrom, List.mem_append] at mem
  have below : 1 ≤ x.2 := mem.elim (fun h => (CodeTree.depthsFrom_bounds h).1) fun h => (CodeTree.depthsFrom_bounds h).1
  omega

/-- The depths fill a code space of any depth that holds them exactly (R178). -/
theorem buildTree_kraft (freq : Vector (BitVec 32) 322) {D : Nat} (deep : 321 ≤ D) :
    ((List.range 322).map fun sym => 2 ^ (D - depthIn (buildTree freq).depths sym)).sum = 2 ^ D := by
  rw [sum_over_leaves (buildTree_leaves freq) List.nodup_range fun d => 2 ^ (D - d)]
  obtain ⟨l, r, stands, -, depths, height⟩ := buildTree_depths freq
  rw [depths]
  exact stands.kraft D 0 (by omega)

/-! ## Lengths taken from depths -/

theorem lenNat_lengthsOf {ds : List (Nat × Nat)} {sym : Nat} (h : sym < 322) (fits : depthIn ds sym < 256) :
    lenNat (lengthsOf ds) sym = depthIn ds sym := by
  rw [lenNat, lengthsOf, tableOf_getElem? _ _ _ _ h (by simpa using h)]
  simp [h, Nat.mod_eq_of_lt fits]

theorem firstTooDeep_eq_none {ds : List (Nat × Nat)} :
    firstTooDeep ds = none ↔ ∀ sym < 322, depthIn ds sym < 256 := by
  simp [firstTooDeep]

/-- Depths from 1 to 255 that fill a deeper code space are a complete table of lengths. -/
theorem kraftSum_lengthsOf {ds : List (Nat × Nat)} {more : Nat}
    (fits : ∀ sym < 322, 1 ≤ depthIn ds sym ∧ depthIn ds sym < 256)
    (full : ((List.range 322).map fun sym => 2 ^ (255 + more - depthIn ds sym)).sum = 2 ^ (255 + more)) :
    kraftSum (lengthsOf ds) = 2 ^ 255 := by
  have len : ∀ sym ∈ List.range 322, lenNat (lengthsOf ds) sym = depthIn ds sym := fun sym mem =>
    lenNat_lengthsOf (List.mem_range.mp mem) (fits sym (List.mem_range.mp mem)).2
  have coded : codedSymbols (lengthsOf ds) = List.range 322 := List.filter_eq_self.mpr fun sym mem => by
    have bounds := fits sym (List.mem_range.mp mem)
    rw [len sym mem, bne_iff_ne]
    omega
  have share : ∀ sym ∈ List.range 322,
      2 ^ (255 - lenNat (lengthsOf ds) sym) * 2 ^ more = 2 ^ (255 + more - depthIn ds sym) := fun sym mem => by
    have bounds := fits sym (List.mem_range.mp mem)
    rw [len sym mem, ← pow_add]
    exact congrArg (2 ^ ·) (by omega)
  refine Nat.eq_of_mul_eq_mul_right (Nat.two_pow_pos more) ?_
  rw [kraftSum, coded, ← List.sum_map_mul_right, List.map_congr_left share, full, ← pow_add]

/-- Where no leaf of the built tree lies deeper than 255, its depths are a complete table of lengths. -/
theorem lengthsOf_buildTree_complete {freq : Vector (BitVec 32) 322}
    (fits : ∀ sym < 322, depthIn (buildTree freq).depths sym < 256) :
    kraftSum (lengthsOf (buildTree freq).depths) = 2 ^ 255 :=
  kraftSum_lengthsOf (more := 66) (fun sym lt => ⟨(depthIn_buildTree_bounds freq lt).1, fits sym lt⟩)
    (buildTree_kraft freq (D := 255 + 66) (by omega))

/-! # The invariant -/

/-! ## The invariant inside a step -/

/-- The invariant of the machine but for BUSY, which is 1 while a command runs (spec/70_reset_and_hazards.md R302). -/
abbrev Sound (s : State) : Prop := Inv (s.withBusy false)

/-- The reset action leaves the invariant whatever it finds, the streams of an engine that had it standing. -/
theorem engineReset_inv {s : State} (ports : PortsOk s) : Inv (engineReset s) where
  idle     := rfl
  errors   := ⟨rfl, rfl⟩
  tree     := Bool.noConfusion
  code     := Bool.noConfusion
  escape   := ⟨rfl, rfl⟩
  packer   := Nat.one_pos
  unpacker := ⟨Nat.zero_le 8, Bool.noConfusion⟩
  ports    := ports

theorem outWrite_sound (v : Byte) (s : State) (h : Sound s) : Sound (outWrite v s).final := by
  unfold outWrite
  split
  · rename_i accepts
    obtain ⟨read, written⟩ := h.ports
    refine { h with ports := ⟨read, fun lim limit => ?_⟩ }
    change s.outp.limit = some lim at limit
    simp [outAccepts, limit] at accepts
    simpa using accepts
  · exact h

/-- A value of `n` bits with one more shifted in has `n + 1` bits. -/
theorem shiftIn_lt {acc : Byte} {n : Nat} (b : Bool) (h : acc.toNat < 2 ^ n) : (shiftIn acc b).toNat < 2 ^ (n + 1) := by
  have le : (shiftIn acc b).toNat ≤ acc.toNat * 2 + 1 := by
    cases b <;> simp [shiftIn] <;> omega
  rw [pow_succ]
  omega

theorem cnt_succ_toNat {cnt : BitVec 3} (room : cnt ≠ 7) : (cnt + 1).toNat = cnt.toNat + 1 := by
  bv_omega

theorem rem_pred_toNat_le {rem : BitVec 4} (some : rem ≠ 0) : (rem - 1).toNat ≤ rem.toNat := by
  bv_omega

theorem putBit_sound (b : Bool) (s : State) (h : Sound s) : Sound (putBit b s).final := by
  unfold putBit
  split
  · exact Run.ends_andThen (outWrite_sound _ s h) fun _ t h => { h with packer := Nat.one_pos }
  · rename_i room
    have packer : (shiftIn s.bo.acc b).toNat < 2 ^ (s.bo.cnt + 1).toNat :=
      cnt_succ_toNat room ▸ shiftIn_lt b h.packer
    exact { h with packer := packer }

theorem getBit_sound (s : State) (h : Sound s) : Sound (getBit s).final := by
  obtain ⟨few, ended⟩ := h.unpacker
  obtain ⟨read, written⟩ := h.ports
  obtain ⟨rem, e⟩ | ⟨-, -, e⟩ | ⟨-, notEnded, v, byte, e⟩ | ⟨rem, -, past, clean, e⟩ | ⟨-, -, -, -, e⟩ :=
    getBit_cases s
  all_goals rw [e]
  · exact { h with unpacker := ⟨(rem_pred_toNat_le rem).trans few, fun eos => absurd (ended eos).1 rem⟩ }
  · exact h
  · have more : s.inp.pos < s.inp.bytes.length := (List.getElem?_eq_some_iff.mp byte).1
    exact { h with
      unpacker := ⟨(by decide : (7 : BitVec 4).toNat ≤ 8), fun eos => absurd (notEnded.symm.trans eos) Bool.noConfusion⟩
      ports    := ⟨more, written⟩ }
  · exact { h with
      unpacker := ⟨few, fun _ => ⟨rem, read.antisymm (List.getElem?_eq_none_iff.mp past), clean⟩⟩ }
  · exact h

/-- A complete table of lengths may replace the code unit, whatever it held. -/
theorem installCode_sound {s : State} (h : Sound s) (v : CodeUnit) (complete : kraftSum v.len = 2 ^ 255) :
    Sound (installCode (s.withCn v)) :=
  { h with code := fun _ => ⟨complete, rfl, rfl⟩ }

/-- CTREE's lengths come from the tree of FREQ, so they are complete: E_BAD_LENGTHS cannot come, and CODE_VALID is
never left standing beside another LEN (R38). -/
theorem ctreeBody_sound (s : State) (valid : s.fq.valid = true) (h : Sound s) : Sound (ctreeBody s).final := by
  have tree : s.fq.ht = buildTree s.fq.freq := h.tree valid
  unfold ctreeBody
  split
  · exact h
  · rename_i fits
    have complete : kraftSum (lengthsOf s.fq.ht.depths) = 2 ^ 255 := by
      rw [tree] at fits ⊢
      exact lengthsOf_buildTree_complete (firstTooDeep_eq_none.mp fits)
    have passes : checkComplete (s.withCn { s.cn with len := lengthsOf s.fq.ht.depths }) = .ok () _ :=
      checkComplete_eq_ok.mpr ⟨rfl, complete⟩
    rw [passes, Run.ok_andThen, Run.final_ok]
    exact installCode_sound h _ complete

/-- Each micro-operation of a command keeps the invariant but for BUSY. -/
theorem sound_kept (i : Instr) : KeptBy i Sound where
  raised c _ _ h := { h with errors := c.code_mem }
  result _ _ _ h := { h with }
  eofNoted _ _ _ h := { h with }
  bitPut _ := putBit_sound
  byteOut _ := outWrite_sound
  bitGot _ := getBit_sound
  counted _ sym s h := by
    obtain eq | ⟨f, eq⟩ := incFreq_countStep sym s
    · exact eq.symm ▸ h
    · rw [eq]
      exact { h with tree := Bool.noConfusion }
  runIdle _ _ h := { h with escape := ⟨rfl, rfl⟩ }
  runCounts _ _ _ _ pos h := { h with escape := pos }
  uncoded _ _ h := { h with code := Bool.noConfusion }
  lengthSet _ _ _ _ invalid h := { h with code := fun valid => absurd (invalid.symm.trans valid) Bool.noConfusion }
  installed _ s complete h := installCode_sound h s.cn complete
  fromTree _ := ctreeBody_sound
  cleared _ _ h := { h with tree := Bool.noConfusion }
  built _ _ h := { h with tree := fun _ => rfl }
  closed _ _ h := { h with packer := Nat.one_pos }

theorem exec_sound {i : Instr} {s t : State} (h : Sound s) (run : exec i s = .next t) : Sound t := by
  by_cases reset : i = .srst
  · subst reset
    cases run
    exact engineReset_inv h.ports
  · exact exec_keeps (sound_kept i) reset run h

theorem execute_sound {w : Word} {s t : State} (h : Sound s) (run : execute w s = .next t) : Sound t := by
  unfold execute at run
  split at run
  · exact exec_sound h run
  · unfold illegalWord at run
    split at run
    · cases run
      exact h
    · cases run
      exact { h with errors := Cause.illegal.code_mem }

/-! ## The step -/

theorem complete_eq_next {o : Host.Outcome State Fault Refusal} {t : State} :
    complete o = .next t ↔ ∃ u, o = .next u ∧ t = u.withBusy false := by
  cases o <;> simp [complete, eq_comm]

theorem windowWrite_inv {offset : Nat} {w : Word} {s t : State} (h : Inv s) (run : windowWrite offset w s = .next t) :
    Inv t := by
  unfold windowWrite at run
  split at run
  · split at run
    · cases run
    · obtain ⟨u, ends, rfl⟩ := complete_eq_next.mp run
      exact execute_sound (s := issue s) { h with idle := rfl } ends
  · cases run
    exact h

theorem hostAccess_inv {a : HostAccess} {s t : State} (h : Inv s) (run : hostAccess a s = .next t) : Inv t := by
  cases a with
  | write addr size w =>
    simp only [hostAccess] at run
    split at run
    · exact windowWrite_inv h run
    · cases run
  | read addr size =>
    simp only [hostAccess] at run
    split at run
    · cases run
      exact { h with }
    · cases run
  | powerOn =>
    cases run
    exact engineReset_inv h.ports

/-- Settles O59: each micro-operation keeps the invariant but for BUSY, and every access ends with BUSY = 0. -/
theorem stepKeepsInvariant : Obligations.StepKeepsInvariant := by
  intro s t h run
  unfold step at run
  split at run
  · cases run
    exact h
  · exact hostAccess_inv (s := consume s) { h with } run

/-- Settles O2: State.reset is what the reset action leaves but for the arena, which is not valid. -/
theorem resetMeetsInvariant : Obligations.ResetMeetsInvariant :=
  { engineReset_inv (s := State.reset) ⟨Nat.le_refl 0, fun _ limit => nomatch limit⟩ with tree := Bool.noConfusion }

/-! # The register window (spec/10_state.md R32 to R49) -/

/-- A bit of STATUS, read off STATUS as a number. -/
theorem statusWord_bit (s : State) {k : Nat} {b : Bool} (h : (statusWord s).toNat / 2 ^ k % 2 = b.toNat) :
    (statusWord s).getLsbD k = b := by
  rw [BitVec.getLsbD, Nat.testBit_eq_decide_div_mod_eq, h]
  cases b <;> rfl

/-- A field of STATUS, read off STATUS as a number. -/
theorem statusWord_field (s : State) {k n : Nat} {v : BitVec n} (h : (statusWord s).toNat / 2 ^ k % 2 ^ n = v.toNat) :
    (statusWord s).extractLsb' k n = v := by
  refine BitVec.eq_of_toNat_eq ?_
  rw [BitVec.extractLsb'_toNat, Nat.shiftRight_eq_div_pow, h]

/-- Settles O12: by `statusWord_toNat` each field is its slice of STATUS. -/
theorem statusShowsEveryField : Obligations.StatusShowsEveryField := by
  intro s
  have status := statusWord_toNat s
  have err := s.er.err.isLt
  have cnt := s.bo.cnt.isLt
  have rem := s.bi.rem.isLt
  have halt := Bool.toNat_le s.er.halt
  have ht := Bool.toNat_le s.fq.valid
  have code := Bool.toNat_le s.cn.valid
  have counting := Bool.toNat_le s.esc.counting
  have mode := Bool.toNat_le (escModeBit s.esc)
  have closed := Bool.toNat_le s.bo.closed
  have eos := Bool.toNat_le s.bi.eos
  have eof := Bool.toNat_le s.decEof
  have busy := Bool.toNat_le s.busy
  have reserved : (0 : BitVec 8).toNat = 0 := rfl
  refine ⟨statusWord_field s ?_, statusWord_bit s ?_, statusWord_bit s ?_, statusWord_bit s ?_, statusWord_bit s ?_,
    statusWord_bit s (b := escModeBit s.esc) ?_, statusWord_bit s ?_, statusWord_field s ?_, statusWord_field s ?_,
    statusWord_bit s ?_, statusWord_bit s ?_, statusWord_bit s ?_, statusWord_field s ?_⟩
  all_goals
    simp only [status, reserved]
    omega

/-- The host's next access is taken off its list and made. -/
theorem step_of_pending {s : State} {a : HostAccess} {rest : List HostAccess} (h : s.host.pending = a :: rest) :
    step s = hostAccess a { s with host := { s.host with pending := rest } } := by
  simp [step, consume, State.withHost, h]

theorem hostAccess_read {s : State} {j : Nat} (word : j < 8) :
    hostAccess (.read (s.host.base + 4 * j) 4) s = .next (windowRead (4 * j) s) := by
  simp [hostAccess, windowOffset_word s.host.base word]

theorem hostAccess_write {s : State} {j : Nat} {w : Word} (word : j < 8) :
    hostAccess (.write (s.host.base + 4 * j) 4 w) s = windowWrite (4 * j) w s := by
  simp [hostAccess, windowOffset_word s.host.base word]

theorem windowValue_host (s : State) (v : HostSide) (offset : Nat) :
    windowValue { s with host := v } offset = windowValue s offset := rfl

/-- What word `j` of the window reads as while BUSY = 0. -/
theorem windowValue_word {s : State} {j : Nat} (idle : s.busy = false) (word : j < 8) :
    windowValue s (4 * j) =
      if j = 1 then statusWord s
      else if j = 2 then s.res
      else if j = 3 then s.er.info
      else if j = 4 then 0x48434531
      else 0 := by
  interval_cases j <;> simp [windowValue, idle, Config.idWord]

/-- Settles O11: the access names word `j`, and a read shows `windowValue`. -/
theorem windowReadsShowTheRegisters : Obligations.WindowReadsShowTheRegisters := by
  intro s j rest idle word pending
  rw [step_of_pending pending]
  refine (hostAccess_read word).trans ?_
  rw [windowRead_engine, windowValue_host, windowValue_word idle word]
  simp [idle]

/-- Settles O14: the access names a word at an offset that is not 0. -/
theorem writesToOtherWordsAreIgnored : Obligations.WritesToOtherWordsAreIgnored := by
  intro s j w rest notCmd word pending
  rw [step_of_pending pending]
  exact (hostAccess_write word).trans (if_neg (by omega))

/-- Settles O1: evaluation, the tables entry by entry. -/
theorem resetValues : Obligations.ResetValues := by
  refine ⟨by decide, rfl, rfl, fun sym lt => ?_, rfl, rfl, rfl, rfl, rfl, rfl, rfl⟩
  simp [State.freqAt, State.lenAt, State.codeAt, State.reset, lt]

end Sys2Proof.Machine
end

section
/-! The memory family: the ports and the window's accesses (spec/20_memory.md R71 to R78). -/

namespace Sys2Proof.Machine

/-! # Accesses the window does not take (spec/20_memory.md R74) -/

theorem hostAccess_write_refused {s : State} {addr size : Nat} (w : Word)
    (noWord : windowOffset s.host.base addr size = none) :
    hostAccess (.write addr size w) s = .refused .badWindowAccess := by
  simp [hostAccess, noWord]

theorem hostAccess_read_refused {s : State} {addr size : Nat} (noWord : windowOffset s.host.base addr size = none) :
    hostAccess (.read addr size) s = .refused .badWindowAccess := by
  simp [hostAccess, noWord]

/-- Settles O10: by `windowOffset_none` the access names no word. -/
theorem otherHostAccessesAreRefused : Obligations.OtherHostAccessesAreRefused := by
  intro s addr size w rest notWord
  have noWord := windowOffset_none notWord
  refine ⟨fun pending => ?_, fun pending => ?_⟩
  · rw [step_of_pending pending]
    exact hostAccess_write_refused w noWord
  · rw [step_of_pending pending]
    exact hostAccess_read_refused noWord

/-! # What a host access can do -/

/-- A word is a command, or it is illegal: then it is discarded or raises E_ILLEGAL (spec/30_encoding.md R109, R110). -/
theorem execute_cases {w : Word} {s t : State} (h : execute w s = .next t) :
    (∃ i, decode w = some i ∧ exec i s = .next t) ∨
    (decode w = none ∧ s.er.halt = true ∧ t = s) ∨
    (decode w = none ∧ Live s ∧ t = errorEntry .illegal (fieldLow24 w) (fieldOpcode w) s) := by
  unfold execute at h
  cases word : decode w with
  | some i => exact .inl ⟨i, rfl, by simpa [word] using h⟩
  | none =>
    rw [word] at h
    cases halt : s.er.halt with
    | true => exact .inr (.inl ⟨rfl, rfl, by simpa [illegalWord, halt] using h.symm⟩)
    | false => exact .inr (.inr ⟨rfl, halt, by simpa [illegalWord, halt] using h.symm⟩)

/-- An access that is not refused is a command's issue, a write that is ignored, a read, or power-on
(spec/10_state.md R32, R33, spec/20_memory.md R74, spec/70_reset_and_hazards.md R291, R303). -/
theorem hostAccess_cases {a : HostAccess} {s t : State} (h : hostAccess a s = .next t) :
    (∃ addr size w u, a = .write addr size w ∧ windowOffset s.host.base addr size = some 0 ∧ s.busy = false ∧
      execute w (issue s) = .next u ∧ t = u.withBusy false) ∨
    (∃ addr size w offset, a = .write addr size w ∧ windowOffset s.host.base addr size = some offset ∧ offset ≠ 0 ∧
      t = s) ∨
    (∃ addr size offset, a = .read addr size ∧ windowOffset s.host.base addr size = some offset ∧
      t = windowRead offset s) ∨
    (a = .powerOn ∧ t = engineReset s) := by
  cases a with
  | write addr size w =>
    simp only [hostAccess, windowWrite] at h
    split at h
    next offset word =>
      split at h
      next cmd =>
        split at h
        · cases h
        next idle =>
          obtain ⟨u, ends, done⟩ := complete_eq_next.mp h
          exact .inl ⟨addr, size, w, u, rfl, cmd ▸ word, eq_false_of_ne_true idle, ends, done⟩
      next other =>
        cases h
        exact .inr (.inl ⟨addr, size, w, offset, rfl, word, other, rfl⟩)
    · cases h
  | read addr size =>
    simp only [hostAccess] at h
    split at h
    next offset word =>
      cases h
      exact .inr (.inr (.inl ⟨addr, size, offset, rfl, word, rfl⟩))
    · cases h
  | powerOn =>
    cases h
    exact .inr (.inr (.inr ⟨rfl, rfl⟩))

/-! # The streams only move forward (spec/20_memory.md R71, R72, R78) -/

/-- From `s` to `t` OUT has only grown and IN has only been read on, and the launch parameters are the same. -/
structure Forward (s t : State) : Prop where
  written : s.outp.bytes <+: t.outp.bytes
  limit   : t.outp.limit = s.outp.limit
  read    : s.inp.pos ≤ t.inp.pos
  bytes   : t.inp.bytes = s.inp.bytes
  atEnd   : t.inp.atEnd = s.inp.atEnd
  base    : t.host.base = s.host.base

theorem Forward.refl (s : State) : Forward s s := ⟨List.prefix_rfl, rfl, Nat.le_refl _, rfl, rfl, rfl⟩

/-- The packer appends to OUT. -/
theorem Forward.pack {s t u : State} (h : Forward s t) (step : PackStep t u) : Forward s u := by
  obtain ⟨p, added, -, rfl⟩ := step
  exact { h with written := h.written.trans (List.prefix_append _ added) }

/-- The unpacker advances IN_POS. -/
theorem Forward.unpack {s t u : State} (h : Forward s t) (step : UnpackStep t u) : Forward s u := by
  obtain ⟨v, n, -, rfl⟩ := step
  exact { h with read := h.read.trans (Nat.le_add_right _ n) }

/-- Counting touches no port. -/
theorem Forward.count {s t u : State} (h : Forward s t) (step : CountStep t u) : Forward s u := by
  obtain rfl | ⟨f, rfl⟩ := step
  · exact h
  · exact { h with }

/-- OUT is written by the packer and by OutWrite, IN is read by the unpacker; no other micro-operation touches a
port. -/
theorem forward_kept (i : Instr) (s : State) : KeptBy i (Forward s) where
  raised _ _ _ h := { h with }
  result _ _ _ h := { h with }
  eofNoted _ _ _ h := { h with }
  bitPut _ b t h := h.pack (putBit_packStep b t)
  byteOut _ v t h := h.pack (outWrite_packStep v t)
  bitGot _ t h := h.unpack (getBit_unpackStep t)
  counted _ sym t h := h.count (incFreq_countStep sym t)
  runIdle _ _ h := { h with }
  runCounts _ _ _ _ _ h := { h with }
  uncoded _ _ h := { h with }
  lengthSet _ _ _ _ _ h := { h with }
  installed _ _ _ h := { h with }
  fromTree _ t _ h := by
    obtain ⟨v, eq⟩ := ctreeBody_final t
    exact eq ▸ { h with }
  cleared _ _ h := { h with }
  built _ _ h := { h with }
  closed _ _ h := { h with }

/-- The reset action touches neither stream (spec/70_reset_and_hazards.md R290). -/
theorem Forward.reset {s t : State} (h : Forward s t) : Forward s (engineReset t) := { h with }

theorem Forward.exec {i : Instr} {s t u : State} (h : Forward s t) (run : exec i t = .next u) : Forward s u := by
  by_cases reset : i = .srst
  · subst reset
    cases run
    exact h.reset
  · exact exec_keeps (forward_kept i s) reset run h

theorem Forward.execute {w : Word} {s t u : State} (h : Forward s t) (run : execute w t = .next u) : Forward s u := by
  obtain ⟨i, -, run⟩ | ⟨-, -, rfl⟩ | ⟨-, -, rfl⟩ := execute_cases run
  · exact h.exec run
  · exact h
  · exact { h with }

theorem Forward.access {a : HostAccess} {s t u : State} (h : Forward s t) (run : hostAccess a t = .next u) :
    Forward s u := by
  obtain ⟨-, -, w, v, -, -, -, ends, rfl⟩ | ⟨-, -, -, -, -, -, -, rfl⟩ | ⟨-, -, offset, -, -, rfl⟩ | ⟨-, rfl⟩ :=
    hostAccess_cases run
  · have issued : Forward s (issue t) := { h with }
    exact { issued.execute ends with }
  · exact h
  · exact { h with }
  · exact h.reset

theorem step_forward {s t : State} (run : step s = .next t) : Forward s t := by
  unfold step at run
  split at run
  · cases run
    exact .refl s
  · have taken : Forward s (consume s) := { Forward.refl s with }
    exact taken.access run

/-- Settles O58: every micro-operation, reset among them, keeps `Forward`, and so does each access around it. -/
theorem streamsOnlyMoveForward : Obligations.StreamsOnlyMoveForward := by
  intro s t run
  obtain ⟨written, limit, read, bytes, atEnd, base⟩ := step_forward run
  exact ⟨written, limit, read, bytes, atEnd, base⟩

end Sys2Proof.Machine
end

section
/-! The encoding family: each row of the opcode map takes exactly the words of its command, no word is taken by two
rows, and an illegal word is an error (spec/30_encoding.md R100 to R113). -/

namespace Sys2Proof.Machine

/-! # Words put together from fields -/

theorem append_eq_append_iff {n m : Nat} {a c : BitVec n} {b d : BitVec m} : a ++ b = c ++ d ↔ a = c ∧ b = d := by
  refine ⟨fun h => ⟨?_, ?_⟩, fun ⟨hi, lo⟩ => hi ▸ lo ▸ rfl⟩
  · simpa only [BitVec.extractLsb'_append_eq_left] using congrArg (BitVec.extractLsb' m n) h
  · simpa only [BitVec.extractLsb'_append_eq_right] using congrArg (BitVec.extractLsb' 0 m) h

/-- A word is its upper and its lower field. -/
theorem exists_append {n m : Nat} (w : BitVec (n + m)) : ∃ (hi : BitVec n) (lo : BitVec m), w = hi ++ lo :=
  ⟨w.extractLsb' m n, w.extractLsb' 0 m, BitVec.extractLsb'_append_extractLsb'.symm⟩

/-- A field between others. -/
theorem extractLsb'_mid {n k r m : Nat} (hi : BitVec n) (mid : BitVec k) (res : BitVec r) (lo : BitVec m) :
    (hi ++ mid ++ res ++ lo).extractLsb' (r + m) k = mid := by
  rw [BitVec.extractLsb'_append_eq_of_le (Nat.le_add_left m r), Nat.add_sub_cancel,
    BitVec.extractLsb'_append_eq_of_le (Nat.le_refl r), Nat.sub_self, BitVec.extractLsb'_append_eq_right]

/-- A mask over all bits but an operand field at the bottom. -/
theorem masked_eq_iff {n m : Nat} (w : BitVec (n + m)) (top : BitVec n) :
    w &&& (BitVec.allOnes n ++ 0#m) = top ++ 0#m ↔ top ++ w.extractLsb' 0 m = w := by
  obtain ⟨hi, lo, rfl⟩ := exists_append w
  simp only [BitVec.and_append, BitVec.and_allOnes, BitVec.and_zero, BitVec.extractLsb'_append_eq_right,
    append_eq_append_iff, and_true, eq_comm]

/-- A mask over all bits but two operand fields, one at the bottom and one above reserved bits. -/
theorem masked_two_fields_eq_iff {n k r m : Nat} (w : BitVec (n + k + r + m)) (top : BitVec n) :
    w &&& (BitVec.allOnes n ++ 0#k ++ BitVec.allOnes r ++ 0#m) = top ++ 0#k ++ 0#r ++ 0#m ↔
      top ++ w.extractLsb' (r + m) k ++ 0#r ++ w.extractLsb' 0 m = w := by
  obtain ⟨upper, lo, rfl⟩ := exists_append w
  obtain ⟨fields, res, rfl⟩ := exists_append upper
  obtain ⟨hi, mid, rfl⟩ := exists_append fields
  simp only [extractLsb'_mid, BitVec.and_append, BitVec.and_allOnes, BitVec.and_zero,
    BitVec.extractLsb'_append_eq_right, append_eq_append_iff, and_true, eq_comm]

/-! # The operand fields (spec/30_encoding.md R107) -/

theorem ofBool_fieldBit (w : Word) : BitVec.ofBool (fieldBit w) = w.extractLsb' 0 1 := by
  refine BitVec.eq_of_getLsbD_eq fun i lt => ?_
  obtain rfl : i = 0 := by omega
  simp [fieldBit]

theorem ofNat_fieldSym (w : Word) : BitVec.ofNat 9 (fieldSym w) = w.extractLsb' 0 9 := by
  rw [fieldSym, BitVec.ofNat_toNat, BitVec.setWidth_eq]

theorem ofNat_fieldK (w : Word) : BitVec.ofNat 3 (fieldK w) = w.extractLsb' 16 3 := by
  rw [fieldK, BitVec.ofNat_toNat, BitVec.setWidth_eq]

theorem symEncodable_fieldSym (w : Word) : symEncodable (fieldSym w) = true :=
  decide_eq_true (w.extractLsb' 0 9).isLt

theorem wordIndexEncodable_fieldK (w : Word) : wordIndexEncodable (fieldK w) = true :=
  decide_eq_true (w.extractLsb' 16 3).isLt

/-- A symbol at the bottom of a word is read back. -/
theorem fieldSym_append (top : BitVec 23) {sym : Nat} (fits : symEncodable sym = true) :
    fieldSym (top ++ BitVec.ofNat 9 sym) = sym := by
  have lt : sym < 2 ^ 9 := of_decide_eq_true fits
  rw [fieldSym, BitVec.extractLsb'_append_eq_right, BitVec.toNat_ofNat, Nat.mod_eq_of_lt lt]

theorem fieldK_formatL3 (o : BitVec 8) (sym : Nat) {k : Nat} (fits : wordIndexEncodable k = true) :
    fieldK (formatL3 o sym k) = k := by
  have lt : k < 2 ^ 3 := of_decide_eq_true fits
  have read := extractLsb'_mid (o ++ 0#5) (BitVec.ofNat 3 k) 0#7 (BitVec.ofNat 9 sym)
  exact (congrArg BitVec.toNat read).trans (Nat.mod_eq_of_lt lt)

theorem fieldImm8_formatL (o : BitVec 8) (sym : Nat) (imm : Byte) : fieldImm8 (formatL o sym imm) = imm :=
  extractLsb'_mid o imm 0#7 (BitVec.ofNat 9 sym)

theorem fieldByte_formatY (o : BitVec 8) (v : Byte) : fieldByte (formatY o v) = v :=
  BitVec.extractLsb'_append_eq_right

theorem fieldBit_formatB (o : BitVec 8) (b : Bool) : fieldBit (formatB o b) = b := by
  have read : BitVec.ofBool (fieldBit (formatB o b)) = BitVec.ofBool b :=
    (ofBool_fieldBit _).trans BitVec.extractLsb'_append_eq_right
  exact BitVec.ofBool_eq_iff_eq.mp read

/-! # The rows of the opcode map (spec/30_encoding.md R108) -/

/-- A word's fields always make a well-formed command, and the row takes exactly the words its own commands encode to:
its mask covers every bit that is no operand's. -/
structure RowFaithful (r : OpcodeRow) : Prop where
  fits : ∀ w, (r.command w).wellFormed = true
  takes : ∀ w, w &&& r.mask = r.pattern ↔ encode (r.command w) = w

/-! ## One law per format (R102 to R106) -/

theorem formatN_row (name : String) (i : Instr) (fits : i.wellFormed = true) :
    RowFaithful ⟨name, encode i, 0xFFFFFFFF, fun _ => i⟩ where
  fits _ := fits
  takes w := by
    have masked : w &&& 0xFFFFFFFF = w := BitVec.and_allOnes
    rw [masked, eq_comm]

theorem formatB_row (name : String) {command : Bool → Instr} (o : BitVec 8)
    (fits : ∀ b, (command b).wellFormed = true) (word : ∀ b, encode (command b) = formatB o b) :
    RowFaithful ⟨name, formatB o false, 0xFFFFFFFE, fun w => command (fieldBit w)⟩ where
  fits _ := fits _
  takes w := by
    have masked := masked_eq_iff (n := 31) (m := 1) w (o ++ 0#23)
    rw [← ofBool_fieldBit] at masked
    rw [word]
    exact masked

theorem formatS_row (name : String) {command : Nat → Instr} (o : BitVec 8)
    (fits : ∀ sym, (command sym).wellFormed = symEncodable sym)
    (word : ∀ sym, encode (command sym) = formatS o sym) :
    RowFaithful ⟨name, formatS o 0, 0xFFFFFE00, fun w => command (fieldSym w)⟩ where
  fits w := (fits _).trans (symEncodable_fieldSym w)
  takes w := by
    have masked := masked_eq_iff (n := 23) (m := 9) w (o ++ 0#15)
    rw [← ofNat_fieldSym] at masked
    rw [word]
    exact masked

theorem formatY_row (name : String) {command : Byte → Instr} (o : BitVec 8)
    (fits : ∀ v, (command v).wellFormed = true) (word : ∀ v, encode (command v) = formatY o v) :
    RowFaithful ⟨name, formatY o 0, 0xFFFFFF00, fun w => command (fieldByte w)⟩ where
  fits _ := fits _
  takes w := by
    rw [word]
    exact masked_eq_iff (n := 24) (m := 8) w (o ++ 0#16)

theorem lset_row : RowFaithful ⟨"LSET", 0x32000000, 0xFF00FE00, fun w => .lset (fieldSym w) (fieldImm8 w)⟩ where
  fits := symEncodable_fieldSym
  takes w := by
    have masked := masked_two_fields_eq_iff (n := 8) (k := 8) (r := 7) (m := 9) w 0x32
    rw [← ofNat_fieldSym] at masked
    exact masked

theorem cget_row : RowFaithful ⟨"CGET", 0x34000000, 0xFFF8FE00, fun w => .cget (fieldSym w) (fieldK w)⟩ where
  fits w := Bool.and_eq_true_iff.mpr ⟨symEncodable_fieldSym w, wordIndexEncodable_fieldK w⟩
  takes w := by
    have masked := masked_two_fields_eq_iff (n := 13) (k := 3) (r := 7) (m := 9) w (0x34#8 ++ 0#5)
    rw [← ofNat_fieldSym, ← ofNat_fieldK] at masked
    exact masked

/-! ## The two halves of the map -/

theorem opcodeRowsLow_faithful : ∀ r ∈ opcodeRowsLow, RowFaithful r := by
  simp only [opcodeRowsLow, List.forall_mem_cons]
  exact ⟨
    formatN_row "NOP" .nop rfl,
    formatN_row "SRST" .srst rfl,
    formatN_row "SYMLIM" .symlim rfl,
    formatB_row "BWR" 0x10 (fun _ => rfl) (fun _ => rfl),
    formatN_row "BFIN" .bfin rfl,
    formatN_row "BRD" .brd rfl,
    formatN_row "BRDNE" .brdne rfl,
    formatN_row "FCLR" .fclr rfl,
    formatS_row "FINC" 0x21 (fun _ => rfl) (fun _ => rfl),
    formatS_row "FGET" 0x22 (fun _ => rfl) (fun _ => rfl),
    formatN_row "FBUILD" .fbuild rfl,
    List.forall_mem_nil _⟩

theorem opcodeRowsHigh_faithful : ∀ r ∈ opcodeRowsHigh, RowFaithful r := by
  simp only [opcodeRowsHigh, List.forall_mem_cons]
  exact ⟨
    formatN_row "CTREE" .ctree rfl,
    formatN_row "CLEN" .clen rfl,
    lset_row,
    formatS_row "LGET" 0x33 (fun _ => rfl) (fun _ => rfl),
    cget_row,
    formatN_row "HDRW" .hdrw rfl,
    formatN_row "HDRR" .hdrr rfl,
    formatY_row "CBYTE" 0x40 (fun _ => rfl) (fun _ => rfl),
    formatN_row "CEND" .cend rfl,
    formatY_row "EBYTE" 0x42 (fun _ => rfl) (fun _ => rfl),
    formatN_row "EEND" .eend rfl,
    formatS_row "XSYM" 0x44 (fun _ => rfl) (fun _ => rfl),
    formatS_row "HENC" 0x50 (fun _ => rfl) (fun _ => rfl),
    formatN_row "HDEC" .hdec rfl,
    formatN_row "XDEC" .xdec rfl,
    List.forall_mem_nil _⟩

theorem opcodeRows_faithful {r : OpcodeRow} (row : r ∈ opcodeRows) : RowFaithful r :=
  (List.mem_append.mp row).elim (opcodeRowsLow_faithful r) (opcodeRowsHigh_faithful r)

theorem hits_iff_encode {r : OpcodeRow} (row : r ∈ opcodeRows) (w : Word) :
    r.hits w = true ↔ encode (r.command w) = w :=
  beq_iff_eq.trans ((opcodeRows_faithful row).takes w)

/-! # The decoder (spec/30_encoding.md R109, R110) -/

theorem mask_covers_opcode : ∀ r ∈ opcodeRows, fieldOpcode r.mask = BitVec.allOnes 8 := by decide

theorem opcodes_nodup : (opcodeRows.map (fieldOpcode ·.pattern)).Nodup := by decide

theorem fieldOpcode_of_hits {r : OpcodeRow} (row : r ∈ opcodeRows) {w : Word} (hit : r.hits w = true) :
    fieldOpcode w = fieldOpcode r.pattern := by
  have masked : w &&& r.mask = r.pattern := beq_iff_eq.mp hit
  calc fieldOpcode w
    _ = fieldOpcode w &&& fieldOpcode r.mask := by rw [mask_covers_opcode r row, BitVec.and_allOnes]
    _ = fieldOpcode r.pattern := by rw [← masked]; exact BitVec.extractLsb'_and.symm

/-- No two rows take one word. -/
theorem eq_of_hits {r q : OpcodeRow} (rowR : r ∈ opcodeRows) (rowQ : q ∈ opcodeRows) {w : Word}
    (hitR : r.hits w = true) (hitQ : q.hits w = true) : r = q :=
  List.inj_on_of_nodup_map opcodes_nodup rowR rowQ
    ((fieldOpcode_of_hits rowR hitR).symm.trans (fieldOpcode_of_hits rowQ hitQ))

theorem hits_of_find? {w : Word} {r : OpcodeRow} (found : opcodeRows.find? (·.hits w) = some r) :
    r ∈ opcodeRows ∧ r.hits w = true :=
  ⟨List.mem_of_find?_eq_some found, List.find?_some (p := fun r : OpcodeRow => r.hits w) found⟩

/-- The order of the rows plays no part. -/
theorem decode_eq_some_iff {w : Word} {i : Instr} :
    decode w = some i ↔ ∃ r ∈ opcodeRows, r.hits w = true ∧ r.command w = i := by
  rw [decode, Option.map_eq_some_iff]
  constructor
  · rintro ⟨r, found, command⟩
    obtain ⟨row, hit⟩ := hits_of_find? found
    exact ⟨r, row, hit, command⟩
  · rintro ⟨r, row, hit, command⟩
    have isSome : (opcodeRows.find? (·.hits w)).isSome = true := List.find?_isSome.mpr ⟨r, row, hit⟩
    obtain ⟨q, found⟩ := Option.isSome_iff_exists.mp isSome
    obtain ⟨rowQ, hitQ⟩ := hits_of_find? found
    have same : q = r := eq_of_hits rowQ row hitQ hit
    exact ⟨q, found, same ▸ command⟩

/-- A row that reads a command back from the command's word is the row that takes the word. -/
theorem decode_encode_of_row {i : Instr} {r : OpcodeRow} (n : Nat) (row : opcodeRows[n]? = some r)
    (read : r.command (encode i) = i) : decode (encode i) = some i :=
  have mem : r ∈ opcodeRows := List.mem_of_getElem? row
  decode_eq_some_iff.mpr ⟨r, mem, (hits_iff_encode mem _).mpr (congrArg encode read), read⟩

/-- Settles O17: each command has its row, which reads every operand back. -/
theorem decodeOfEncodeIsTheCommand : Obligations.DecodeOfEncodeIsTheCommand := by
  intro i fits
  cases i with
  | nop => exact decode_encode_of_row 0 rfl rfl
  | srst => exact decode_encode_of_row 1 rfl rfl
  | symlim => exact decode_encode_of_row 2 rfl rfl
  | bwr b => exact decode_encode_of_row 3 rfl (congrArg Instr.bwr (fieldBit_formatB _ b))
  | bfin => exact decode_encode_of_row 4 rfl rfl
  | brd => exact decode_encode_of_row 5 rfl rfl
  | brdne => exact decode_encode_of_row 6 rfl rfl
  | fclr => exact decode_encode_of_row 7 rfl rfl
  | finc sym => exact decode_encode_of_row 8 rfl (congrArg Instr.finc (fieldSym_append _ fits))
  | fget sym => exact decode_encode_of_row 9 rfl (congrArg Instr.fget (fieldSym_append _ fits))
  | fbuild => exact decode_encode_of_row 10 rfl rfl
  | ctree => exact decode_encode_of_row 11 rfl rfl
  | clen => exact decode_encode_of_row 12 rfl rfl
  | lset sym imm =>
    exact decode_encode_of_row 13 rfl (congrArg₂ Instr.lset (fieldSym_append _ fits) (fieldImm8_formatL _ sym imm))
  | lget sym => exact decode_encode_of_row 14 rfl (congrArg Instr.lget (fieldSym_append _ fits))
  | cget sym k =>
    obtain ⟨fitsSym, fitsK⟩ := Bool.and_eq_true_iff.mp fits
    exact decode_encode_of_row 15 rfl (congrArg₂ Instr.cget (fieldSym_append _ fitsSym) (fieldK_formatL3 _ sym fitsK))
  | hdrw => exact decode_encode_of_row 16 rfl rfl
  | hdrr => exact decode_encode_of_row 17 rfl rfl
  | cbyte v => exact decode_encode_of_row 18 rfl (congrArg Instr.cbyte (fieldByte_formatY _ v))
  | cend => exact decode_encode_of_row 19 rfl rfl
  | ebyte v => exact decode_encode_of_row 20 rfl (congrArg Instr.ebyte (fieldByte_formatY _ v))
  | eend => exact decode_encode_of_row 21 rfl rfl
  | xsym sym => exact decode_encode_of_row 22 rfl (congrArg Instr.xsym (fieldSym_append _ fits))
  | henc sym => exact decode_encode_of_row 23 rfl (congrArg Instr.henc (fieldSym_append _ fits))
  | hdec => exact decode_encode_of_row 24 rfl rfl
  | xdec => exact decode_encode_of_row 25 rfl rfl

/-- Settles O18: the row that took the word takes no other than its command's. -/
theorem decodedWordIsTheEncoding : Obligations.DecodedWordIsTheEncoding := by
  intro w i decoded
  obtain ⟨r, row, hit, rfl⟩ := decode_eq_some_iff.mp decoded
  exact ⟨(opcodeRows_faithful row).fits w, (hits_iff_encode row w).mp hit⟩

/-- Settles O19: the rows' opcodes differ, so rows that take one word are one row. -/
theorem atMostOneRowMatches : Obligations.AtMostOneRowMatches := by
  intro w a b r q atA atB hitR hitQ
  have same : r = q := eq_of_hits (List.mem_of_getElem? atA) (List.mem_of_getElem? atB) hitR hitQ
  have inside : a < opcodeRows.length := (List.getElem?_eq_some_iff.mp atA).1
  exact (List.getElem?_inj inside (opcodes_nodup.of_map _)).mp (by rw [atA, atB, same])

/-- Settles O16: the decoder evaluated on each word. -/
theorem exampleWordsDecode : Obligations.ExampleWordsDecode := by
  unfold Obligations.ExampleWordsDecode
  decide

/-! # An illegal word (spec/30_encoding.md R109, spec/60_exceptions.md R265) -/

/-- A CMD write to an idle engine runs the word with BUSY = 1 and ends with BUSY = 0 (spec/40_control.md R130). -/
theorem step_cmdWrite {s : State} {w : Word} {rest : List HostAccess} (idle : s.busy = false)
    (pending : s.host.pending = .write s.host.base 4 w :: rest) :
    step s = complete (execute w { s with
      busy := true, host := { s.host with pending := rest, k := s.host.k + 1 } }) := by
  rw [step_of_pending pending]
  simp [hostAccess, windowOffset_cmd, windowWrite, idle, onCmdWrite, issue, State.withHost, State.withBusy]

theorem execute_illegal {w : Word} {s : State} (live : Live s) (illegal : decode w = none) :
    execute w s = .next { s with er := { err := 0x41, halt := true, info := w } } := by
  rw [execute, illegal]
  simp [illegalWord, live, errorEntry_eq, errorInfo_of_word, Cause.code]

/-- Settles O6: what a CMD write runs is the error entry with the word's own opcode and payload, which are the word. -/
theorem illegalWordRaisesIllegal : Obligations.IllegalWordRaisesIllegal := by
  intro s w rest idle live pending illegal
  have raised := execute_illegal (s := { s with
    busy := true, host := { s.host with pending := rest, k := s.host.k + 1 } }) live illegal
  rw [step_cmdWrite idle pending, raised, complete]
  simp [State.withBusy, idle]

end Sys2Proof.Machine
end

section
/-! The control family: the checks before a command's body, what a CMD write runs, and the control commands
(spec/40_control.md R130 to R137). -/

namespace Sys2Proof.Machine

/-! # The first failed check (spec/40_control.md R132, spec/60_exceptions.md R263, R265) -/

/-- A run from `s` begins with the checks `cs`: if one of them fails, the run raises what the first that fails says
and has written nothing. -/
def ChecksFirst (s : State) (cs : List Check) (r : Run Unit) : Prop :=
  ∀ c, cs.find? (!·.passes) = some c → ∃ cause : Cause, cause.code = c.cause ∧ r = .raise cause c.payload s

theorem ChecksFirst.nil (s : State) (r : Run Unit) : ChecksFirst s [] r := nofun

/-- One more check in front: where it holds the rest runs from the same state. -/
theorem ChecksFirst.require {s : State} {cs : List Check} {f : Unit → State → Run Unit} {holds : Bool} (cause : Cause)
    (rest : ChecksFirst s cs (f () s)) :
    ChecksFirst s (⟨holds, cause.code, 0⟩ :: cs) ((require holds cause s).andThen f) := by
  intro c first
  cases holds with
  | true => exact rest c first
  | false =>
    cases first
    exact ⟨cause, rfl, rfl⟩

/-- The symbol-range check in front. -/
theorem ChecksFirst.needSymbol {s : State} {cs : List Check} {f : Unit → State → Run Unit} {sym : Nat}
    (rest : ChecksFirst s cs (f () s)) : ChecksFirst s (symbolCheck sym :: cs) ((needSymbol sym s).andThen f) := by
  intro c first
  by_cases lt : sym < 322
  · rw [needSymbol_of_lt lt]
    exact rest c (by simpa [symbolCheck, lt] using first)
  · rw [needSymbol_of_ge (Nat.not_lt.mp lt)]
    obtain rfl : symbolCheck sym = c := by simpa [symbolCheck, lt] using first
    exact ⟨.symRange, rfl, rfl⟩

/-- The wrapper turns the raise of the first failed check into error entry. -/
theorem command_of_failedCheck {i : Instr} {body : State → Run Unit} {s : State} {cs : List Check} {c : Check}
    (live : Live s) (first : cs.find? (!·.passes) = some c) (checks : ChecksFirst s cs (body s)) :
    command i body s = .next { s with er := { err := c.cause, halt := true, info := errorInfo i.opcode c.payload } } := by
  obtain ⟨cause, code, raises⟩ := checks c first
  rw [command_of_raise live raises, errorEntry_eq, code]

/-- Every command makes the checks of `checksOf` in their order before its body. -/
theorem exec_of_failedCheck {i : Instr} {s : State} {c : Check} (live : Live s)
    (first : (checksOf s i).find? (!·.passes) = some c) :
    exec i s = .next { s with er := { err := c.cause, halt := true, info := errorInfo i.opcode c.payload } } := by
  unfold exec
  cases i with
  | nop | srst | symlim | brd | brdne | fclr | fbuild | clen | hdrr => cases first
  | finc | fget | lget | lset | xsym => exact command_of_failedCheck live first (.needSymbol (.nil s _))
  | cget => exact command_of_failedCheck live first (.needSymbol (.require .noTable (.nil s _)))
  | henc =>
    exact command_of_failedCheck live first (.needSymbol (.require .noTable (.require .boClosed (.nil s _))))
  | bwr | bfin => exact command_of_failedCheck live first (.require .boClosed (.nil s _))
  | ctree => exact command_of_failedCheck live first (.require .noTree (.nil s _))
  | hdrw => exact command_of_failedCheck live first (.require .noTable (.require .boClosed (.nil s _)))
  | cbyte | cend => exact command_of_failedCheck live first (.require .escMode (.nil s _))
  | ebyte | eend =>
    exact command_of_failedCheck live first
      (.require .noTable (.require .boClosed (.require .escMode (.nil s _))))
  | hdec | xdec => exact command_of_failedCheck live first (.require .noTable (.nil s _))

/-- Settles O20: the check after those that pass is the first that fails. -/
theorem firstFailedCheckIsReported : Obligations.FirstFailedCheckIsReported := by
  intro i s passed rest c live checks pass fails
  refine exec_of_failedCheck live (List.find?_eq_some_iff_append.mpr ⟨by simp [fails], passed, rest, checks, ?_⟩)
  exact fun p mem => by simp [pass p mem]

/-! # A CMD write (spec/40_control.md R130, R131) -/

theorem execute_of_decode {w : Word} {i : Instr} (decoded : decode w = some i) (s : State) :
    execute w s = exec i s := by
  rw [execute, decoded]

/-- Settles O5: the word written is the decoded command, between BUSY = 1 and BUSY = 0. -/
theorem stepRunsTheDecodedCommand : Obligations.StepRunsTheDecodedCommand := by
  intro s w i rest idle pending decoded
  rw [step_cmdWrite idle pending, execute_of_decode decoded]
  rfl

theorem decode_srst : decode 0x01000000 = some .srst := decodeOfEncodeIsTheCommand .srst rfl

/-- A halted engine acts on no word but SRST's, legal or not: no other word decodes to SRST. -/
theorem execute_of_halted {w : Word} {s : State} (halted : s.er.halt = true) (other : w ≠ 0x01000000) :
    execute w s = .next s := by
  cases decoded : decode w with
  | none => simp [execute, decoded, illegalWord, halted]
  | some i =>
    rw [execute_of_decode decoded]
    refine exec_of_halted ?_ halted
    rintro rfl
    obtain ⟨-, word⟩ := decodedWordIsTheEncoding w .srst decoded
    exact other word.symm

/-- Settles O7: any other word is discarded, and SRST's runs the reset action. -/
theorem haltedEngineDiscardsAllButSrst : Obligations.HaltedEngineDiscardsAllButSrst := by
  intro s w rest idle halted pending
  rw [step_cmdWrite idle pending]
  refine ⟨fun other => ?_, ?_⟩
  · have discarded := execute_of_halted (s := { s with
      busy := true, host := { s.host with pending := rest, k := s.host.k + 1 } }) halted other
    rw [discarded, complete]
    simp [State.withBusy, idle]
  · rintro rfl
    exact ⟨_, rfl, by rw [execute_of_decode decode_srst]; rfl, rfl⟩

/-! # NOP and SYMLIM (spec/40_control.md R135, R137) -/

theorem exec_nop {s : State} (live : Live s) : exec .nop s = .next s := by
  unfold exec execNop
  exact command_of_ok live rfl

theorem exec_symlim {s : State} (live : Live s) : exec .symlim s = .next (s.withRes Config.symbolLimit) := by
  unfold exec execSymlim
  exact command_of_ok live rfl

/-- Settles O22: neither body can raise, and the symbol limit is 0x142. -/
theorem nopAndSymlimResults : Obligations.NopAndSymlimResults := fun _ live =>
  ⟨exec_nop live, exec_symlim live⟩

end Sys2Proof.Machine
end

section
/-! The bit-stream family: the packing and the unpacking law, and BWR, BFIN, BRD and BRDNE
(spec/41_bitstream.md R150 to R157). -/

namespace Sys2Proof.Machine

/-! # Room at the OUT port (spec/20_memory.md R72) -/

theorem outRoom_zero (s : State) : OutRoom 0 s := by
  unfold OutRoom
  split
  · trivial
  · exact Nat.zero_le _

theorem OutRoom.mono {m n : Nat} {s : State} (room : OutRoom n s) (le : m ≤ n) : OutRoom m s := by
  unfold OutRoom at room ⊢
  split
  · trivial
  · next lim limit => exact le.trans (by simpa [limit] using room)

/-- Only a finite limit refuses, and under one OUT has room for what it still takes. -/
theorem outRoom_iff_le_outLeft {m n : Nat} {s : State} (full : ¬ OutRoom n s) : OutRoom m s ↔ m ≤ outLeft s := by
  unfold OutRoom at full ⊢
  unfold outLeft
  cases limit : s.outp.limit <;> simp_all

theorem outLeft_lt_of_not_outRoom {n : Nat} {s : State} (full : ¬ OutRoom n s) : outLeft s < n :=
  Nat.not_le.mp ((outRoom_iff_le_outLeft full).not.mp full)

theorem outAccepts_of_not_outRoom_one {s : State} (full : ¬ OutRoom 1 s) : outAccepts s.outp = false := by
  unfold OutRoom at full
  unfold outAccepts
  split <;> simp_all
  omega

/-! # The packing law (spec/41_bitstream.md R150, R152, R153) -/

/-- What a run of PutBits that OUT does not cut short leaves: all of `bits` are packed, and nothing but the packer and
OUT differs. It stands beside `PackedUntilRefused`. -/
structure PackedAll (bits : List Bool) (s t : State) : Prop where
  frame   : t = { s with bo := t.bo, outp := t.outp }
  packed  : writtenBits t = writtenBits s ++ bits
  count   : t.bo.cnt.toNat = (s.bo.cnt.toNat + bits.length) % 8
  closed  : t.bo.closed = s.bo.closed
  limit   : t.outp.limit = s.outp.limit
  written : ∃ added, t.outp.bytes = s.outp.bytes ++ added ∧ added.length = (s.bo.cnt.toNat + bits.length) / 8

theorem PackedAll.nil (s : State) : PackedAll [] s s where
  frame   := rfl
  packed  := (List.append_nil _).symm
  count   := (Nat.mod_eq_of_lt s.bo.cnt.isLt).symm
  closed  := rfl
  limit   := rfl
  written := ⟨[], (List.append_nil _).symm, (Nat.div_eq_of_lt s.bo.cnt.isLt).symm⟩

theorem PackedAll.append {xs ys : List Bool} {s t u : State} (first : PackedAll xs s t) (second : PackedAll ys t u) :
    PackedAll (xs ++ ys) s u := by
  obtain ⟨added, bytes, length⟩ := first.written
  obtain ⟨more, moreBytes, moreLength⟩ := second.written
  have count := first.count
  refine ⟨by rw [second.frame, first.frame], ?_, ?_, second.closed.trans first.closed,
    second.limit.trans first.limit, added ++ more, ?_, ?_⟩
  · rw [second.packed, first.packed, List.append_assoc]
  · rw [second.count, List.length_append]
    omega
  · rw [moreBytes, bytes, List.append_assoc]
  · rw [List.length_append, List.length_append]
    omega

/-- What OUT still takes after some bits are packed. -/
theorem PackedAll.outLeft_eq {bits : List Bool} {s t : State} (all : PackedAll bits s t) :
    outLeft t = outLeft s - (s.bo.cnt.toNat + bits.length) / 8 := by
  obtain ⟨added, bytes, length⟩ := all.written
  simp only [outLeft, all.limit, bytes, List.length_append, length]
  omega

/-- Room for the bits left after some are packed is room for all of them before. -/
theorem PackedAll.outRoom_iff {bits : List Bool} {n : Nat} {s t : State} (all : PackedAll bits s t)
    (room : OutRoom ((s.bo.cnt.toNat + bits.length) / 8) s) :
    OutRoom ((t.bo.cnt.toNat + n) / 8) t ↔ OutRoom ((s.bo.cnt.toNat + (bits.length + n)) / 8) s := by
  obtain ⟨added, bytes, length⟩ := all.written
  have count := all.count
  cases limit : s.outp.limit with
  | none => simp [OutRoom, all.limit, limit]
  | some lim =>
    simp only [OutRoom, all.limit, limit, bytes, List.length_append] at room ⊢
    omega

/-- Bits packed before the run that OUT cuts short are part of it. -/
theorem PackedAll.append_refused {xs ys : List Bool} {s t u : State} (all : PackedAll xs s t)
    (left : (s.bo.cnt.toNat + xs.length) / 8 ≤ outLeft s) (cut : PackedUntilRefused ys t u) :
    PackedUntilRefused (xs ++ ys) s u := by
  obtain ⟨added, bytes, length⟩ := all.written
  obtain ⟨more, moreBytes, moreLength⟩ := cut.written
  have count := all.count
  have leftAfter := all.outLeft_eq
  have fit : bitsThatFit s = xs.length + bitsThatFit t := by
    have := s.bo.cnt.isLt
    simp only [bitsThatFit, leftAfter]
    omega
  refine ⟨by rw [cut.frame, all.frame], ?_, cut.seven, cut.closed.trans all.closed, cut.limit.trans all.limit,
    added ++ more, ?_, ?_⟩
  · rw [cut.packed, all.packed, fit, List.take_length_add_append, List.append_assoc]
  · rw [moreBytes, bytes, List.append_assoc]
  · rw [List.length_append]
    omega

/-- PutBit with room for the byte, if it completes one. -/
theorem putBit_packs {s : State} (b : Bool) (room : OutRoom ((s.bo.cnt.toNat + 1) / 8) s) :
    ∃ t, putBit b s = .ok () t ∧ PackedAll [b] s t := by
  obtain ⟨t, run, ⟨p, added, closed, rfl⟩, packed, cnt, length⟩ :=
    putBit_ok (s := s) b fun full => outAccepts_of_room (n := 0) (by simpa [full] using room)
  refine ⟨_, run, rfl, packed, ?_, closed, rfl, added, rfl, by simpa using length⟩
  rw [cnt, BitVec.toNat_add]
  rfl

/-- PutBit without that room: it completes a byte, OUT is at its limit, and nothing has happened. -/
theorem putBit_full {s : State} (b : Bool) (bits : List Bool) (full : ¬ OutRoom ((s.bo.cnt.toNat + 1) / 8) s) :
    putBit b s = .raise .ioWrite 0 s ∧ PackedUntilRefused (b :: bits) s s := by
  have few := outLeft_lt_of_not_outRoom full
  have small := s.bo.cnt.isLt
  have seven : s.bo.cnt = 7 := BitVec.eq_of_toNat_eq (show s.bo.cnt.toNat = 7 by omega)
  have left : outLeft s = 0 := by omega
  have fits : bitsThatFit s = 0 := by simp [bitsThatFit, left, seven]
  have refuses := outAccepts_of_not_outRoom_one (s := s) (by simpa [seven] using full)
  refine ⟨putBit_refused b seven refuses, rfl, ?_, seven, rfl, rfl, [], (List.append_nil _).symm, left.symm⟩
  rw [fits, List.take_zero, List.append_nil]

/-- The packing law where OUT has room for every byte the bits complete. -/
theorem putBitList_packs {bits : List Bool} {s : State} (room : OutRoom ((s.bo.cnt.toNat + bits.length) / 8) s) :
    ∃ t, putBitList bits s = .ok () t ∧ PackedAll bits s t := by
  induction bits generalizing s with
  | nil => exact ⟨s, rfl, .nil s⟩
  | cons b bits ih =>
    have roomOne : OutRoom ((s.bo.cnt.toNat + 1) / 8) s := room.mono (by simp only [List.length_cons]; omega)
    obtain ⟨t, run, one⟩ := putBit_packs b roomOne
    obtain ⟨u, runRest, rest⟩ := ih ((one.outRoom_iff roomOne).mpr (by simpa [Nat.add_comm] using room))
    exact ⟨u, by simp [putBitList, run, runRest], one.append rest⟩

/-- The packing law where OUT refuses one of those bytes. -/
theorem putBitList_refused {bits : List Bool} {s : State}
    (full : ¬ OutRoom ((s.bo.cnt.toNat + bits.length) / 8) s) :
    ∃ t, putBitList bits s = .raise .ioWrite 0 t ∧ PackedUntilRefused bits s t := by
  induction bits generalizing s with
  | nil =>
    refine absurd (outRoom_zero s) ?_
    rwa [List.length_nil, Nat.add_zero, Nat.div_eq_of_lt s.bo.cnt.isLt] at full
  | cons b bits ih =>
    by_cases roomOne : OutRoom ((s.bo.cnt.toNat + 1) / 8) s
    · obtain ⟨t, run, one⟩ := putBit_packs b roomOne
      obtain ⟨u, runRest, cut⟩ := ih fun room =>
        full (by simpa [Nat.add_comm] using (one.outRoom_iff roomOne).mp room)
      have left := (outRoom_iff_le_outLeft full).mp roomOne
      exact ⟨u, by simp [putBitList, run, runRest], one.append_refused left cut⟩
    · obtain ⟨raises, cut⟩ := putBit_full b bits roomOne
      exact ⟨s, by simp [putBitList, raises], cut⟩

/-- Settles O27: by induction on the bits, the first of them packed or refused. -/
theorem packingLaw : Obligations.PackingLaw := by
  refine fun bits s => ⟨fun room => ?_, putBitList_refused⟩
  obtain ⟨t, run, frame, packed, count, closed, limit, written⟩ := putBitList_packs room
  exact ⟨t, run, frame, packed, count, closed, limit, written⟩

/-! # BWR and BFIN (spec/41_bitstream.md R154, R155) -/

theorem needOpen_of_open {s : State} (isOpen : s.bo.closed = false) : needOpen s = .ok () s := by
  simp [needOpen, isOpen]

theorem shiftIn_eq_ofNat (acc : Byte) (b : Bool) : shiftIn acc b = BitVec.ofNat 8 (acc.toNat * 2 + b.toNat) := by
  refine BitVec.eq_of_toNat_eq ?_
  cases b <;> simp [shiftIn]

theorem paddedByte_eq_ofNat (p : Packer) : paddedByte p = BitVec.ofNat 8 (p.acc.toNat * 2 ^ (8 - p.cnt.toNat)) := by
  refine BitVec.eq_of_toNat_eq ?_
  simp [paddedByte, Nat.shiftLeft_eq]

/-- BWR with the packer open where its PutBit succeeds. -/
theorem exec_bwr_of_ok {s t : State} {b : Bool} (live : Live s) (isOpen : s.bo.closed = false)
    (put : putBit b s = .ok () t) : exec (.bwr b) s = .next t := by
  unfold exec execBwr
  exact command_of_ok live (by rw [needOpen_of_open isOpen]; exact put)

/-- BWR with the packer open where OUT refuses the byte. -/
theorem exec_bwr_of_raise {s t : State} {b : Bool} {c : Cause} {p : BitVec 24} (live : Live s)
    (isOpen : s.bo.closed = false) (put : putBit b s = .raise c p t) :
    exec (.bwr b) s = .next (errorEntry c p 0x10 t) := by
  unfold exec execBwr
  exact command_of_raise live (by rw [needOpen_of_open isOpen]; exact put)

/-- Settles O23: the three branches of PutBit. -/
theorem bwrPacksOneBit : Obligations.BwrPacksOneBit := by
  intro s b live isOpen
  rw [← shiftIn_eq_ofNat]
  refine ⟨fun short => ?_, fun full room => ?_, fun full noRoom => ?_⟩
  · exact exec_bwr_of_ok live isOpen (if_neg short)
  · refine exec_bwr_of_ok live isOpen ?_
    rw [putBit, if_pos full, outWrite_of_accepts (outAccepts_of_room room)]
    rfl
  · rw [exec_bwr_of_raise live isOpen (putBit_refused b full (outAccepts_of_not_outRoom_one noRoom))]
    rfl

/-- BFIN with the packer open where the partial byte is written or there is none. -/
theorem exec_bfin_of_ok {s t : State} (live : Live s) (isOpen : s.bo.closed = false)
    (flush : flushPartial s = .ok () t) : exec .bfin s = .next (t.withBo { acc := 0, cnt := 0, closed := true }) := by
  unfold exec execBfin
  exact command_of_ok live (by rw [needOpen_of_open isOpen, Run.ok_andThen, flush, Run.ok_andThen])

/-- BFIN with the packer open where OUT refuses the partial byte. -/
theorem exec_bfin_of_raise {s t : State} {c : Cause} {p : BitVec 24} (live : Live s) (isOpen : s.bo.closed = false)
    (flush : flushPartial s = .raise c p t) : exec .bfin s = .next (errorEntry c p 0x11 t) := by
  unfold exec execBfin
  exact command_of_raise live (by rw [needOpen_of_open isOpen, Run.ok_andThen, flush, Run.raise_andThen])

/-- Settles O24: no partial byte, or one that OUT takes or refuses. -/
theorem bfinPadsAndCloses : Obligations.BfinPadsAndCloses := by
  intro s live isOpen
  rw [← paddedByte_eq_ofNat]
  refine ⟨fun empty => ?_, fun started room => ?_, fun started noRoom => ?_⟩
  · rw [exec_bfin_of_ok live isOpen (if_pos empty)]
    rfl
  · have flush := outWrite_of_accepts (outAccepts_of_room room) (paddedByte s.bo)
    rw [exec_bfin_of_ok live isOpen ((if_neg started).trans flush)]
    rfl
  · have flush := outWrite_of_refuses (outAccepts_of_not_outRoom_one noRoom) (paddedByte s.bo)
    rw [exec_bfin_of_raise live isOpen ((if_neg started).trans flush)]
    rfl

/-! # GetBit, a lemma for each of its cases (spec/41_bitstream.md R151) -/

theorem rem_sub_one_toNat {r : BitVec 4} (h : r ≠ 0) : (r - 1).toNat = r.toNat - 1 := by
  have pos : r.toNat ≠ 0 := fun zero => h (BitVec.eq_of_toNat_eq zero)
  have small := r.isLt
  have one : (1 : BitVec 4).toNat = 1 := rfl
  rw [BitVec.toNat_sub, one]
  omega

theorem getBit_of_buffered {s : State} (rem : s.bi.rem ≠ 0) :
    getBit s = .ok (some (s.bi.buf.getLsbD (s.bi.rem.toNat - 1))) (s.withBi { s.bi with rem := s.bi.rem - 1 }) := by
  rw [getBit, if_neg rem, takeBit, rem_sub_one_toNat rem]

theorem getBit_of_ended {s : State} (rem : s.bi.rem = 0) (eos : s.bi.eos = true) : getBit s = .ok none s := by
  simp [getBit, rem, eos]

theorem getBit_of_byte {s : State} {v : Byte} (rem : s.bi.rem = 0) (eos : s.bi.eos = false)
    (byte : s.inp.bytes[s.inp.pos]? = some v) :
    getBit s = .ok (some (v.getLsbD 7))
      ((s.withInp { s.inp with pos := s.inp.pos + 1 }).withBi { buf := v, rem := 7, eos := false }) := by
  simp [getBit, rem, eos, inRead, byte, takeBit, State.withBi]

theorem getBit_of_eos {s : State} (rem : s.bi.rem = 0) (eos : s.bi.eos = false)
    (past : s.inp.bytes[s.inp.pos]? = none) (atEnd : s.inp.atEnd = .eos) :
    getBit s = .ok none (s.withBi { s.bi with eos := true }) := by
  simp [getBit, rem, eos, inRead, past, atEnd]

theorem getBit_of_ioerr {s : State} (rem : s.bi.rem = 0) (eos : s.bi.eos = false)
    (past : s.inp.bytes[s.inp.pos]? = none) (atEnd : s.inp.atEnd = .ioerr) :
    getBit s = .raise .ioRead 0 s := by
  simp [getBit, rem, eos, inRead, past, atEnd]

/-! # BRD and BRDNE (spec/41_bitstream.md R156, R157) -/

theorem bitResult_some (b : Bool) : bitResult (some b) = if b then 1 else 0 := by cases b <;> rfl

theorem exec_brd_of_ok {s t : State} {r : Option Bool} (live : Live s) (get : getBit s = .ok r t) :
    exec .brd s = .next (t.withRes (bitResult r)) := by
  unfold exec execBrd
  exact command_of_ok live (by rw [get, Run.ok_andThen])

theorem exec_brd_of_bit {s t : State} {b : Bool} (live : Live s) (get : getBit s = .ok (some b) t) :
    exec .brd s = .next (t.withRes (if b then 1 else 0)) := by
  rw [exec_brd_of_ok live get, bitResult_some]

theorem exec_brd_of_raise {s t : State} {c : Cause} {p : BitVec 24} (live : Live s) (get : getBit s = .raise c p t) :
    exec .brd s = .next (errorEntry c p 0x12 t) := by
  unfold exec execBrd
  exact command_of_raise live (by rw [get, Run.raise_andThen])

/-- Settles O25: the cases of GetBit; error entry writes E_IO_READ where IN fails. -/
theorem brdReadsOneBit : Obligations.BrdReadsOneBit := by
  refine fun s live => ⟨fun rem => ?_, fun v rem eos byte => ?_, fun rem eos => ?_, fun rem eos past atEnd => ?_,
    fun rem eos past atEnd => ?_⟩
  · exact exec_brd_of_bit live (getBit_of_buffered rem)
  · exact exec_brd_of_bit live (getBit_of_byte rem eos byte)
  · exact exec_brd_of_ok live (getBit_of_ended rem eos)
  · exact exec_brd_of_ok live (getBit_of_eos rem eos past atEnd)
  · exact exec_brd_of_raise live (getBit_of_ioerr rem eos past atEnd)

theorem exec_brdne_of_bit {s t : State} {b : Bool} (live : Live s) (get : getBit s = .ok (some b) t) :
    exec .brdne s = .next (t.withRes (if b then 1 else 0)) := by
  unfold exec execBrdne
  exact command_of_ok live (by rw [get, ← bitResult_some, Run.ok_andThen])

theorem exec_brdne_of_end {s t : State} (live : Live s) (get : getBit s = .ok none t) :
    exec .brdne s = .next (errorEntry .eosField 0 0x13 t) := by
  unfold exec execBrdne
  exact command_of_raise live (by rw [get, Run.ok_andThen])

theorem exec_brdne_of_raise {s t : State} {c : Cause} {p : BitVec 24} (live : Live s)
    (get : getBit s = .raise c p t) : exec .brdne s = .next (errorEntry c p 0x13 t) := by
  unfold exec execBrdne
  exact command_of_raise live (by rw [get, Run.raise_andThen])

/-- Settles O26: the cases of GetBit; the end-of-stream marker too becomes error entry. -/
theorem brdneNeedsABit : Obligations.BrdneNeedsABit := by
  refine fun s live => ⟨fun rem => ?_, fun v rem eos byte => ?_, fun rem eos => ?_, fun rem eos past atEnd => ?_,
    fun rem eos past atEnd => ?_⟩
  · exact exec_brdne_of_bit live (getBit_of_buffered rem)
  · exact exec_brdne_of_bit live (getBit_of_byte rem eos byte)
  · exact exec_brdne_of_end live (getBit_of_ended rem eos)
  · exact exec_brdne_of_end live (getBit_of_eos rem eos past atEnd)
  · exact exec_brdne_of_raise live (getBit_of_ioerr rem eos past atEnd)

/-! # The unpacking law (spec/41_bitstream.md R152) -/

/-- Settles O28: GetBit takes the head of the unread bits; with none left it sets BI_EOS, which keeps them empty. -/
theorem unpackingLaw : Obligations.UnpackingLaw := by
  refine fun s live => ⟨fun b rest unread => ?_, fun unread clean => ?_⟩
  · obtain ⟨t, get, ⟨u, n, -, rfl⟩, left, -⟩ := getBit_some unread
    exact ⟨_, exec_brd_of_bit live get, rfl, left, rfl, rfl⟩
  · have rem := rem_eq_zero_of_unread_nil unread
    exact ⟨_, exec_brd_of_ok live (getBit_none unread clean), rfl, unreadBits_of_rem_zero rem, .inl rfl, rfl⟩

end Sys2Proof.Machine
end

section
/-! The frequency family: FINC, FCLR and FGET, the nodes FBUILD merges and the tree it leaves
(spec/42_frequency.md R170 to R178). -/

namespace Sys2Proof.Machine

/-! # FINC (spec/42_frequency.md R170, R172) -/

theorem exec_finc_of_room {s : State} {sym : Nat} (live : Live s) (lt : sym < 322)
    (room : s.freqAt sym ≠ 0xFFFFFFFF) :
    exec (.finc sym) s = .next ((s.setFreq sym (s.freqAt sym + 1)).setHtValid false) := by
  unfold exec execFinc
  exact command_of_ok live (by rw [needSymbol_of_lt lt, Run.ok_andThen, incFreq_of_room room])

theorem exec_finc_of_full {s : State} {sym : Nat} (live : Live s) (lt : sym < 322)
    (full : s.freqAt sym = 0xFFFFFFFF) :
    exec (.finc sym) s = .next (errorEntry .freqOvf (BitVec.ofNat 24 sym) 0x21 s) := by
  unfold exec execFinc
  exact command_of_raise live (by rw [needSymbol_of_lt lt, Run.ok_andThen, incFreq_of_full full])

@[simp] theorem State.setHtValid_freqAt (s : State) (v : Bool) (sym : Nat) :
    (s.setHtValid v).freqAt sym = s.freqAt sym := rfl

/-- A payload that fits in its 24 bits stands in ERRINFO as it is (spec/60_exceptions.md R265). -/
theorem errorInfo_ofNat (o : BitVec 8) {p : Nat} (fits : p < 2 ^ 24) :
    errorInfo o (BitVec.ofNat 24 p) = BitVec.ofNat 32 (o.toNat * 2 ^ 24 + p) := by
  rw [errorInfo, BitVec.toNat_ofNat, Nat.mod_eq_of_lt fits]

/-- Below its greatest value a counter does not wrap. -/
theorem count_add_one_toNat {c : BitVec 32} (room : c ≠ 0xFFFFFFFF) : (c + 1).toNat = c.toNat + 1 := by
  have notFull : c.toNat ≠ 0xFFFFFFFF := fun full => room (BitVec.eq_of_toNat_eq full)
  have one : (1 : BitVec 32).toNat = 1 := rfl
  rw [BitVec.toNat_add, one]
  omega

/-- Settles O29: IncFreq with and without room in the counter. -/
theorem fincCountsOrOverflows : Obligations.FincCountsOrOverflows := by
  refine fun s sym live lt => ⟨fun room => ?_, fun full => ?_⟩
  · refine ⟨_, exec_finc_of_room live lt room, rfl, rfl, rfl, ?_, fun other ne => ?_⟩
    · rw [State.setHtValid_freqAt, State.setFreq_freqAt s _ _ lt, if_pos rfl, count_add_one_toNat room]
    · rw [State.setHtValid_freqAt, State.setFreq_freqAt s _ _ lt, if_neg ne.symm]
  · rw [exec_finc_of_full live lt full, errorEntry_eq, errorInfo_ofNat 0x21 (by omega)]
    rfl

/-! # FCLR and FGET (spec/42_frequency.md R171, R174) -/

theorem exec_fclr {s : State} (live : Live s) :
    exec .fclr s = .next (s.withFq { s.fq with freq := Vector.replicate 322 0, valid := false }) := by
  unfold exec execFclr
  exact command_of_ok live rfl

theorem exec_fget {s : State} {sym : Nat} (live : Live s) (lt : sym < 322) :
    exec (.fget sym) s = .next (s.withRes (s.freqAt sym)) := by
  unfold exec execFget
  exact command_of_ok live (by rw [needSymbol_of_lt lt, Run.ok_andThen])

theorem freqAt_of_zeros {s : State} (zeros : s.fq.freq = Vector.replicate 322 0) (sym : Nat) : s.freqAt sym = 0 := by
  rw [State.freqAt, zeros, Vector.getElem?_replicate]
  split <;> rfl

/-- Settles O30: an entry of the cleared table is 0, as is one outside it. -/
theorem fclrAndFgetResults : Obligations.FclrAndFgetResults := fun _ live =>
  ⟨⟨_, exec_fclr live, rfl, rfl, rfl, freqAt_of_zeros rfl⟩, fun _ lt => exec_fget live lt⟩

/-! # The least of the pool (spec/42_frequency.md R173, R176) -/

theorem keyLe_iff {a b : PoolKey} : keyLe a b = true ↔ a.1 < b.1 ∨ (a.1 = b.1 ∧ a.2 ≤ b.2) := by
  simp [keyLe]

theorem keyLe_refl (a : PoolKey) : keyLe a a = true := keyLe_iff.mpr (.inr ⟨rfl, Nat.le_refl _⟩)

theorem keyLe_trans {a b c : PoolKey} (first : keyLe a b = true) (second : keyLe b c = true) : keyLe a c = true := by
  rw [keyLe_iff] at *
  omega

theorem lesserKey_le_left (a b : PoolKey) : keyLe (lesserKey a b) a = true := by
  unfold lesserKey
  split
  · exact keyLe_refl a
  · next greater =>
    rw [keyLe_iff] at *
    omega

theorem lesserKey_le_right (a b : PoolKey) : keyLe (lesserKey a b) b = true := by
  unfold lesserKey
  split
  · assumption
  · exact keyLe_refl b

theorem foldl_lesserKey_le (xs : List PoolKey) (x : PoolKey) :
    ∀ p ∈ x :: xs, keyLe (xs.foldl lesserKey x) p = true := by
  induction xs generalizing x with
  | nil =>
    intro p mem
    obtain rfl := List.mem_singleton.mp mem
    exact keyLe_refl p
  | cons y ys ih =>
    have least := ih (lesserKey x y) _ List.mem_cons_self
    intro p mem
    obtain rfl | rfl | later : p = x ∨ p = y ∨ p ∈ ys := by simpa using mem
    · exact keyLe_trans least (lesserKey_le_left p y)
    · exact keyLe_trans least (lesserKey_le_right x p)
    · exact ih _ p (List.mem_cons_of_mem _ later)

theorem removeLeast_le {pool rest : List PoolKey} {a : PoolKey} (h : removeLeast pool = some (a, rest)) :
    ∀ p ∈ pool, keyLe a p = true := by
  cases pool with
  | nil => cases h
  | cons x xs =>
    obtain ⟨rfl, -⟩ : xs.foldl lesserKey x = a ∧ _ := by simpa [removeLeast] using h
    exact foldl_lesserKey_le xs x

/-! # The pool before each merge (spec/42_frequency.md R173, R177) -/

/-- The list stands for the pool P of arena `t` when node `n` is about to be created: each member once, with its
weight. -/
structure IsPool (t : HuffTree) (n : Nat) (pool : List PoolKey) : Prop where
  nodup : pool.Nodup
  mem   : ∀ p, p ∈ pool ↔ InPool t n p.2 ∧ t.weightOf p.2 = p.1
  older : ∀ n', 322 ≤ n' → n' < n → t.leftOf n' < n' ∧ t.rightOf n' < n'

/-- What `FbuildMergesTheTwoLeast` says of one internal node. -/
structure JoinsTheTwoLeast (t : HuffTree) (n : Nat) : Prop where
  weight : t.weightOf n = t.weightOf (t.leftOf n) + t.weightOf (t.rightOf n)
  left   : InPool t n (t.leftOf n)
  right  : InPool t n (t.rightOf n)
  order  : KeyLt t (t.leftOf n) (t.rightOf n)
  least  : ∀ m, InPool t n m → m ≠ t.leftOf n → m ≠ t.rightOf n → KeyLt t (t.rightOf n) m

/-- Node `n` of the arena is the merge `m`. -/
structure IsMerge (t : HuffTree) (n : Nat) (m : Merge) : Prop where
  left   : t.leftOf n = m.left
  right  : t.rightOf n = m.right
  weight : t.weightOf n = m.weight

theorem keyLt_of_keyLe {t : HuffTree} {p q : PoolKey} (hp : t.weightOf p.2 = p.1) (hq : t.weightOf q.2 = q.1)
    (le : keyLe p q = true) (ne : p ≠ q) : KeyLt t p.2 q.2 := by
  rw [keyLe_iff] at le
  rw [ne_eq, Prod.ext_iff] at ne
  unfold KeyLt
  omega

/-- Creating node `n` takes its children out of the pool and puts `n` in. -/
theorem inPool_succ {t : HuffTree} {n m : Nat} (internal : 322 ≤ n)
    (older : ∀ n', 322 ≤ n' → n' ≤ n → t.leftOf n' < n' ∧ t.rightOf n' < n') :
    InPool t (n + 1) m ↔ (InPool t n m ∧ m ≠ t.leftOf n ∧ m ≠ t.rightOf n) ∨ m = n := by
  unfold InPool
  constructor
  · rintro ⟨lt, free⟩
    by_cases new : m = n
    · exact .inr new
    · obtain ⟨left, right⟩ := free n internal n.lt_succ_self
      exact .inl ⟨⟨by omega, fun n' ge below => free n' ge (by omega)⟩, left.symm, right.symm⟩
  · rintro (⟨⟨lt, free⟩, left, right⟩ | rfl)
    · refine ⟨by omega, fun n' ge le => ?_⟩
      obtain below | rfl := Nat.lt_succ_iff_lt_or_eq.mp le
      · exact free n' ge below
      · exact ⟨left.symm, right.symm⟩
    · refine ⟨m.lt_succ_self, fun n' ge le => ?_⟩
      have := older n' ge (by omega)
      omega

section
variable {t : HuffTree} {n : Nat} {pool rest : List PoolKey} {a b : PoolKey}

/-- The merge of the two keys removed first joins the two least. -/
theorem IsPool.joinsTheTwoLeast (is : IsPool t n pool) (perm : pool.Perm (a :: b :: rest))
    (first : removeLeast pool = some (a, pool.erase a)) (second : removeLeast (pool.erase a) = some (b, rest))
    (node : IsMerge t n ⟨a.2, b.2, a.1 + b.1⟩) : JoinsTheTwoLeast t n := by
  obtain ⟨left, right, weight⟩ := node
  obtain ⟨aPool, aWeight⟩ := (is.mem a).mp (perm.mem_iff.mpr (by simp))
  obtain ⟨bPool, bWeight⟩ := (is.mem b).mp (perm.mem_iff.mpr (by simp))
  have ne : a ≠ b := List.ne_of_not_mem_cons (List.nodup_cons.mp (perm.nodup_iff.mp is.nodup)).1
  refine ⟨by rw [weight, left, right, aWeight, bWeight], left ▸ aPool, right ▸ bPool, ?_,
    fun m inPool notLeft notRight => ?_⟩
  · rw [left, right]
    exact keyLt_of_keyLe aWeight bWeight (removeLeast_le first b (perm.mem_iff.mpr (by simp))) ne
  · rw [left] at notLeft
    rw [right] at notRight ⊢
    have mem : (t.weightOf m, m) ∈ pool := (is.mem _).mpr ⟨inPool, rfl⟩
    have afterFirst : (t.weightOf m, m) ∈ pool.erase a :=
      (List.mem_erase_of_ne fun eq => notLeft (congrArg Prod.snd eq)).mpr mem
    exact keyLt_of_keyLe (q := (t.weightOf m, m)) bWeight rfl (removeLeast_le second _ afterFirst)
      fun eq => notRight (congrArg Prod.snd eq).symm

/-- The keys left when the two are taken out are those of the other nodes of the pool. -/
theorem IsPool.mem_rest (is : IsPool t n pool) (perm : pool.Perm (a :: b :: rest)) (p : PoolKey) :
    p ∈ rest ↔ (InPool t n p.2 ∧ p.2 ≠ a.2 ∧ p.2 ≠ b.2) ∧ t.weightOf p.2 = p.1 := by
  have other : ∀ {q : PoolKey}, q ∈ pool → p ∈ pool → p ≠ q → p.2 ≠ q.2 := by
    intro q qMem pMem ne same
    have pWeight := ((is.mem p).mp pMem).2
    have qWeight := ((is.mem q).mp qMem).2
    exact ne (Prod.ext (by rw [← pWeight, same, qWeight]) same)
  have nodup := perm.nodup_iff.mp is.nodup
  simp only [List.nodup_cons, List.mem_cons, not_or] at nodup
  obtain ⟨⟨-, aRest⟩, bRest, -⟩ := nodup
  have aMem : a ∈ pool := perm.mem_iff.mpr (by simp)
  have bMem : b ∈ pool := perm.mem_iff.mpr (by simp)
  constructor
  · intro mem
    have pMem : p ∈ pool := perm.mem_iff.mpr (by simp [mem])
    obtain ⟨inPool, weight⟩ := (is.mem p).mp pMem
    exact ⟨⟨inPool, other aMem pMem fun eq => aRest (eq ▸ mem), other bMem pMem fun eq => bRest (eq ▸ mem)⟩, weight⟩
  · rintro ⟨⟨inPool, notA, notB⟩, weight⟩
    have pMem : p ∈ a :: b :: rest := perm.mem_iff.mp ((is.mem p).mpr ⟨inPool, weight⟩)
    obtain rfl | rfl | mem : p = a ∨ p = b ∨ p ∈ rest := by simpa using pMem
    · exact absurd rfl notA
    · exact absurd rfl notB
    · exact mem

/-- The list with the two keys taken out and the new node's put in stands for the pool after the merge. -/
theorem IsPool.succ (is : IsPool t n pool) (internal : 322 ≤ n) (perm : pool.Perm (a :: b :: rest))
    (node : IsMerge t n ⟨a.2, b.2, a.1 + b.1⟩) : IsPool t (n + 1) (rest ++ [(a.1 + b.1, n)]) := by
  obtain ⟨left, right, weight⟩ := node
  obtain ⟨aPool, -⟩ := (is.mem a).mp (perm.mem_iff.mpr (by simp))
  obtain ⟨bPool, -⟩ := (is.mem b).mp (perm.mem_iff.mpr (by simp))
  have older : ∀ n', 322 ≤ n' → n' ≤ n → t.leftOf n' < n' ∧ t.rightOf n' < n' := by
    intro n' ge le
    obtain below | rfl := Nat.lt_or_eq_of_le le
    · exact is.older n' ge below
    · exact ⟨left ▸ aPool.1, right ▸ bPool.1⟩
  refine ⟨?_, fun p => ?_, fun n' ge lt => older n' ge (Nat.le_of_lt_succ lt)⟩
  · have fresh : (a.1 + b.1, n) ∉ rest := by
      intro mem
      obtain ⟨⟨⟨lt, -⟩, -⟩, -⟩ := (is.mem_rest perm _).mp mem
      exact Nat.lt_irrefl n lt
    have nodup : rest.Nodup := (perm.nodup_iff.mp is.nodup).of_cons.of_cons
    exact (List.perm_append_singleton _ rest).nodup_iff.mpr (List.nodup_cons.mpr ⟨fresh, nodup⟩)
  · have new : p = (a.1 + b.1, n) ↔ p.2 = n ∧ t.weightOf p.2 = p.1 := by
      constructor
      · rintro rfl
        exact ⟨rfl, weight⟩
      · rintro ⟨rfl, eq⟩
        exact Prod.ext (eq.symm.trans weight) rfl
    rw [List.mem_append, List.mem_singleton, is.mem_rest perm, new, inPool_succ internal older, left, right,
      or_and_right]

end

theorem merged_length {fuel : Nat} {pool rest : List PoolKey} {a b : PoolKey} (size : pool.length = fuel + 1 + 1)
    (perm : pool.Perm (a :: b :: rest)) (new : PoolKey) : (rest ++ [new]).length = fuel + 1 := by
  have length := perm.length_eq
  simp only [List.length_cons, List.length_append, List.length_nil] at length ⊢
  omega

/-- Every merge of the loop joins the two least of its pool. -/
theorem mergeLoop_joinsTheTwoLeast {t : HuffTree} {fuel n : Nat} {pool : List PoolKey} (internal : 322 ≤ n)
    (size : pool.length = fuel + 1) (is : IsPool t n pool)
    (arena : ∀ j m, (mergeLoop fuel n pool)[j]? = some m → IsMerge t (n + j) m) :
    ∀ j < fuel, JoinsTheTwoLeast t (n + j) := by
  induction fuel generalizing n pool with
  | zero => exact fun j lt => absurd lt (Nat.not_lt_zero j)
  | succ fuel ih =>
    obtain ⟨a, b, rest, perm, first, second, loop⟩ := mergeLoop_succ (fuel := fuel) (n := n) (pool := pool) (by omega)
    have node : IsMerge t n ⟨a.2, b.2, a.1 + b.1⟩ := arena 0 _ (by simp [loop])
    rintro (_ | j) lt
    · exact is.joinsTheTwoLeast perm first second node
    · have later : ∀ j m, (mergeLoop fuel (n + 1) (rest ++ [(a.1 + b.1, n)]))[j]? = some m →
          IsMerge t (n + 1 + j) m := by
        intro j m found
        rw [Nat.add_right_comm]
        exact arena (j + 1) m (by simpa [loop] using found)
      rw [← Nat.add_assoc, Nat.add_right_comm]
      exact ih (by omega) (merged_length size perm _) (is.succ internal perm node) later j (by omega)

/-! # The weights of the arena FBUILD leaves (spec/42_frequency.md R173) -/

/-- No merge weighs more than the whole pool, since a merge keeps the pool's weight. -/
theorem mergeLoop_weight_le {fuel n : Nat} {pool : List PoolKey} (size : pool.length = fuel + 1) :
    ∀ m ∈ mergeLoop fuel n pool, m.weight ≤ (pool.map (·.1)).sum := by
  induction fuel generalizing n pool with
  | zero => exact fun m mem => nomatch mem
  | succ fuel ih =>
    obtain ⟨a, b, rest, perm, -, -, loop⟩ := mergeLoop_succ (fuel := fuel) (n := n) (pool := pool) (by omega)
    have total : (pool.map (·.1)).sum = a.1 + b.1 + (rest.map (·.1)).sum := by
      rw [(perm.map (·.1)).sum_eq, List.map_cons, List.map_cons, List.sum_cons, List.sum_cons, Nat.add_assoc]
    have kept : ((rest ++ [(a.1 + b.1, n)]).map (·.1)).sum = (pool.map (·.1)).sum := by
      rw [total, List.map_append, List.sum_append, Nat.add_comm]
      rfl
    intro m mem
    rw [loop] at mem
    obtain rfl | later := List.mem_cons.mp mem
    · rw [total]
      exact Nat.le_add_right _ _
    · exact kept ▸ ih (merged_length size perm _) m later

theorem leafPool_weight (freq : Vector (BitVec 32) 322) : ((leafPool freq).map (·.1)).sum ≤ 322 * 2 ^ 32 := by
  have each : ∀ w ∈ (leafPool freq).map (·.1), w ≤ 2 ^ 32 := by
    intro w mem
    simp only [leafPool, List.map_map, List.mem_map, Function.comp] at mem
    obtain ⟨i, -, rfl⟩ := mem
    exact (BitVec.isLt _).le
  simpa [leafPool_length] using List.sum_le_card_nsmul _ _ each

/-- A counter of 32 bits is exact in the arena's 41. -/
theorem buildTree_leafWeight (freq : Vector (BitVec 32) 322) {sym : Nat} (lt : sym < 322) :
    (buildTree freq).weightOf sym = (freq[sym]?.getD 0).toNat := by
  have small := (freq[sym]?.getD 0).isLt
  have leaf : (buildTree freq).weight[sym]? = some (BitVec.ofNat 41 (freq[sym]?.getD 0).toNat) := by
    rw [buildTree, tableOf_getElem? 643 _ _ sym (by omega) (by simp [leafPool_length]; omega),
      List.getElem?_append_left (by simpa [leafPool_length] using lt)]
    simp [leafPool, lt]
  rw [HuffTree.weightOf, leaf, Option.getD_some, BitVec.toNat_ofNat, Nat.mod_eq_of_lt (by omega)]

/-- The weight of 322 counters is exact in the arena's 41 bits, so every merge's is (spec/10_state.md R51). -/
theorem buildTree_mergeWeight (freq : Vector (BitVec 32) 322) {j : Nat} {m : Merge}
    (found : (merges freq)[j]? = some m) : (buildTree freq).weightOf (322 + j) = m.weight := by
  have lt : j < 321 := by
    have := (List.getElem?_eq_some_iff.mp found).1
    rwa [merges_length] at this
  have le := mergeLoop_weight_le (leafPool_length freq) m (List.mem_of_getElem? found)
  have total := leafPool_weight freq
  have node : (buildTree freq).weight[322 + j]? = some (BitVec.ofNat 41 m.weight) := by
    rw [buildTree, tableOf_getElem? 643 _ _ _ (by omega) (by simp [leafPool_length, merges_length]; omega),
      List.getElem?_append_right (by simp [leafPool_length])]
    simp [leafPool_length, found]
  rw [HuffTree.weightOf, node, Option.getD_some, BitVec.toNat_ofNat, Nat.mod_eq_of_lt (by omega)]

theorem buildTree_isMerge (freq : Vector (BitVec 32) 322) (j : Nat) (m : Merge) (found : (merges freq)[j]? = some m) :
    IsMerge (buildTree freq) (322 + j) m where
  left   := (buildTree_children freq j m found).1
  right  := (buildTree_children freq j m found).2
  weight := buildTree_mergeWeight freq found

/-- Before the first merge the pool holds the leaves (R173). -/
theorem leafPool_isPool (freq : Vector (BitVec 32) 322) : IsPool (buildTree freq) 322 (leafPool freq) where
  nodup := List.nodup_range.map fun _ _ eq => congrArg Prod.snd eq
  mem p := by
    constructor
    · intro mem
      obtain ⟨i, range, rfl⟩ := List.mem_map.mp mem
      have lt : i < 322 := List.mem_range.mp range
      exact ⟨⟨lt, fun n' ge below => by omega⟩, buildTree_leafWeight freq lt⟩
    · rintro ⟨⟨lt, -⟩, weight⟩
      rw [buildTree_leafWeight freq lt] at weight
      exact List.mem_map.mpr ⟨p.2, List.mem_range.mpr lt, Prod.ext weight rfl⟩
  older n' ge lt := by omega

/-! # FBUILD (spec/42_frequency.md R173, R178) -/

theorem exec_fbuild {s : State} (live : Live s) :
    exec .fbuild s = .next (s.withFq { s.fq with ht := buildTree s.fq.freq, valid := true }) := by
  unfold exec execFbuild
  exact command_of_ok live rfl

theorem buildTree_joinsTheTwoLeast (freq : Vector (BitVec 32) 322) {n : Nat} (internal : 322 ≤ n) (le : n ≤ 642) :
    JoinsTheTwoLeast (buildTree freq) n := by
  obtain ⟨j, rfl⟩ := Nat.exists_eq_add_of_le internal
  exact mergeLoop_joinsTheTwoLeast (Nat.le_refl 322) (leafPool_length freq) (leafPool_isPool freq)
    (buildTree_isMerge freq) j (by omega)

/-- Settles O31: the arena holds the weights exactly, and its node `n` is the merge of the pool before `n`. -/
theorem fbuildMergesTheTwoLeast : Obligations.FbuildMergesTheTwoLeast := by
  refine fun s live => ⟨_, exec_fbuild live, rfl, rfl, rfl, fun sym lt => buildTree_leafWeight s.fq.freq lt, ?_⟩
  intro n internal le
  obtain ⟨weight, left, right, order, least⟩ := buildTree_joinsTheTwoLeast s.fq.freq internal le
  exact ⟨weight, left, right, order, least⟩

/-- Settles O32: the arena stands for one tree with every symbol at one leaf; the depths of its leaves fill the
code space. -/
theorem builtTreeIsFull : Obligations.BuiltTreeIsFull := fun freq =>
  ⟨buildTree_leaves freq, fun _ lt => depthIn_buildTree_bounds freq lt, buildTree_kraft freq (Nat.le_refl 321)⟩

end Sys2Proof.Machine
end

section
/-! The canonical family: LSET, LGET and CGET, the code CLEN and CTREE assign and its tree, and the header
(spec/43_canonical.md R190 to R205). -/

namespace Sys2Proof.Machine

/-! # LSET, LGET and CGET (spec/43_canonical.md R198 to R200) -/

theorem needCode_of_valid {s : State} (valid : s.cn.valid = true) : needCode s = .ok () s := by
  simp [needCode, valid]

@[simp] theorem State.setCodeValid_lenAt (s : State) (v : Bool) (sym : Nat) :
    (s.setCodeValid v).lenAt sym = s.lenAt sym := rfl

theorem State.setLen_lenAt {sym : Nat} (s : State) (v : Byte) (other : Nat) (lt : sym < 322) :
    (s.setLen sym v).lenAt other = if sym = other then v else s.lenAt other := by
  simp only [State.setLen, State.lenAt, State.withCn_cn, Vector.getElem?_setIfInBounds, lt]
  split <;> rfl

theorem exec_lset {s : State} {sym : Nat} (live : Live s) (lt : sym < 322) (imm : Byte) :
    exec (.lset sym imm) s = .next ((s.setLen sym imm).setCodeValid false) := by
  unfold exec execLset
  exact command_of_ok live (by rw [needSymbol_of_lt lt, Run.ok_andThen])

theorem exec_lget {s : State} {sym : Nat} (live : Live s) (lt : sym < 322) :
    exec (.lget sym) s = .next (s.withRes ((s.lenAt sym).setWidth 32)) := by
  unfold exec execLget
  exact command_of_ok live (by rw [needSymbol_of_lt lt, Run.ok_andThen])

theorem exec_cget {s : State} {sym : Nat} (live : Live s) (lt : sym < 322) (valid : s.cn.valid = true) (k : Nat) :
    exec (.cget sym k) s = .next (s.withRes (codeWord (s.codeAt sym) k)) := by
  unfold exec execCget
  exact command_of_ok live (by
    rw [needSymbol_of_lt lt, Run.ok_andThen, needCode_of_valid valid, Run.ok_andThen])

/-- Settles O39: one entry written or read; a shift right by 32K divides by 2^(32K). -/
theorem lengthAndCodeAccess : Obligations.LengthAndCodeAccess := by
  refine fun s sym live lt => ⟨fun imm => ?_, ?_, fun valid k => ?_⟩
  · refine ⟨_, exec_lset live lt imm, rfl, rfl, rfl, rfl, ?_, fun other ne => ?_⟩
    · rw [State.setCodeValid_lenAt, State.setLen_lenAt s imm sym lt, if_pos rfl]
    · rw [State.setCodeValid_lenAt, State.setLen_lenAt s imm other lt, if_neg ne.symm]
  · rw [exec_lget live lt, BitVec.ofNat_toNat]
    rfl
  · rw [exec_cget live lt valid, codeWord, Nat.shiftRight_eq_div_pow]
    rfl

/-! # The completeness check and CLEN (spec/43_canonical.md R193, R194, R197) -/

theorem checkComplete_of_complete {s : State} (complete : kraftSum s.cn.len = 2 ^ 255) :
    checkComplete s = .ok () s := checkComplete_eq_ok.mpr ⟨rfl, complete⟩

theorem checkComplete_of_under {s : State} (underFull : kraftSum s.cn.len < 2 ^ 255) :
    checkComplete s = .raise .badLengths 0 s := if_pos underFull

theorem checkComplete_of_over {s : State} (overFull : kraftSum s.cn.len > 2 ^ 255) :
    checkComplete s = .raise .badLengths 1 s := by
  rw [checkComplete, if_neg (Nat.not_lt.mpr overFull.le), if_pos overFull]

theorem exec_clen_of_complete {s : State} (live : Live s) (complete : kraftSum s.cn.len = 2 ^ 255) :
    exec .clen s = .next (installCode s) := by
  unfold exec execClen
  exact command_of_ok live (by rw [checkComplete_of_complete (s := s.setCodeValid false) complete]; rfl)

theorem exec_clen_of_raise {s : State} {c : Cause} {p : BitVec 24} (live : Live s)
    (check : checkComplete (s.setCodeValid false) = .raise c p (s.setCodeValid false)) :
    exec .clen s = .next (errorEntry c p 0x31 (s.setCodeValid false)) := by
  unfold exec execClen
  exact command_of_raise live (by rw [check, Run.raise_andThen])

/-- Settles O35: CheckComplete raises with the payload of the side the table fails on, CODE_VALID already cleared. -/
theorem clenRejectsIncompleteTables : Obligations.ClenRejectsIncompleteTables := by
  refine fun s live => ⟨fun underFull => ?_, fun overFull => ?_⟩
  · rw [exec_clen_of_raise live (checkComplete_of_under underFull)]
    rfl
  · rw [exec_clen_of_raise live (checkComplete_of_over overFull)]
    rfl

/-- A code value fits in its length: scaled to the code space it begins below the end of the space (R194). -/
theorem assignCodes_lt {len : Vector Byte 322} (fits : kraftSum len ≤ 2 ^ 255) {sym : Nat}
    (coded : sym ∈ codedSymbols len) : ((assignCodes len)[sym]?.getD 0).toNat < 2 ^ lenNat len sym := by
  have value := assignCodes_value len fits coded
  have room := spaceBefore_add_share len coded
  have pos := codeShare_pos len sym
  have whole : 2 ^ lenNat len sym * codeShare len sym = 2 ^ 255 := by
    rw [codeShare, ← pow_add, Nat.add_sub_cancel' (lenNat_le len sym)]
  refine Nat.lt_of_mul_lt_mul_right (a := codeShare len sym) ?_
  omega

/-- Settles O34: the code installed is the assignment's, whose values are known from Laws/Assign. -/
theorem clenAssignsTheCanonicalCode : Obligations.ClenAssignsTheCanonicalCode := by
  refine fun s live complete => ⟨_, exec_clen_of_complete live complete, rfl, rfl, rfl, fun sym coded => ?_,
    fun sym _ bare => ?_, rfl⟩
  · exact ⟨assignCodes_value s.cn.len complete.le coded, assignCodes_lt complete.le coded⟩
  · refine assignCodes_uncoded s.cn.len fun coded => ((mem_codedSymbols s.cn.len).mp coded).2 ?_
    exact congrArg BitVec.toNat bare

/-! # CTREE (spec/43_canonical.md R190, R192, R196) -/

theorem exec_ctree_of_ok {s t : State} (live : Live s) (valid : s.fq.valid = true) (body : ctreeBody s = .ok () t) :
    exec .ctree s = .next t := by
  unfold exec execCtree
  exact command_of_ok live (by rw [needTree, valid, require_true, Run.ok_andThen, body])

theorem exec_ctree_of_raise {s t : State} {c : Cause} {p : BitVec 24} (live : Live s) (valid : s.fq.valid = true)
    (body : ctreeBody s = .raise c p t) : exec .ctree s = .next (errorEntry c p 0x30 t) := by
  unfold exec execCtree
  exact command_of_raise live (by rw [needTree, valid, require_true, Run.ok_andThen, body])

theorem ctreeBody_of_fits {s : State} (fits : ∀ sym < 322, depthIn s.fq.ht.depths sym < 256)
    (complete : kraftSum (lengthsOf s.fq.ht.depths) = 2 ^ 255) :
    ctreeBody s = .ok () (installCode (s.withCn { s.cn with len := lengthsOf s.fq.ht.depths })) := by
  simp only [ctreeBody, firstTooDeep_eq_none.mpr fits]
  rw [checkComplete_of_complete (s := s.withCn { s.cn with len := lengthsOf s.fq.ht.depths }) complete,
    Run.ok_andThen]

/-- Settles O37: depths that fit are complete lengths in which every symbol has a code. -/
theorem ctreeTakesLengthsFromTheTree : Obligations.CtreeTakesLengthsFromTheTree := by
  intro s live valid tree fits
  have built : s.fq.ht = buildTree s.fq.freq := tree valid
  have complete : kraftSum (lengthsOf s.fq.ht.depths) = 2 ^ 255 := by
    rw [built] at fits ⊢
    exact lengthsOf_buildTree_complete fits
  refine ⟨_, exec_ctree_of_ok live valid (ctreeBody_of_fits fits complete), rfl, rfl, complete,
    fun sym lt => ?_, rfl⟩
  have length : lenNat (lengthsOf s.fq.ht.depths) sym = depthIn s.fq.ht.depths sym := lenNat_lengthsOf lt (fits sym lt)
  have below : 1 ≤ depthIn s.fq.ht.depths sym := by
    rw [built]
    exact (depthIn_buildTree_bounds s.fq.freq lt).1
  have coded : sym ∈ codedSymbols (lengthsOf s.fq.ht.depths) :=
    (mem_codedSymbols _).mpr ⟨lt, by omega⟩
  exact ⟨length, assignCodes_value _ complete.le coded⟩

theorem firstTooDeep_eq_some {ds : List (Nat × Nat)} {sym : Nat} (lt : sym < 322) (deep : 256 ≤ depthIn ds sym)
    (least : ∀ lower < sym, depthIn ds lower < 256) : firstTooDeep ds = some sym := by
  rw [firstTooDeep, List.find?_range_eq_some]
  exact ⟨by simpa using deep, by simpa using lt, fun lower below => by simpa using least lower below⟩

/-- No walk down an arena goes deeper than its fuel, whatever the arena holds. -/
theorem leafDepths_lt {t : HuffTree} {fuel n d : Nat} {x : Nat × Nat} (mem : x ∈ leafDepths t fuel n d) :
    x.2 < d + fuel := by
  induction fuel generalizing n d with
  | zero => cases mem
  | succ fuel ih =>
    rw [leafDepths] at mem
    split at mem
    · obtain rfl := List.mem_singleton.mp mem
      exact Nat.lt_add_of_pos_right (Nat.succ_pos fuel)
    · rcases List.mem_append.mp mem with left | right
      · have := ih left
        omega
      · have := ih right
        omega

theorem depthIn_depths_lt (t : HuffTree) (sym : Nat) : depthIn t.depths sym < 322 := by
  unfold depthIn
  cases found : t.depths.lookup sym with
  | none => exact Nat.succ_pos 321
  | some d =>
    obtain ⟨pre, post, split, -⟩ := List.lookup_eq_some_iff.mp found
    have mem : (sym, d) ∈ leafDepths t 322 642 0 := by
      rw [← HuffTree.depths, split]
      simp
    simpa using leafDepths_lt mem

/-- Settles O38: the check finds the symbol, and its depth is small enough for the payload to be whole. -/
theorem ctreeRejectsDeepTrees : Obligations.CtreeRejectsDeepTrees := by
  intro s sym live valid lt deep least
  have body : ctreeBody s =
      .raise .lenOvf (BitVec.ofNat 24 (depthIn s.fq.ht.depths sym * 2 ^ 9 + sym)) s := by
    simp only [ctreeBody, firstTooDeep_eq_some lt deep least]
  have small := depthIn_depths_lt s.fq.ht sym
  rw [exec_ctree_of_raise live valid body, errorEntry_eq, errorInfo_ofNat 0x30 (by omega), ← Nat.add_assoc]
  rfl

/-! # The canonical tree (spec/43_canonical.md R193, R195) -/

section CanonicalTree

variable {len : Vector Byte 322}

/-- The canonical tree of a table of lengths (R195). -/
abbrev canonicalTree (len : Vector Byte 322) : CodeTree := buildCodeTree len (assignCodes len)

/-- The canonical code of a symbol (R194). -/
abbrev canonicalBits (len : Vector Byte 322) (sym : Nat) : List Bool := codeBits len (assignCodes len) sym

theorem codeBits_ne_nil {sym : Nat} (coded : sym ∈ codedSymbols len) (code : Vector (BitVec 255) 322) :
    codeBits len code sym ≠ [] := by
  rw [← List.length_pos_iff_ne_nil, codeBits_length]
  exact Nat.pos_of_ne_zero ((mem_codedSymbols len).mp coded).2

/-- On a complete table the codes fill the code space: a string no longer than the longest code begins with a code or
begins one. -/
theorem exists_comparable_code (complete : kraftSum len = 2 ^ 255) {q : List Bool} (short : q.length ≤ 255) :
    ∃ sym ∈ codedSymbols len, canonicalBits len sym <+: q ∨ q <+: canonicalBits len sym := by
  have inside : bitsToNat q * 2 ^ (255 - q.length) < kraftSum len := by
    rw [complete, ← Nat.add_sub_cancel' short, pow_add, Nat.add_sub_cancel_left]
    exact Nat.mul_lt_mul_of_pos_right (bitsToNat_lt q) (Nat.two_pow_pos _)
  obtain ⟨sym, coded, lo, hi⟩ := interval_of_lt len inside
  exact ⟨sym, coded, codeBits_comparable len complete.le coded short lo hi⟩

/-- On a complete table a string strictly inside a code goes on to a code with either bit. -/
theorem exists_code_of_extended (complete : kraftSum len = 2 ^ 255) {q : List Bool} {sym : Nat}
    (coded : sym ∈ codedSymbols len) (start : q <+: canonicalBits len sym) (ne : q ≠ canonicalBits len sym) (b : Bool) :
    ∃ next ∈ codedSymbols len, q ++ [b] <+: canonicalBits len next := by
  have shorter : q.length < (canonicalBits len sym).length :=
    start.length_le.lt_of_ne fun eq => ne (start.eq_of_length eq)
  have short : (q ++ [b]).length ≤ 255 := by
    have := lenNat_le len sym
    rw [codeBits_length] at shorter
    rw [List.length_append, List.length_singleton]
    omega
  obtain ⟨next, coded', before | after⟩ := exists_comparable_code complete short
  · refine ⟨next, coded', ?_⟩
    rcases List.prefix_concat_iff.mp before with whole | inner
    · exact whole ▸ List.prefix_refl _
    · obtain rfl := codeBits_prefix_free len complete.le coded' coded (inner.trans start)
      exact absurd (inner.length_le.trans_lt shorter) (Nat.lt_irrefl _)
  · exact ⟨next, coded', after⟩

variable (fits : kraftSum len ≤ 2 ^ 255)
include fits

/-- Where each path leads, by `treeOf_follow`: no code begins another (R193). -/
theorem canonicalTree_follow (q : List Bool) :
    (∀ sym ∈ codedSymbols len, canonicalBits len sym = q → (canonicalTree len).follow q = .leaf sym) ∧
    (∀ sym ∈ codedSymbols len, q <+: canonicalBits len sym → q ≠ canonicalBits len sym →
      ∃ l r, (canonicalTree len).follow q = .node l r) ∧
    ((∀ sym ∈ codedSymbols len, ¬ q <+: canonicalBits len sym) → (canonicalTree len).follow q = .empty) :=
  treeOf_follow (canonicalBits len) (codedSymbols len)
    (fun _ ha _ hb => codeBits_prefix_free len fits ha hb) (codedSymbols_nodup len) q

theorem canonicalTree_follow_code {sym : Nat} (coded : sym ∈ codedSymbols len) :
    (canonicalTree len).follow (canonicalBits len sym) = .leaf sym :=
  (canonicalTree_follow fits _).1 sym coded rfl

/-- A path that leads to a node of the tree reads the beginning of a code. -/
theorem exists_code_of_follow_ne_empty {q : List Bool} (inside : (canonicalTree len).follow q ≠ .empty) :
    ∃ sym ∈ codedSymbols len, q <+: canonicalBits len sym := by
  obtain ⟨-, -, outside⟩ := canonicalTree_follow fits q
  by_contra noCode
  push Not at noCode
  exact inside (outside noCode)

theorem follow_ne_empty_of_code {q : List Bool} {sym : Nat} (coded : sym ∈ codedSymbols len)
    (start : q <+: canonicalBits len sym) : (canonicalTree len).follow q ≠ .empty := by
  obtain ⟨leaf, node, -⟩ := canonicalTree_follow fits q
  by_cases whole : q = canonicalBits len sym
  · simp [leaf sym coded whole.symm]
  · obtain ⟨l, r, there⟩ := node sym coded start whole
    simp [there]

/-- A leaf is reached by its symbol's code alone. -/
theorem code_of_follow_eq_leaf {q : List Bool} {sym : Nat} (reached : (canonicalTree len).follow q = .leaf sym) :
    sym ∈ codedSymbols len ∧ q = canonicalBits len sym := by
  obtain ⟨leaf, node, -⟩ := canonicalTree_follow fits q
  obtain ⟨other, coded, start⟩ := exists_code_of_follow_ne_empty fits (q := q) (by simp [reached])
  by_cases whole : q = canonicalBits len other
  · obtain rfl : other = sym := by simpa [reached] using (leaf other coded whole.symm).symm
    exact ⟨coded, whole⟩
  · obtain ⟨l, r, there⟩ := node other coded start whole
    simp [reached] at there

/-- An internal node lies strictly inside a code. -/
theorem code_of_follow_eq_node {q : List Bool} {l r : CodeTree} (reached : (canonicalTree len).follow q = .node l r) :
    ∃ sym ∈ codedSymbols len, q <+: canonicalBits len sym ∧ q ≠ canonicalBits len sym := by
  obtain ⟨sym, coded, start⟩ := exists_code_of_follow_ne_empty fits (q := q) (by simp [reached])
  refine ⟨sym, coded, start, ?_⟩
  rintro rfl
  simp [canonicalTree_follow_code fits coded] at reached

end CanonicalTree

/-- Settles O36: below an internal node either bit goes on to a code, since the codes fill the code space. -/
theorem canonicalTreeIsStrict : Obligations.CanonicalTreeIsStrict := by
  refine fun len complete => ⟨fun sym coded => canonicalTree_follow_code complete.le coded,
    fun bits sym reached => code_of_follow_eq_leaf complete.le reached, fun bits l r reached => ?_⟩
  obtain ⟨sym, coded, start, ne⟩ := code_of_follow_eq_node complete.le reached
  have childInside (b : Bool) : (CodeTree.node l r).child b ≠ .empty := by
    obtain ⟨next, coded', start'⟩ := exists_code_of_extended complete coded start ne b
    have inside := follow_ne_empty_of_code complete.le coded' start'
    rwa [CodeTree.follow_append, reached] at inside
  exact ⟨childInside false, childInside true⟩

/-! # Decoding a code (spec/43_canonical.md R205, spec/45_huffman.md R241, R244) -/

/-- DecSym where the unread bits begin with a path of CT to a leaf. -/
theorem decSym_of_path {s : State} {path rest : List Bool} {sym : Nat} (ne : path ≠ [])
    (leaf : s.cn.ct.follow path = .leaf sym) (unread : unreadBits s = path ++ rest) :
    ∃ t, decSym s = .ok sym (noteSymbol sym t) ∧ UnpackStep s t ∧ unreadBits t = rest ∧ t.bi.eos = s.bi.eos := by
  have enough : path.length ≤ bitsLeft s + 1 := by
    have all := unreadBits_length_le s
    rw [unread, List.length_append] at all
    omega
  obtain ⟨t, walk, moved, left, eos⟩ := decLoop_of_path (k := 0) ne leaf unread enough
  exact ⟨t, by rw [decSym, walk, Run.ok_andThen], moved, left, eos⟩

theorem exec_hdec_of_ok {s t : State} {sym : Nat} (live : Live s) (valid : s.cn.valid = true)
    (decodes : decSym s = .ok sym t) : exec .hdec s = .next t := by
  unfold exec execHdec
  exact command_of_ok live (by rw [needCode_of_valid valid, Run.ok_andThen, decodes, Run.ok_andThen])

/-- Settles O53: in the canonical tree a symbol's code is a path to its leaf. -/
theorem decodingInvertsEncoding : Obligations.DecodingInvertsEncoding := by
  intro s sym rest live codeOk valid lt hasCode unread
  obtain ⟨complete, code, ct⟩ := codeOk valid
  have coded : sym ∈ codedSymbols s.cn.len :=
    (mem_codedSymbols _).mpr ⟨lt, fun zero => hasCode (BitVec.eq_of_toNat_eq zero)⟩
  have leaf : s.cn.ct.follow (codeBits s.cn.len s.cn.code sym) = .leaf sym := by
    rw [ct, code]
    exact canonicalTree_follow_code complete.le coded
  have split : unreadBits s = codeBits s.cn.len s.cn.code sym ++ rest := by
    rw [unread, codesOf, List.flatMap_singleton]
  obtain ⟨t, decodes, ⟨u, n, -, rfl⟩, left, -⟩ := decSym_of_path (codeBits_ne_nil coded _) leaf split
  exact ⟨_, exec_hdec_of_ok live valid decodes, rfl, left, rfl⟩

/-! # Writing the header (spec/43_canonical.md R201, R203) -/

/-- The lengths of some symbols as bits, each bit 7 first (R201). -/
abbrev headerBits (s : State) (syms : List Nat) : List Bool := syms.flatMap fun sym => byteBits (s.lenAt sym)

theorem headerBits_length (s : State) (syms : List Nat) : (headerBits s syms).length = 8 * syms.length := by
  simp [headerBits, List.length_flatMap, Nat.mul_comm]

/-- HDRW's loop is one run of PutBit: packing does not change LEN. -/
theorem writeLengths_eq (syms : List Nat) (s : State) : writeLengths syms s = putBitList (headerBits s syms) s := by
  induction syms generalizing s with
  | nil => rfl
  | cons sym syms ih =>
    have packs := putBitList_packStep (byteBits (s.lenAt sym)) s
    rw [headerBits, List.flatMap_cons, putBitList_append]
    show (putBitList (byteBits (s.lenAt sym)) s).andThen _ = _
    cases run : putBitList (byteBits (s.lenAt sym)) s with
    | raise c p t => rfl
    | ok u t =>
      rw [run] at packs
      obtain ⟨p, added, -, rfl : t = _⟩ := packs
      exact ih _

theorem exec_hdrw_of_ok {s t : State} (live : Live s) (valid : s.cn.valid = true) (isOpen : s.bo.closed = false)
    (put : putBitList (headerBits s (List.range 322)) s = .ok () t) : exec .hdrw s = .next t := by
  unfold exec execHdrw
  exact command_of_ok live (by
    rw [needCode_of_valid valid, Run.ok_andThen, needOpen_of_open isOpen, Run.ok_andThen, writeLengths_eq, put])

theorem exec_hdrw_of_raise {s t : State} {c : Cause} {p : BitVec 24} (live : Live s) (valid : s.cn.valid = true)
    (isOpen : s.bo.closed = false) (put : putBitList (headerBits s (List.range 322)) s = .raise c p t) :
    exec .hdrw s = .next (errorEntry c p 0x35 t) := by
  unfold exec execHdrw
  exact command_of_raise live (by
    rw [needCode_of_valid valid, Run.ok_andThen, needOpen_of_open isOpen, Run.ok_andThen, writeLengths_eq, put])

theorem byteBits_injective {a b : Byte} (h : byteBits a = byteBits b) : a = b := by
  have value := congrArg bitsToNat h
  rw [byteBits, byteBits, bitsToNat_bitsMsbFirst, bitsToNat_bitsMsbFirst] at value
  exact BitVec.eq_of_toNat_eq (by omega)

/-- Bytes are known from their bits. -/
theorem flatMap_byteBits_injective {xs ys : List Byte} (h : xs.flatMap byteBits = ys.flatMap byteBits) : xs = ys := by
  induction xs generalizing ys with
  | nil =>
    cases ys with
    | nil => rfl
    | cons y ys => exact absurd (congrArg List.length h) (by simp; omega)
  | cons x xs ih =>
    cases ys with
    | nil => simpa using congrArg List.length h
    | cons y ys =>
      rw [List.flatMap_cons, List.flatMap_cons] at h
      obtain ⟨first, rest⟩ := List.append_inj h (by simp)
      rw [byteBits_injective first, ih rest]

theorem writtenBits_of_cnt_zero {s : State} (aligned : s.bo.cnt = 0) :
    writtenBits s = s.outp.bytes.flatMap byteBits := by
  simp [writtenBits, aligned, bitsMsbFirst]

/-- Whole bytes packed at a byte boundary are bytes of OUT (R203). -/
theorem PackedAll.bytes_of_aligned {bytes : List Byte} {s t : State} (all : PackedAll (bytes.flatMap byteBits) s t)
    (before : s.bo.cnt = 0) (after : t.bo.cnt = 0) : t.outp.bytes = s.outp.bytes ++ bytes := by
  have packed := all.packed
  rw [writtenBits_of_cnt_zero before, writtenBits_of_cnt_zero after, ← List.flatMap_append] at packed
  exact flatMap_byteBits_injective packed

/-- Settles O40: the packing law for the 2576 bits of the header. -/
theorem hdrwWritesTheHeader : Obligations.HdrwWritesTheHeader := by
  intro s live valid isOpen
  have bytes : (s.bo.cnt.toNat + (headerBits s (List.range 322)).length) / 8 = 322 := by
    have := s.bo.cnt.isLt
    rw [headerBits_length, List.length_range]
    omega
  refine ⟨fun room => ?_, fun full => ?_⟩
  · obtain ⟨t, put, all⟩ := putBitList_packs (bytes.symm ▸ room)
    have cnt : t.bo.cnt = s.bo.cnt := by
      refine BitVec.eq_of_toNat_eq ?_
      have small := s.bo.cnt.isLt
      rw [all.count, headerBits_length, List.length_range]
      omega
    obtain ⟨added, grown, -⟩ := all.written
    refine ⟨t, exec_hdrw_of_ok live valid isOpen put, all.frame, all.limit, cnt, all.closed.trans isOpen, all.packed,
      ⟨added, grown.symm⟩, fun aligned => ?_⟩
    refine PackedAll.bytes_of_aligned ?_ aligned (cnt.trans aligned)
    rw [List.flatMap_map]
    exact all
  · obtain ⟨t, put, cut⟩ := putBitList_refused (bytes.symm ▸ full)
    exact ⟨t, cut, exec_hdrw_of_raise live valid isOpen put⟩

/-! # Reading the header (spec/43_canonical.md R202) -/

/-- The bits of an entry shifted in one after the other. -/
abbrev byteOf (bits : List Bool) : Byte := bits.foldl shiftIn 0

theorem foldl_shiftIn_toNat (bits : List Bool) (v : Byte) :
    (bits.foldl shiftIn v).toNat = (bits.foldl (fun v b => 2 * v + b.toNat) v.toNat) % 2 ^ 8 := by
  induction bits using List.reverseRecOn with
  | nil => exact (Nat.mod_eq_of_lt v.isLt).symm
  | append_singleton bits b ih =>
    rw [List.foldl_append, List.foldl_append, List.foldl_cons, List.foldl_cons, List.foldl_nil, List.foldl_nil,
      shiftIn_eq_ofNat, BitVec.toNat_ofNat, ih]
    omega

theorem byteOf_toNat {bits : List Bool} (short : bits.length ≤ 8) : (byteOf bits).toNat = bitsToNat bits := by
  rw [foldl_shiftIn_toNat]
  exact Nat.mod_eq_of_lt ((bitsToNat_lt bits).trans_le (Nat.pow_le_pow_right Nat.two_pos short))

/-- The bits there are of an entry are shifted in; what is left of it is read after them. -/
theorem readLength_of_unread {sym m : Nat} {v : Byte} {s : State} {bits rest : List Bool}
    (unread : unreadBits s = bits ++ rest) :
    ∃ t, readLength sym (bits.length + m) v s = readLength sym m (bits.foldl shiftIn v) t ∧ UnpackStep s t ∧
      unreadBits t = rest ∧ t.bi.eos = s.bi.eos := by
  induction bits generalizing v s with
  | nil => exact ⟨s, by simp, UnpackStep.refl s, unread, rfl⟩
  | cons b bits ih =>
    obtain ⟨t, get, moved, left, eos⟩ := getBit_some (s := s) (b := b) (rest := bits ++ rest) unread
    obtain ⟨u, run, moved', left', eos'⟩ := ih (v := shiftIn v b) left
    refine ⟨u, ?_, moved.trans moved', left', eos'.trans eos⟩
    rw [List.length_cons, Nat.add_right_comm, readLength, get, Run.ok_andThen]
    exact run

/-- Reading an entry the stream ends in: E_EOS_FIELD with the header bits read, or E_IO_READ. -/
theorem readLength_short {sym m : Nat} {v : Byte} {s : State} (few : (unreadBits s).length < m) (le : m ≤ 8) :
    ∃ t, UnpackStep s t ∧ unreadBits t = [] ∧
      (EndsClean s → t.bi.eos = true ∧ readLength sym m v s =
        .raise .eosField (BitVec.ofNat 24 (8 * sym + (8 - m) + (unreadBits s).length)) t) ∧
      (¬ EndsClean s → t.bi.eos = false ∧ readLength sym m v s = .raise .ioRead 0 t) := by
  obtain ⟨j, rfl⟩ : ∃ j, m = (unreadBits s).length + (j + 1) := ⟨m - (unreadBits s).length - 1, by omega⟩
  obtain ⟨t, run, moved, gone, eos⟩ :=
    readLength_of_unread (sym := sym) (m := j + 1) (v := v) (List.append_nil (unreadBits s)).symm
  have same := moved.endsClean_iff eos
  have rem := rem_eq_zero_of_unread_nil gone
  rw [run, readLength]
  by_cases clean : EndsClean s
  · have last := getBit_none gone (same.mpr clean)
    have asked : UnpackStep t (t.withBi { t.bi with eos := true }) := by simpa [last] using getBit_unpackStep t
    have count : 8 * sym + (8 - ((unreadBits s).length + (j + 1))) + (unreadBits s).length = 8 * sym + (7 - j) := by
      omega
    refine ⟨_, moved.trans asked, unreadBits_of_rem_zero rem, fun _ => ⟨rfl, ?_⟩, absurd clean⟩
    rw [last, count]
    rfl
  · have notEnded : s.bi.eos = false := Bool.eq_false_iff.mpr fun ended => clean (.inl ended)
    have last := getBit_raises gone (same.not.mpr clean)
    exact ⟨t, moved, gone, fun c => absurd c clean, fun _ => ⟨eos.trans notEnded, by rw [last, Run.raise_andThen]⟩⟩

theorem readLengths_append (xs ys : List Nat) (s : State) :
    readLengths (xs ++ ys) s = (readLengths xs s).andThen fun _ t => readLengths ys t := by
  induction xs generalizing s with
  | nil => rfl
  | cons sym xs ih => simp [readLengths, Run.andThen_assoc, ih]

theorem HeaderStep.endsClean_iff {s t : State} (moved : HeaderStep s t) (eos : t.bi.eos = s.bi.eos) :
    EndsClean t ↔ EndsClean s := by
  obtain ⟨l, step⟩ := moved
  exact step.endsClean_iff eos

@[simp] theorem State.setCodeValid_unreadBits (s : State) (v : Bool) :
    unreadBits (s.setCodeValid v) = unreadBits s := rfl

@[simp] theorem State.setLen_unreadBits (s : State) (sym : Nat) (v : Byte) :
    unreadBits (s.setLen sym v) = unreadBits s := rfl

theorem UnpackStep.lenAt_eq {s t : State} (moved : UnpackStep s t) (sym : Nat) : t.lenAt sym = s.lenAt sym := by
  obtain ⟨u, n, -, rfl⟩ := moved
  rfl

/-- LEN entry `sym` after the first `n` entries of the header are read from the unread bits of `s`. -/
def entryAfter (s : State) (n sym : Nat) : Byte :=
  if sym < n then byteOf (((unreadBits s).drop (8 * sym)).take 8) else s.lenAt sym

/-- The first `n` entries, where the stream holds them whole. -/
theorem readLengths_range {n : Nat} {s : State} (le : n ≤ 322) (enough : 8 * n ≤ (unreadBits s).length) :
    ∃ t, readLengths (List.range n) s = .ok () t ∧ HeaderStep s t ∧ unreadBits t = (unreadBits s).drop (8 * n) ∧
      t.bi.eos = s.bi.eos ∧ ∀ sym, t.lenAt sym = entryAfter s n sym := by
  induction n with
  | zero => exact ⟨s, rfl, readLengths_headerStep [] s, rfl, rfl, fun sym => rfl⟩
  | succ n ih =>
    obtain ⟨t, run, moved, left, eos, entries⟩ := ih (by omega) (by omega)
    obtain ⟨u, entry, moved', left', eos'⟩ := readLength_of_unread (sym := n) (m := 0) (v := 0)
      (left.trans (List.take_append_drop 8 _).symm)
    have whole : (((unreadBits s).drop (8 * n)).take 8).length = 8 := by
      rw [List.length_take, List.length_drop]
      omega
    rw [whole] at entry
    refine ⟨u.setLen n (byteOf (((unreadBits s).drop (8 * n)).take 8)), ?_,
      (moved.trans ⟨t.cn.len, moved'⟩).trans ⟨_, UnpackStep.refl _⟩, ?_, eos'.trans eos, fun sym => ?_⟩
    · rw [List.range_succ, readLengths_append, run, Run.ok_andThen, readLengths, entry]
      rfl
    · rw [State.setLen_unreadBits, left', List.drop_drop, Nat.mul_succ]
    · rw [State.setLen_lenAt u _ sym (by omega), moved'.lenAt_eq, entries]
      unfold entryAfter
      split
      · next eq =>
        subst eq
        rw [if_pos (Nat.lt_succ_self n)]
      · next ne => exact if_congr (by omega) rfl rfl

theorem exec_hdrr_of_ok {s t : State} (live : Live s)
    (run : readLengths (List.range 322) (s.setCodeValid false) = .ok () t) : exec .hdrr s = .next t := by
  unfold exec execHdrr
  exact command_of_ok live run

theorem exec_hdrr_of_raise {s t : State} {c : Cause} {p : BitVec 24} (live : Live s)
    (run : readLengths (List.range 322) (s.setCodeValid false) = .raise c p t) :
    exec .hdrr s = .next (errorEntry c p 0x36 t) := by
  unfold exec execHdrr
  exact command_of_raise live run

/-- An entry of the header as a number. -/
theorem entryAfter_toNat {s : State} {n sym : Nat} (lt : sym < n) :
    (entryAfter s n sym).toNat = bitsToNat (((unreadBits s).drop (8 * sym)).take 8) := by
  rw [entryAfter, if_pos lt, byteOf_toNat (List.length_take_le 8 _)]

/-- Settles O41: all 322 entries are whole. -/
theorem hdrrReadsTheHeader : Obligations.HdrrReadsTheHeader := by
  intro s header rest live unread length
  have enough : 8 * 322 ≤ (unreadBits (s.setCodeValid false)).length := by
    rw [State.setCodeValid_unreadBits, unread, List.length_append]
    omega
  obtain ⟨t, run, ⟨l, u, n, -, rfl⟩, left, eos, entries⟩ := readLengths_range (le_refl 322) enough
  refine ⟨_, exec_hdrr_of_ok live run, rfl, rfl, rfl, rfl, rfl, rfl, eos, ?_, fun sym lt => ?_⟩
  · rw [left, State.setCodeValid_unreadBits, unread, List.drop_left' length]
  · rw [entries, entryAfter_toNat lt, State.setCodeValid_unreadBits, unread,
      List.drop_append_of_le_length (by omega), List.take_append_of_le_length (by rw [List.length_drop]; omega)]

theorem range_split {n m : Nat} (lt : n < m) : ∃ after, List.range m = List.range n ++ n :: after := by
  obtain ⟨k, rfl⟩ := Nat.exists_eq_add_of_lt lt
  exact ⟨_, by rw [Nat.add_assoc, List.range_add, List.range_succ_eq_map, List.map_cons, Nat.add_zero]⟩

/-- HDRR's loop where the stream ends in the header: the entries before are kept, and the entry it ends in raises. -/
theorem readLengths_short {s : State} (few : (unreadBits s).length < 2576) :
    ∃ t, HeaderStep s t ∧ unreadBits t = [] ∧ (∀ sym, t.lenAt sym = entryAfter s ((unreadBits s).length / 8) sym) ∧
      (EndsClean s → t.bi.eos = true ∧ readLengths (List.range 322) s =
        .raise .eosField (BitVec.ofNat 24 (unreadBits s).length) t) ∧
      (¬ EndsClean s → t.bi.eos = false ∧ readLengths (List.range 322) s = .raise .ioRead 0 t) := by
  generalize whole : (unreadBits s).length / 8 = n
  obtain ⟨t, run, moved, left, eos, entries⟩ := readLengths_range (s := s) (n := n) (by omega) (by omega)
  have rest : (unreadBits t).length = (unreadBits s).length - 8 * n := by rw [left, List.length_drop]
  obtain ⟨u, moved', gone, onEos, onError⟩ := readLength_short (sym := n) (v := 0) (s := t) (by omega) (le_refl 8)
  have count : 8 * n + (8 - 8) + (unreadBits t).length = (unreadBits s).length := by omega
  rw [moved.endsClean_iff eos, count] at onEos
  rw [moved.endsClean_iff eos] at onError
  obtain ⟨after, split⟩ := range_split (n := n) (m := 322) (by omega)
  rw [split, readLengths_append, run, Run.ok_andThen, readLengths]
  refine ⟨u, moved.trans ⟨t.cn.len, moved'⟩, gone, fun sym => (moved'.lenAt_eq sym).trans (entries sym),
    fun clean => ?_, fun unclean => ?_⟩
  · obtain ⟨ended, raises⟩ := onEos clean
    exact ⟨ended, by rw [raises, Run.raise_andThen]⟩
  · obtain ⟨notEnded, raises⟩ := onError unclean
    exact ⟨notEnded, by rw [raises, Run.raise_andThen]⟩

/-- Settles O42: error entry after the loop that the end of the stream stops. -/
theorem hdrrOnShortStreams : Obligations.HdrrOnShortStreams := by
  intro s live few
  obtain ⟨t, ⟨l, u, n, -, rfl⟩, gone, entries, onEos, onError⟩ := readLengths_short (s := s.setCodeValid false) few
  rw [State.setCodeValid_unreadBits] at entries onEos
  have entry (sym : Nat) :
      (8 * sym + 8 ≤ (unreadBits s).length →
        (entryAfter (s.setCodeValid false) ((unreadBits s).length / 8) sym).toNat =
          bitsToNat (((unreadBits s).drop (8 * sym)).take 8)) ∧
      ((unreadBits s).length < 8 * sym + 8 →
        entryAfter (s.setCodeValid false) ((unreadBits s).length / 8) sym = s.lenAt sym) :=
    ⟨fun whole => entryAfter_toNat (by omega), fun cut => if_neg (by omega)⟩
  simp only [← entries] at entry
  by_cases clean : EndsClean s
  · obtain ⟨ended, run⟩ := onEos clean
    refine ⟨_, exec_hdrr_of_raise live run, rfl, fun _ => ⟨ended, ?_⟩, absurd clean, rfl, rfl, rfl, gone, rfl, rfl,
      fun sym _ => entry sym⟩
    rw [errorEntry_er, errorInfo_ofNat 0x36 (few.trans (by decide))]
    rfl
  · obtain ⟨notEnded, run⟩ := onError clean
    exact ⟨_, exec_hdrr_of_raise live run, rfl, fun c => absurd c clean, fun _ => ⟨notEnded, rfl⟩, rfl, rfl, rfl,
      gone, rfl, rfl, fun sym _ => entry sym⟩

end Sys2Proof.Machine
end

section
/-! The escape family: the symbols of a run, the commands of the two passes, and XSYM
(spec/44_escape.md R220 to R229). -/

namespace Sys2Proof.Machine

/-! # The symbols of a run (spec/44_escape.md R220, R221, R228) -/

theorem symbolBytes_runSymbol (i : Nat) : symbolBytes (runSymbol i) = List.replicate (2 ^ i) 0 := by
  cases i with
  | zero => rfl
  | succ i =>
    have escape : runSymbol (i + 1) = 256 + (i + 1) := if_neg (Nat.succ_ne_zero i)
    rw [escape, symbolBytes, if_neg (by omega), if_neg (by omega), Nat.add_sub_cancel_left]

/-- The lower bits of a run stand for the lower part of its length. -/
theorem flushSymbolsBelow_bytes (n : BitVec 66) (m : Nat) :
    (flushSymbolsBelow n m).flatMap symbolBytes = List.replicate (n.toNat % 2 ^ m) 0 := by
  induction m with
  | zero => simp [flushSymbolsBelow, Nat.mod_one]
  | succ m ih =>
    have length : n.toNat % 2 ^ (m + 1) = n.toNat % 2 ^ m + 2 ^ m * (n.getLsbD m).toNat := by
      rw [BitVec.getLsbD, Nat.toNat_testBit, Nat.mod_pow_succ]
    rw [flushSymbolsBelow, length]
    cases n.getLsbD m with
    | false => exact ih
    | true =>
      rw [if_pos rfl, List.flatMap_cons, ih, symbolBytes_runSymbol, List.replicate_append_replicate, Bool.toNat_true,
        Nat.mul_one, Nat.add_comm]

theorem flushSymbolsBelow_eq (n : BitVec 66) (m : Nat) :
    flushSymbolsBelow n m = (((List.range m).filter fun i => n.getLsbD i).map runSymbol).reverse := by
  induction m with
  | zero => rfl
  | succ m ih =>
    rw [flushSymbolsBelow, ih, List.range_succ, List.filter_append, List.map_append, List.reverse_append]
    cases bit : n.getLsbD m <;> simp [bit]

/-- Settles O47: by induction on the bits, and a run length has no more than 66 of them. -/
theorem runFlushRoundTrip : Obligations.RunFlushRoundTrip := by
  refine fun n => ⟨?_, flushSymbolsBelow_eq n 66⟩
  rw [flushSymbols, flushSymbolsBelow_bytes, Nat.mod_eq_of_lt n.isLt]

theorem runSymbol_injective : Function.Injective runSymbol := by
  intro i j same
  unfold runSymbol at same
  split at same <;> split at same <;> omega

theorem runSymbol_lt {i : Nat} (lt : i < 66) : runSymbol i < 322 := by
  unfold runSymbol
  split <;> omega

/-- A nonzero byte is no symbol of a run (R220). -/
theorem literal_ne_runSymbol {v : Byte} (nonzero : v ≠ 0) (i : Nat) : v.toNat ≠ runSymbol i := by
  have pos : v.toNat ≠ 0 := fun zero => nonzero (BitVec.eq_of_toNat_eq zero)
  have small := v.isLt
  unfold runSymbol
  split <;> omega

theorem mem_flushSymbols {n : BitVec 66} {sym : Nat} :
    sym ∈ flushSymbols n ↔ ∃ i, i < 66 ∧ n.getLsbD i = true ∧ runSymbol i = sym := by
  simp [flushSymbols, flushSymbolsBelow_eq, and_assoc]

/-- A run is flushed to the symbol of a bit where the bit is set. -/
theorem runSymbol_mem_flushSymbols {n : BitVec 66} {i : Nat} (lt : i < 66) :
    runSymbol i ∈ flushSymbols n ↔ n.getLsbD i = true := by
  refine mem_flushSymbols.trans ⟨?_, fun set => ⟨i, lt, set, rfl⟩⟩
  rintro ⟨j, -, set, same⟩
  exact runSymbol_injective same ▸ set

theorem flushSymbols_nodup (n : BitVec 66) : (flushSymbols n).Nodup := by
  rw [flushSymbols, flushSymbolsBelow_eq, List.nodup_reverse]
  exact (List.nodup_range.filter _).map runSymbol_injective

theorem flushSymbols_zero : flushSymbols 0 = [] := rfl

theorem flushSymbols_isEmpty (n : BitVec 66) : (flushSymbols n).isEmpty = (n == 0) := by
  rw [Bool.eq_iff_iff, List.isEmpty_iff, beq_iff_eq]
  constructor
  · intro empty
    refine BitVec.eq_of_getLsbD_eq fun i lt => ?_
    have unset : ¬ n.getLsbD i = true := by simp [← runSymbol_mem_flushSymbols lt, empty]
    simpa using unset
  · rintro rfl
    exact flushSymbols_zero

/-- What a command that ends a run can emit: symbols of the alphabet, none of them twice. -/
structure Emittable (syms : List Nat) : Prop where
  nodup : syms.Nodup
  lt    : ∀ sym ∈ syms, sym < 322

theorem flushSymbols_emittable (n : BitVec 66) : Emittable (flushSymbols n) where
  nodup := flushSymbols_nodup n
  lt _ mem := by
    obtain ⟨i, lt, -, rfl⟩ := mem_flushSymbols.mp mem
    exact runSymbol_lt lt

theorem flushSymbols_literal_emittable (n : BitVec 66) {v : Byte} (nonzero : v ≠ 0) :
    Emittable (flushSymbols n ++ [v.toNat]) where
  nodup := by
    refine List.nodup_append.mpr ⟨flushSymbols_nodup n, List.nodup_singleton _, fun sym run lit literal same => ?_⟩
    obtain ⟨i, -, -, rfl⟩ := mem_flushSymbols.mp run
    exact literal_ne_runSymbol nonzero i ((List.mem_singleton.mp literal).symm.trans same.symm)
  lt sym mem := by
    rcases List.mem_append.mp mem with run | literal
    · exact (flushSymbols_emittable n).lt sym run
    · have small := v.isLt
      rw [List.mem_singleton.mp literal]
      omega

/-! # The commands of a pass (spec/44_escape.md R222 to R226, R230) -/

/-- The checks of the byte command and the end command of pass `m` hold (spec/40_control.md R132). -/
structure PassReady (m : Pass) (s : State) : Prop where
  mode  : s.esc.counting = true → s.esc.mode = m
  coder : m = .encoding → s.cn.valid = true ∧ s.bo.closed = false

/-- A command looks at what its body does from the state at hand alone. -/
theorem command_congr {i : Instr} {body body' : State → Run Unit} {s : State} (same : body s = body' s) :
    command i body s = command i body' s := by
  rw [command, command, same]

section Ready

variable {m : Pass} {s : State} (ready : PassReady m s)
include ready

theorem PassReady.needMode_eq : needMode m s = .ok () s := by
  unfold needMode
  cases pending : s.esc.counting with
  | false => rfl
  | true => simp [ready.mode pending]

/-- The checks of a command of the encoding pass, before its body (R225, R226). -/
theorem PassReady.encodingChecks (encoding : m = .encoding) (body : State → Run Unit) :
    ((needCode s).andThen fun _ s => (needOpen s).andThen fun _ s => (needMode m s).andThen fun _ s => body s) =
      body s := by
  obtain ⟨valid, isOpen⟩ := ready.coder encoding
  simp only [needCode_of_valid valid, needOpen_of_open isOpen, ready.needMode_eq, Run.ok_andThen]

theorem exec_byteCommand (v : Byte) : exec (byteCommand m v) s = command (byteCommand m v) (escByte v m) s := by
  cases m with
  | counting =>
    show execCbyte v s = _
    exact command_congr (by rw [ready.needMode_eq, Run.ok_andThen])
  | encoding =>
    show execEbyte v s = _
    exact command_congr (ready.encodingChecks rfl _)

theorem exec_endCommand : exec (endCommand m) s = command (endCommand m) (flushPending m) s := by
  cases m with
  | counting =>
    show execCend s = _
    exact command_congr (by rw [ready.needMode_eq, Run.ok_andThen])
  | encoding =>
    show execEend s = _
    exact command_congr (ready.encodingChecks rfl _)

end Ready

/-! # A zero byte (spec/44_escape.md R222, R229) -/

section ZeroByte

variable {m : Pass} {s : State}

theorem countZero_of_idle (idle : s.esc.counting = false) :
    countZero m s = .ok () (s.withEsc { counting := true, mode := m, run := 1 }) :=
  if_neg (Bool.eq_false_iff.mp idle)

theorem countZero_of_room (counting : s.esc.counting = true) (room : s.esc.run ≠ BitVec.allOnes 66) :
    countZero m s = .ok () (s.withEsc { s.esc with run := s.esc.run + 1 }) := by
  rw [countZero, if_pos counting, if_neg room]

theorem countZero_of_full (counting : s.esc.counting = true) (full : s.esc.run = BitVec.allOnes 66) :
    countZero m s = .raise .runRange 66 s := by
  rw [countZero, if_pos counting, if_pos full]

end ZeroByte

/-- Settles O43: the three branches of the zero byte. -/
theorem zeroByteCountsTheRun : Obligations.ZeroByteCountsTheRun := by
  refine fun s m live coder => ⟨fun idle => ?_, fun counting mode room => ?_, fun counting mode full => ?_⟩
  · rw [exec_byteCommand ⟨fun counting => absurd counting (Bool.eq_false_iff.mp idle), coder⟩]
    exact command_of_ok live (countZero_of_idle idle)
  · have notFull : s.esc.run ≠ BitVec.allOnes 66 := fun full => room (congrArg BitVec.toNat full)
    have next : s.esc.run + 1 = BitVec.ofNat 66 (s.esc.run.toNat + 1) := by
      rw [BitVec.ofNat_add, BitVec.ofNat_toNat, BitVec.setWidth_eq]
      rfl
    rw [exec_byteCommand ⟨fun _ => mode, coder⟩, ← next]
    exact command_of_ok live (countZero_of_room counting notFull)
  · have atLimit : s.esc.run = BitVec.allOnes 66 := BitVec.eq_of_toNat_eq full
    rw [exec_byteCommand ⟨fun _ => mode, coder⟩, ← errorInfo_ofNat _ (by decide : 66 < 2 ^ 24)]
    exact command_of_raise live (countZero_of_full counting atLimit)

/-! # The end of a run (spec/44_escape.md R221, R222) -/

theorem emitAll_append (m : Pass) (xs ys : List Nat) (s : State) :
    emitAll m (xs ++ ys) s = (emitAll m xs s).andThen fun _ t => emitAll m ys t := by
  induction xs generalizing s with
  | nil => rfl
  | cons sym xs ih => simp [emitAll, Run.andThen_assoc, ih]

theorem emitAll_singleton (m : Pass) (sym : Nat) (s : State) : emitAll m [sym] s = emit m sym s := by
  rw [emitAll]
  cases emit m sym s <;> rfl

/-- A command that ends a run: the transform is cleared if a run is pending, and then `syms` are emitted. -/
def emitAfterRun (m : Pass) (syms : List Nat) (s : State) : Run Unit :=
  emitAll m syms (s.withEsc (escapeAfterFlush s))

/-- With no run pending nothing is cleared and the run has no symbols. -/
theorem flushPending_eq (m : Pass) (s : State) : flushPending m s = emitAfterRun m (flushSymbols (pendingRun s)) s := by
  unfold emitAfterRun pendingRun escapeAfterFlush
  obtain ⟨idle, same⟩ | ⟨counting, flushed⟩ := flushPending_cases m s
  · rw [same, idle, if_neg Bool.false_ne_true, if_neg Bool.false_ne_true, flushSymbols_zero]
    rfl
  · rw [flushed, counting]
    rfl

theorem escByte_eq {v : Byte} (nonzero : v ≠ 0) (m : Pass) (s : State) :
    escByte v m s = emitAfterRun m (flushSymbols (pendingRun s) ++ [v.toNat]) s := by
  rw [escByte, if_neg nonzero, flushPending_eq, emitAfterRun, emitAfterRun, emitAll_append]
  simp only [emitAll_singleton]

/-- The command `i` of pass `m`, run in state `s`, ends the run, if there is one, and emits `syms`. -/
def EndsTheRun (m : Pass) (i : Instr) (syms : List Nat) (s : State) : Prop :=
  exec i s = command i (emitAfterRun m syms) s

theorem endCommand_endsTheRun {m : Pass} {s : State} (ready : PassReady m s) :
    EndsTheRun m (endCommand m) (flushSymbols (pendingRun s)) s :=
  (exec_endCommand ready).trans (command_congr (flushPending_eq m s))

theorem byteCommand_endsTheRun {m : Pass} {s : State} (ready : PassReady m s) {v : Byte} (nonzero : v ≠ 0) :
    EndsTheRun m (byteCommand m v) (flushSymbols (pendingRun s) ++ [v.toNat]) s :=
  (exec_byteCommand ready v).trans (command_congr (escByte_eq nonzero m s))

theorem EndsTheRun.next {m : Pass} {i : Instr} {syms : List Nat} {s t : State} (ends : EndsTheRun m i syms s)
    (live : Live s) (run : emitAll m syms (s.withEsc (escapeAfterFlush s)) = .ok () t) : exec i s = .next t :=
  Eq.trans ends (command_of_ok live run)

theorem EndsTheRun.raises {m : Pass} {i : Instr} {syms : List Nat} {s t : State} {c : Cause} {p : BitVec 24}
    (ends : EndsTheRun m i syms s) (live : Live s)
    (run : emitAll m syms (s.withEsc (escapeAfterFlush s)) = .raise c p t) :
    exec i s = .next (errorEntry c p i.opcode t) :=
  Eq.trans ends (command_of_raise live run)

/-! # The counting pass (spec/44_escape.md R223, R224, spec/42_frequency.md R170) -/

/-- What counting some symbols leaves where no counter is full. It stands beside `CountedUntilFull`. -/
structure CountedAll (syms : List Nat) (s t : State) : Prop where
  frame   : t = { s with fq := t.fq }
  tree    : t.fq.ht = s.fq.ht
  valid   : t.fq.valid = (s.fq.valid && syms.isEmpty)
  counted : ∀ sym, (t.freqAt sym).toNat = (s.freqAt sym).toNat + if sym ∈ syms then 1 else 0

theorem CountedAll.freqAt_of_notMem {syms : List Nat} {s t : State} (all : CountedAll syms s t) {sym : Nat}
    (other : sym ∉ syms) : t.freqAt sym = s.freqAt sym :=
  BitVec.eq_of_toNat_eq (by rw [all.counted, if_neg other, Nat.add_zero])

theorem CountedAll.cons {sym : Nat} {syms : List Nat} {s t : State} (lt : sym < 322) (new : sym ∉ syms)
    (room : s.freqAt sym ≠ 0xFFFFFFFF)
    (rest : CountedAll syms ((s.setFreq sym (s.freqAt sym + 1)).setHtValid false) t) :
    CountedAll (sym :: syms) s t where
  frame := rest.frame
  tree  := rest.tree
  valid := by rw [rest.valid, List.isEmpty_cons, Bool.and_false]; rfl
  counted other := by
    rw [rest.counted, State.setHtValid_freqAt, State.setFreq_freqAt s _ _ lt]
    by_cases same : sym = other
    · subst same
      rw [if_pos rfl, if_neg new, if_pos List.mem_cons_self, count_add_one_toNat room]
    · simp [same, Ne.symm same]

/-- Symbols whose counters have room are counted. -/
theorem emitAll_counting {syms : List Nat} {s : State} (emittable : Emittable syms)
    (room : ∀ sym ∈ syms, s.freqAt sym ≠ 0xFFFFFFFF) :
    ∃ t, emitAll .counting syms s = .ok () t ∧ CountedAll syms s t := by
  induction syms generalizing s with
  | nil => exact ⟨s, rfl, rfl, rfl, (Bool.and_true _).symm, fun sym => rfl⟩
  | cons sym syms ih =>
    obtain ⟨new, nodup⟩ := List.nodup_cons.mp emittable.nodup
    have lt := emittable.lt sym List.mem_cons_self
    have roomFirst := room sym List.mem_cons_self
    have roomRest : ∀ other ∈ syms,
        ((s.setFreq sym (s.freqAt sym + 1)).setHtValid false).freqAt other ≠ 0xFFFFFFFF := by
      intro other mem
      rw [State.setHtValid_freqAt, State.setFreq_freqAt s _ _ lt, if_neg fun same : sym = other => new (same ▸ mem)]
      exact room other (List.mem_cons_of_mem _ mem)
    obtain ⟨t, run, rest⟩ := ih ⟨nodup, fun other mem => emittable.lt other (List.mem_cons_of_mem _ mem)⟩ roomRest
    refine ⟨t, ?_, rest.cons lt new roomFirst⟩
    rw [emitAll, emit, incFreq_of_room roomFirst, Run.ok_andThen, run]

section Counting

variable {i : Instr} {s : State} (live : Live s)
include live

theorem EndsTheRun.counts {syms : List Nat} (ends : EndsTheRun .counting i syms s) (emittable : Emittable syms)
    (room : ∀ sym ∈ syms, s.freqAt sym ≠ 0xFFFFFFFF) :
    ∃ t, exec i s = .next t ∧ CountedAll syms (s.withEsc (escapeAfterFlush s)) t := by
  obtain ⟨t, run, all⟩ := emitAll_counting (s := s.withEsc (escapeAfterFlush s)) emittable room
  exact ⟨t, ends.next live run, all⟩

theorem EndsTheRun.countsUntilFull {done rest : List Nat} {full : Nat}
    (ends : EndsTheRun .counting i (done ++ full :: rest) s) (emittable : Emittable (done ++ full :: rest))
    (room : ∀ sym ∈ done, s.freqAt sym ≠ 0xFFFFFFFF) (atLimit : s.freqAt full = 0xFFFFFFFF) :
    ∃ t, exec i s = .next t ∧ CountedUntilFull i done full s t := by
  obtain ⟨nodup, -, disjoint⟩ := List.nodup_append.mp emittable.nodup
  have notDone : full ∉ done := fun mem => disjoint full mem full List.mem_cons_self rfl
  obtain ⟨t, run, all⟩ := emitAll_counting (s := s.withEsc (escapeAfterFlush s))
    ⟨nodup, fun sym mem => emittable.lt sym (List.mem_append_left _ mem)⟩ room
  have raises : incFreq full t = .raise .freqOvf (BitVec.ofNat 24 full) t :=
    incFreq_of_full ((all.freqAt_of_notMem notDone).trans atLimit)
  have small := emittable.lt full (by simp)
  refine ⟨_, ends.raises live (by rw [emitAll_append, run, Run.ok_andThen, emitAll, emit, raises, Run.raise_andThen]),
    congrArg (errorEntry _ _ _) all.frame, ?_, all.tree, all.valid, all.counted⟩
  rw [errorEntry_er, errorInfo_ofNat _ (by omega)]
  rfl

end Counting

theorem freqAt_ne_of_flushed {s : State} {n : BitVec 66}
    (room : ∀ i, i < 66 → n.getLsbD i = true → s.freqAt (runSymbol i) ≠ 0xFFFFFFFF) :
    ∀ sym ∈ flushSymbols n, s.freqAt sym ≠ 0xFFFFFFFF := by
  intro sym mem
  obtain ⟨i, lt, set, rfl⟩ := mem_flushSymbols.mp mem
  exact room i lt set

/-- The counter of a run symbol goes on by the run's bit, whatever literals are counted with the run. -/
theorem CountedAll.freqAt_runSymbol {n : BitVec 66} {literals : List Nat} {s t : State}
    (all : CountedAll (flushSymbols n ++ literals) s t) (other : ∀ i, runSymbol i ∉ literals) {i : Nat} (lt : i < 66) :
    (t.freqAt (runSymbol i)).toNat = (s.freqAt (runSymbol i)).toNat + (n.getLsbD i).toNat := by
  rw [all.counted]
  congr 1
  simp only [List.mem_append, other, or_false, runSymbol_mem_flushSymbols lt]
  cases n.getLsbD i <;> rfl

theorem notMem_flushSymbols {n : BitVec 66} {sym : Nat} (other : ∀ i, i < 66 → sym ≠ runSymbol i) :
    sym ∉ flushSymbols n := by
  intro mem
  obtain ⟨i, lt, -, same⟩ := mem_flushSymbols.mp mem
  exact other i lt same.symm

/-- Settles O44: the symbols of the pending run, which are those of its set bits, are counted. -/
theorem cendCountsThePendingRun : Obligations.CendCountsThePendingRun := by
  intro s live mode
  have ends : EndsTheRun .counting .cend _ s := endCommand_endsTheRun ⟨mode, nofun⟩
  have emittable := flushSymbols_emittable (pendingRun s)
  refine ⟨fun room => ?_, fun done full rest split room atLimit => ?_⟩
  · obtain ⟨t, run, all⟩ := ends.counts live emittable (freqAt_ne_of_flushed room)
    refine ⟨t, run, all.frame, all.tree, ?_, fun i lt => ?_, fun sym other => ?_⟩
    · rw [all.valid, flushSymbols_isEmpty]
      rfl
    · rw [← List.append_nil (flushSymbols _)] at all
      exact all.freqAt_runSymbol (fun _ => List.not_mem_nil) lt
    · exact all.freqAt_of_notMem (notMem_flushSymbols other)
  · rw [split] at ends emittable
    exact ends.countsUntilFull live emittable room atLimit

/-- Settles O45: the byte's symbol, which is no run symbol, is counted after the run's. -/
theorem cbyteCountsALiteral : Obligations.CbyteCountsALiteral := by
  intro s v live nonzero mode
  have ends : EndsTheRun .counting (.cbyte v) _ s := byteCommand_endsTheRun ⟨mode, nofun⟩ nonzero
  have emittable := flushSymbols_literal_emittable (pendingRun s) nonzero
  have notRun := literal_ne_runSymbol nonzero
  refine ⟨fun room roomLiteral => ?_, fun done full rest split room atLimit => ?_⟩
  · obtain ⟨t, run, all⟩ := ends.counts live emittable
      (List.forall_mem_append.mpr ⟨freqAt_ne_of_flushed room, List.forall_mem_singleton.mpr roomLiteral⟩)
    refine ⟨t, run, all.frame, all.tree, ?_, fun i lt => ?_, ?_, fun sym other notRun' => ?_⟩
    · simp [all.valid]
    · exact all.freqAt_runSymbol (fun i mem => notRun i (List.mem_singleton.mp mem).symm) lt
    · rw [all.counted, if_pos (by simp)]
      rfl
    · refine all.freqAt_of_notMem ?_
      rw [List.mem_append, List.mem_singleton, not_or]
      exact ⟨notMem_flushSymbols notRun', other⟩
  · rw [split] at ends emittable
    exact ends.countsUntilFull live emittable room atLimit

/-! # The encoding pass (spec/44_escape.md R225, R226, spec/45_huffman.md R240) -/

section Encoding

variable {s : State}

/-- Symbols that have codes are sent where OUT takes the bytes. -/
theorem emitAll_encoding_packs {syms : List Nat} (coded : ∀ sym ∈ syms, s.lenAt sym ≠ 0)
    (room : OutRoom ((s.bo.cnt.toNat + (codesOf s syms).length) / 8) s) :
    ∃ t, emitAll .encoding syms s = .ok () t ∧ PackedAll (codesOf s syms) s t := by
  obtain ⟨t, put, all⟩ := putBitList_packs room
  have sent := emitAll_encoding_append (rest := []) coded
  rw [put, List.append_nil] at sent
  exact ⟨t, sent, all⟩

/-- The first symbol without a code raises E_NO_CODE after the codes before it. -/
theorem emitAll_encoding_bare {done rest : List Nat} {bare : Nat} (coded : ∀ sym ∈ done, s.lenAt sym ≠ 0)
    (uncoded : s.lenAt bare = 0) (room : OutRoom ((s.bo.cnt.toNat + (codesOf s done).length) / 8) s) :
    ∃ t, emitAll .encoding (done ++ bare :: rest) s = .raise .noCode (BitVec.ofNat 24 bare) t ∧
      PackedAll (codesOf s done) s t := by
  obtain ⟨t, put, all⟩ := putBitList_packs room
  have sameLen : t.lenAt bare = s.lenAt bare := by rw [all.frame]; rfl
  refine ⟨t, ?_, all⟩
  rw [emitAll_encoding_append coded, put, Run.ok_andThen, emitAll, emit, encSym_of_bare (sameLen.trans uncoded),
    Run.raise_andThen]

/-- Where OUT refuses a byte of the codes, what fits stands and nothing after it is sent. -/
theorem emitAll_encoding_refused {done rest : List Nat} (coded : ∀ sym ∈ done, s.lenAt sym ≠ 0)
    (full : ¬ OutRoom ((s.bo.cnt.toNat + (codesOf s done).length) / 8) s) :
    ∃ t, emitAll .encoding (done ++ rest) s = .raise .ioWrite 0 t ∧ PackedUntilRefused (codesOf s done) s t := by
  obtain ⟨t, put, cut⟩ := putBitList_refused full
  exact ⟨t, by rw [emitAll_encoding_append coded, put, Run.raise_andThen], cut⟩

end Encoding

theorem errorInfo_zero (o : BitVec 8) : errorInfo o 0 = BitVec.ofNat 32 (o.toNat * 2 ^ 24) := by
  simp [errorInfo]

/-- Settles O46: both commands emit their symbols after the run is cleared, which the codes do not look at. -/
theorem encodingPassSendsCodes : Obligations.EncodingPassSendsCodes := by
  intro s v live valid isOpen nonzero mode i syms which
  have ready : PassReady .encoding s := ⟨mode, fun _ => ⟨valid, isOpen⟩⟩
  obtain ⟨ends, emittable⟩ : EndsTheRun .encoding i syms s ∧ Emittable syms := by
    obtain ⟨rfl, rfl⟩ | ⟨rfl, rfl⟩ := which
    · exact ⟨endCommand_endsTheRun ready, flushSymbols_emittable _⟩
    · exact ⟨byteCommand_endsTheRun ready nonzero, flushSymbols_literal_emittable _ nonzero⟩
  refine ⟨fun coded room => ?_, fun done bare rest split coded uncoded room => ?_,
    fun done rest split coded full => ?_⟩
  · obtain ⟨t, run, all⟩ := emitAll_encoding_packs (s := s.withEsc (escapeAfterFlush s)) coded room
    obtain ⟨added, bytes, -⟩ := all.written
    exact ⟨t, ends.next live run, all.frame, all.packed, all.closed.trans isOpen, all.limit, added, bytes.symm⟩
  · subst split
    obtain ⟨t, run, all⟩ := emitAll_encoding_bare (s := s.withEsc (escapeAfterFlush s)) coded uncoded room
    obtain ⟨added, bytes, -⟩ := all.written
    have small := emittable.lt bare (by simp)
    refine ⟨_, ends.raises live run, congrArg (errorEntry _ _ _) all.frame, ?_, all.packed, all.closed.trans isOpen,
      all.limit, added, bytes.symm⟩
    rw [errorEntry_er, errorInfo_ofNat _ (by omega)]
    rfl
  · subst split
    obtain ⟨t, run, cut⟩ := emitAll_encoding_refused (s := s.withEsc (escapeAfterFlush s)) coded full
    exact ⟨t, cut, by rw [ends.raises live run, errorEntry_eq, errorInfo_zero]; rfl⟩

/-! # XSYM (spec/44_escape.md R227) -/

theorem outZeros_of_room {n : Nat} {s : State} (room : OutRoom n s) :
    outZeros n s = .ok () (s.withOutp { s.outp with bytes := s.outp.bytes ++ List.replicate n 0 }) := by
  unfold OutRoom at room
  unfold outZeros
  cases limit : s.outp.limit with
  | none => rfl
  | some lim =>
    simp only [limit] at room
    exact if_pos (by omega)

/-- XSYM's body where OUT takes every byte. It stands beside `emitSymbolBytes_refused`. -/
theorem emitSymbolBytes_of_room {sym : Nat} {s : State} (room : OutRoom (symbolBytes sym).length s) :
    emitSymbolBytes sym s =
      .ok () (s.withOutp { s.outp with bytes := s.outp.bytes ++ symbolBytes sym }) := by
  unfold symbolBytes at room ⊢
  unfold emitSymbolBytes
  split
  · next literal =>
    rw [if_pos literal] at room
    exact outWrite_of_accepts (outAccepts_of_room room) _
  · next notLiteral =>
    rw [if_neg notLiteral] at room
    split
    · rw [List.append_nil]
      rfl
    · next notEof =>
      rw [if_neg notEof, List.length_replicate] at room
      exact outZeros_of_room room

theorem exec_xsym {s : State} {sym : Nat} (lt : sym < 322) :
    exec (.xsym sym) s = command (.xsym sym) (emitSymbolBytes sym) s := by
  show execXsym sym s = _
  exact command_congr (by rw [needSymbol_of_lt lt, Run.ok_andThen])

/-- Settles O48: the body with room in OUT and without. -/
theorem xsymEmitsTheSymbolsBytes : Obligations.XsymEmitsTheSymbolsBytes := by
  intro s sym live lt
  rw [exec_xsym lt]
  refine ⟨fun room => command_of_ok live (emitSymbolBytes_of_room room), fun full => ?_⟩
  have info : errorInfo (Instr.xsym sym).opcode 0 = 0x44000000 := errorInfo_zero 0x44
  rw [command_of_raise live (emitSymbolBytes_refused full), errorEntry_eq, info]
  rfl

end Sys2Proof.Machine
end

section
/-! The Huffman family: HENC, HDEC and XDEC (spec/45_huffman.md R240 to R246). -/

namespace Sys2Proof.Machine

/-! # HENC (spec/45_huffman.md R240, R243) -/

/-- EncSym of a symbol that has a code packs the bits of the code. -/
theorem encSym_of_coded {sym : Nat} {s : State} (coded : s.lenAt sym ≠ 0) :
    encSym sym s = putBitList (codesOf s [sym]) s := by
  rw [codesOf, List.flatMap_singleton]
  exact if_neg coded

theorem codesOf_singleton_length (s : State) (sym : Nat) : (codesOf s [sym]).length = (s.lenAt sym).toNat := by
  rw [codesOf, List.flatMap_singleton, codeBits_length]
  rfl

/-- Past its checks HENC is EncSym. -/
theorem exec_henc {s : State} {sym : Nat} (lt : sym < 322) (valid : s.cn.valid = true) (isOpen : s.bo.closed = false) :
    exec (.henc sym) s = command (.henc sym) (encSym sym) s := by
  show execHenc sym s = _
  refine command_congr ?_
  simp only [needSymbol_of_lt lt, needCode_of_valid valid, needOpen_of_open isOpen, Run.ok_andThen]

/-- Settles O49: the packing law for the bits of the code. -/
theorem hencSendsTheCode : Obligations.HencSendsTheCode := by
  intro s sym live lt valid isOpen
  rw [exec_henc lt valid isOpen, ← codesOf_singleton_length]
  refine ⟨fun coded room => ?_, fun bare => ?_, fun coded full => ?_⟩
  · obtain ⟨t, put, all⟩ := putBitList_packs room
    obtain ⟨added, bytes, -⟩ := all.written
    exact ⟨t, command_of_ok live ((encSym_of_coded coded).trans put), all.frame, all.packed,
      all.closed.trans isOpen, all.limit, added, bytes.symm⟩
  · have info : errorInfo (Instr.henc sym).opcode (BitVec.ofNat 24 sym) = BitVec.ofNat 32 (0x50000000 + sym) :=
      errorInfo_ofNat 0x50 (by omega)
    rw [command_of_raise live (encSym_of_bare bare), errorEntry_eq, info]
    rfl
  · obtain ⟨t, put, cut⟩ := putBitList_refused full
    have info : errorInfo (Instr.henc sym).opcode 0 = 0x50000000 := errorInfo_zero 0x50
    refine ⟨t, cut, ?_⟩
    rw [command_of_raise live ((encSym_of_coded coded).trans put), errorEntry_eq, info]
    rfl

/-! # HDEC and XDEC of a whole symbol (spec/45_huffman.md R241, R244, R246) -/

/-- Settles O50: the walk ends at the end of the path, and noting the symbol touches neither the unpacker nor IN. -/
theorem hdecFollowsCtToALeaf : Obligations.HdecFollowsCtToALeaf := by
  intro s path rest sym live valid ne leaf unread
  obtain ⟨t, decodes, ⟨u, n, -, rfl⟩, left, eos⟩ := decSym_of_path ne leaf unread
  exact ⟨_, exec_hdec_of_ok live valid decodes, rfl, left, rfl, eos⟩

/-- Once a symbol is decoded XDEC emits its bytes from the state that notes it. -/
theorem exec_xdec_of_decoded {s t : State} {sym : Nat} (valid : s.cn.valid = true) (decodes : decSym s = .ok sym t) :
    exec .xdec s = command .xdec (fun _ => emitSymbolBytes sym t) s := by
  show execXdec s = _
  exact command_congr (by rw [needCode_of_valid valid, Run.ok_andThen, decodes, Run.ok_andThen])

/-- Settles O51: decoding leaves OUT as it is, so there is room for the bytes exactly where there was before. -/
theorem xdecEmitsTheDecodedSymbol : Obligations.XdecEmitsTheDecodedSymbol := by
  intro s path rest sym live valid ne leaf unread
  obtain ⟨t, decodes, ⟨u, n, -, rfl⟩, left, eos⟩ := decSym_of_path ne leaf unread
  rw [exec_xdec_of_decoded valid decodes]
  by_cases room : OutRoom (symbolBytes sym).length s
  · exact ⟨_, command_of_ok live (emitSymbolBytes_of_room room), fun _ => rfl, absurd room, left, rfl, rfl, eos⟩
  · have info : errorInfo Instr.xdec.opcode 0 = 0x52000000 := errorInfo_zero 0x52
    refine ⟨_, command_of_raise live (emitSymbolBytes_refused room), fun r => absurd r room, fun _ => ?_, left, rfl,
      rfl, eos⟩
    rw [errorEntry_eq, info]
    rfl

/-! # HDEC and XDEC of a truncated symbol (spec/45_huffman.md R241, spec/60_exceptions.md R264) -/

theorem decSym_of_raise {s t : State} {c : Cause} {p : BitVec 24}
    (walk : decLoop (bitsLeft s + 1) s.cn.ct 0 s = .raise c p t) : decSym s = .raise c p t := by
  rw [decSym, walk, Run.raise_andThen]

/-- Neither decoder goes on after DecSym raises. -/
theorem exec_decoder_of_raise {s t : State} {i : Instr} {c : Cause} {p : BitVec 24} (live : Live s)
    (valid : s.cn.valid = true) (decoder : i = .hdec ∨ i = .xdec) (raises : decSym s = .raise c p t) :
    exec i s = .next (errorEntry c p i.opcode t) := by
  obtain rfl | rfl := decoder
  · show execHdec s = _
    exact command_of_raise live (by rw [needCode_of_valid valid, Run.ok_andThen, raises, Run.raise_andThen])
  · show execXdec s = _
    exact command_of_raise live (by rw [needCode_of_valid valid, Run.ok_andThen, raises, Run.raise_andThen])

/-- A payload is cut to its 24 bits (spec/60_exceptions.md R265). -/
theorem errorInfo_ofNat_mod (o : BitVec 8) (p : Nat) :
    errorInfo o (BitVec.ofNat 24 p) = BitVec.ofNat 32 (o.toNat * 2 ^ 24 + p % 2 ^ 24) := by
  rw [errorInfo, BitVec.toNat_ofNat]

/-- Settles O52: the walk reads every bit, and GetBit then meets the end of the stream or the I/O error. -/
theorem decodingATruncatedSymbol : Obligations.DecodingATruncatedSymbol := by
  intro s i live valid decoder noLeaf
  have enough : (unreadBits s).length < bitsLeft s + 1 := Nat.lt_succ_of_le (unreadBits_length_le s)
  by_cases clean : EndsClean s
  · obtain ⟨t, walk, ⟨u, n, -, rfl⟩, gone, ended⟩ := decLoop_of_truncated (k := 0) clean noLeaf enough
    refine ⟨_, exec_decoder_of_raise live valid decoder (decSym_of_raise walk), rfl, fun _ => ⟨ended, ?_⟩,
      absurd clean, gone, rfl, rfl⟩
    rw [errorEntry_er, Nat.zero_add, errorInfo_ofNat_mod]
    rfl
  · obtain ⟨t, walk, ⟨u, n, -, rfl⟩, gone, eos⟩ := decLoop_of_ioerr (k := 0) clean noLeaf enough
    have notEnded : s.bi.eos = false := Bool.eq_false_iff.mpr fun ended => clean (.inl ended)
    refine ⟨_, exec_decoder_of_raise live valid decoder (decSym_of_raise walk), rfl, fun c => absurd c clean,
      fun _ => ⟨eos.trans notEnded, ?_⟩, gone, rfl, rfl⟩
    rw [errorEntry_er, errorInfo_zero]
    rfl

end Sys2Proof.Machine
end

section
/-! The exception family: the causes a command can raise (spec/60_exceptions.md R261, R265), and the idle engine
(R278). -/

namespace Sys2Proof.Machine

/-! # The causes a run can raise (spec/60_exceptions.md R261) -/

/-- The cause table lists `c` for the command `i`. -/
def canRaise (i : Instr) (c : Cause) : Bool := (causesOf i).contains c.code

/-- The run ends well with HALT still 0, or it raises a cause listed for `i`. -/
def RaisesListed {α : Type} (i : Instr) : Run α → Prop
  | .ok _ t => Live t
  | .raise c _ _ => canRaise i c = true

section Raises

variable {α β : Type} {i : Instr} {s : State}

theorem RaisesListed.andThen {r : Run α} {f : α → State → Run β} (first : RaisesListed i r)
    (second : ∀ a t, Live t → RaisesListed i (f a t)) : RaisesListed i (r.andThen f) := by
  cases r with
  | ok a t => exact second a t first
  | raise c p t => exact first

theorem RaisesListed.ite {p : Prop} [Decidable p] {a b : Run α} (yes : RaisesListed i a) (no : RaisesListed i b) :
    RaisesListed i (if p then a else b) := by
  split
  · exact yes
  · exact no

theorem require_listed {b : Bool} {c : Cause} (listed : canRaise i c = true) (live : Live s) :
    RaisesListed i (require b c s) := .ite live listed

theorem needSymbol_listed {sym : Nat} (range : canRaise i .symRange = true) (live : Live s) :
    RaisesListed i (needSymbol sym s) := .ite live range

/-! ## The packer and OUT: E_IO_WRITE, and E_NO_CODE for a symbol without a code -/

theorem outWrite_listed (io : canRaise i .ioWrite = true) (v : Byte) (live : Live s) :
    RaisesListed i (outWrite v s) := .ite live io

theorem putBit_listed (io : canRaise i .ioWrite = true) (b : Bool) (live : Live s) : RaisesListed i (putBit b s) :=
  .ite (.andThen (outWrite_listed io _ live) fun _ _ => id) live

theorem putBitList_listed (io : canRaise i .ioWrite = true) (bits : List Bool) (live : Live s) :
    RaisesListed i (putBitList bits s) := by
  induction bits generalizing s with
  | nil => exact live
  | cons b bits ih => exact .andThen (putBit_listed io b live) fun _ _ => ih

theorem encSym_listed (bare : canRaise i .noCode = true) (io : canRaise i .ioWrite = true) (sym : Nat)
    (live : Live s) : RaisesListed i (encSym sym s) := .ite bare (putBitList_listed io _ live)

theorem writeLengths_listed (io : canRaise i .ioWrite = true) (syms : List Nat) (live : Live s) :
    RaisesListed i (writeLengths syms s) := by
  induction syms generalizing s with
  | nil => exact live
  | cons sym syms ih => exact .andThen (putBitList_listed io _ live) fun _ _ => ih

theorem flushPartial_listed (io : canRaise i .ioWrite = true) (live : Live s) : RaisesListed i (flushPartial s) :=
  .ite live (outWrite_listed io _ live)

theorem outZeros_listed (io : canRaise i .ioWrite = true) (n : Nat) (live : Live s) :
    RaisesListed i (outZeros n s) := by
  rw [outZeros_eq_loop]
  induction n generalizing s with
  | zero => exact live
  | succ n ih => exact .andThen (outWrite_listed io 0 live) fun _ _ => ih

theorem emitSymbolBytes_listed (io : canRaise i .ioWrite = true) (sym : Nat) (live : Live s) :
    RaisesListed i (emitSymbolBytes sym s) :=
  .ite (outWrite_listed io _ live) (.ite live (outZeros_listed io _ live))

/-! ## The unpacker: E_IO_READ, and the end of the stream inside a field or a symbol -/

theorem getBit_listed (io : canRaise i .ioRead = true) (live : Live s) : RaisesListed i (getBit s) := by
  obtain ⟨-, h⟩ | ⟨-, -, h⟩ | ⟨-, -, v, -, h⟩ | ⟨-, -, -, -, h⟩ | ⟨-, -, -, -, h⟩ := getBit_cases s
  · exact h ▸ live
  · exact h ▸ live
  · exact h ▸ live
  · exact h ▸ live
  · exact h ▸ io

theorem decLoop_listed (io : canRaise i .ioRead = true) (cut : canRaise i .eosSymbol = true) (fuel : Nat)
    (n : CodeTree) (k : Nat) (live : Live s) : RaisesListed i (decLoop fuel n k s) := by
  induction fuel generalizing n k s with
  | zero => exact cut
  | succ fuel ih =>
    refine .andThen (getBit_listed io live) fun r t got => ?_
    cases r with
    | none => exact cut
    | some b =>
      dsimp only
      split
      · exact got
      · exact ih _ _ got

theorem decSym_listed (io : canRaise i .ioRead = true) (cut : canRaise i .eosSymbol = true) (live : Live s) :
    RaisesListed i (decSym s) := .andThen (decLoop_listed io cut _ _ _ live) fun _ _ => id

theorem readLength_listed (io : canRaise i .ioRead = true) (cut : canRaise i .eosField = true) (sym m : Nat)
    (v : Byte) (live : Live s) : RaisesListed i (readLength sym m v s) := by
  induction m generalizing v s with
  | zero => exact live
  | succ m ih =>
    refine .andThen (getBit_listed io live) fun r t got => ?_
    cases r with
    | none => exact cut
    | some b => exact ih _ got

theorem readLengths_listed (io : canRaise i .ioRead = true) (cut : canRaise i .eosField = true) (syms : List Nat)
    (live : Live s) : RaisesListed i (readLengths syms s) := by
  induction syms generalizing s with
  | nil => exact live
  | cons sym syms ih =>
    exact .andThen (readLength_listed io cut sym 8 0 live) fun v t got => ih (s := t.setLen sym v) got

/-! ## Counting and the escape transform: E_FREQ_OVF and E_RUN_RANGE -/

theorem incFreq_listed (full : canRaise i .freqOvf = true) (sym : Nat) (live : Live s) :
    RaisesListed i (incFreq sym s) := .ite full live

theorem flushPending_listed {m : Pass} (one : ∀ sym t, Live t → RaisesListed i (emit m sym t)) (live : Live s) :
    RaisesListed i (flushPending m s) := by
  have all : ∀ syms t, Live t → RaisesListed i (emitAll m syms t) := by
    intro syms
    induction syms with
    | nil => exact fun _ => id
    | cons sym syms ih => exact fun t live => .andThen (one sym t live) fun _ => ih
  exact .ite (all _ (s.withEsc .idle) live) live

theorem escByte_listed {m : Pass} (range : canRaise i .runRange = true)
    (one : ∀ sym t, Live t → RaisesListed i (emit m sym t)) (v : Byte) (live : Live s) :
    RaisesListed i (escByte v m s) :=
  .ite (.ite (.ite range live) live) (.andThen (flushPending_listed one live) fun _ => one v.toNat)

/-! ## The canonical code: E_BAD_LENGTHS and E_LEN_OVF -/

theorem checkComplete_listed (bad : canRaise i .badLengths = true) (live : Live s) :
    RaisesListed i (checkComplete s) := .ite bad (.ite bad live)

/-- The lengths of a built tree are complete, so where they fit CTREE's CheckComplete passes (R178). -/
theorem ctreeBody_listed (deep : canRaise i .lenOvf = true) (built : s.fq.ht = buildTree s.fq.freq) (live : Live s) :
    RaisesListed i (ctreeBody s) := by
  cases tooDeep : firstTooDeep s.fq.ht.depths with
  | some sym =>
    rw [ctreeBody, tooDeep]
    exact deep
  | none =>
    have fits := firstTooDeep_eq_none.mp tooDeep
    have complete : kraftSum (lengthsOf s.fq.ht.depths) = 2 ^ 255 := by
      rw [built] at fits ⊢
      exact lengthsOf_buildTree_complete fits
    rw [ctreeBody_of_fits fits complete]
    exact live

/-! # The causes a command can raise (spec/60_exceptions.md R261, R265) -/

/-- Error entry writes the cause raised and the command's own opcode; without a raise HALT is still 0. -/
theorem command_cause_listed {body : State → Run Unit} {t : State} (h : command i body s = .next t) (live : Live s)
    (halted : t.er.halt = true) (raises : RaisesListed i (body s)) :
    t.er.err ∈ causesOf i ∧ t.er.info.extractLsb' 24 8 = i.opcode := by
  obtain ⟨dead, -⟩ | ⟨-, ends⟩ | ⟨-, c, p, u, ends, rfl⟩ := command_cases h
  · exact absurd (live.symm.trans dead) Bool.false_ne_true
  · rw [ends] at raises
    exact absurd (raises.symm.trans halted) Bool.false_ne_true
  · rw [ends] at raises
    exact ⟨List.contains_iff_mem.mp raises, errorInfo_opcode i.opcode p⟩

end Raises

/-- Settles O21: each command is made of operations that raise only causes listed for it. -/
theorem raisedCausesAreThoseOfTheTable : Obligations.RaisedCausesAreThoseOfTheTable := by
  intro i s t live tree h halted
  unfold exec at h
  cases i with
  | srst =>
    cases h
    cases halted
  | nop | symlim | fclr | fbuild => exact command_cause_listed h live halted live
  | bwr bit =>
    exact command_cause_listed h live halted (.andThen (require_listed rfl live) fun _ _ => putBit_listed rfl bit)
  | bfin =>
    exact command_cause_listed h live halted (.andThen (require_listed rfl live) fun _ _ ok =>
      .andThen (flushPartial_listed rfl ok) fun _ _ => id)
  | brd => exact command_cause_listed h live halted (.andThen (getBit_listed rfl live) fun _ _ => id)
  | brdne =>
    refine command_cause_listed h live halted (.andThen (getBit_listed rfl live) fun r t got => ?_)
    cases r with
    | none => rfl
    | some b => exact got
  | finc sym =>
    exact command_cause_listed h live halted (.andThen (needSymbol_listed rfl live) fun _ _ => incFreq_listed rfl sym)
  | fget | lget | lset => exact command_cause_listed h live halted (.andThen (needSymbol_listed rfl live) fun _ _ => id)
  | cget =>
    exact command_cause_listed h live halted (.andThen (needSymbol_listed rfl live) fun _ _ ok =>
      .andThen (require_listed rfl ok) fun _ _ => id)
  | ctree =>
    refine command_cause_listed h live halted ?_
    cases valid : s.fq.valid with
    | false =>
      rw [needTree_of_unbuilt valid]
      rfl
    | true =>
      rw [needTree, valid]
      exact ctreeBody_listed rfl (tree valid) live
  | clen =>
    exact command_cause_listed h live halted
      (.andThen (checkComplete_listed (s := s.setCodeValid false) rfl live) fun _ _ => id)
  | hdrw =>
    exact command_cause_listed h live halted (.andThen (require_listed rfl live) fun _ _ ok =>
      .andThen (require_listed rfl ok) fun _ _ => writeLengths_listed rfl _)
  | hdrr => exact command_cause_listed h live halted (readLengths_listed (s := s.setCodeValid false) rfl rfl _ live)
  | cbyte byte =>
    exact command_cause_listed h live halted (.andThen (require_listed rfl live) fun _ _ =>
      escByte_listed (m := .counting) rfl (fun sym _ => incFreq_listed rfl sym) byte)
  | cend =>
    exact command_cause_listed h live halted (.andThen (require_listed rfl live) fun _ _ =>
      flushPending_listed (m := .counting) fun sym _ => incFreq_listed rfl sym)
  | ebyte byte =>
    exact command_cause_listed h live halted (.andThen (require_listed rfl live) fun _ _ ok =>
      .andThen (require_listed rfl ok) fun _ _ ok => .andThen (require_listed rfl ok) fun _ _ =>
        escByte_listed (m := .encoding) rfl (fun sym _ => encSym_listed rfl rfl sym) byte)
  | eend =>
    exact command_cause_listed h live halted (.andThen (require_listed rfl live) fun _ _ ok =>
      .andThen (require_listed rfl ok) fun _ _ ok => .andThen (require_listed rfl ok) fun _ _ =>
        flushPending_listed (m := .encoding) fun sym _ => encSym_listed rfl rfl sym)
  | xsym sym =>
    exact command_cause_listed h live halted
      (.andThen (needSymbol_listed rfl live) fun _ _ => emitSymbolBytes_listed rfl sym)
  | henc sym =>
    exact command_cause_listed h live halted (.andThen (needSymbol_listed rfl live) fun _ _ ok =>
      .andThen (require_listed rfl ok) fun _ _ ok => .andThen (require_listed rfl ok) fun _ _ =>
        encSym_listed rfl rfl sym)
  | hdec =>
    exact command_cause_listed h live halted (.andThen (require_listed rfl live) fun _ _ ok =>
      .andThen (decSym_listed rfl rfl ok) fun _ _ => id)
  | xdec =>
    exact command_cause_listed h live halted (.andThen (require_listed rfl live) fun _ _ ok =>
      .andThen (decSym_listed rfl rfl ok) fun sym _ => emitSymbolBytes_listed rfl sym)

/-! # The idle engine (spec/60_exceptions.md R278, spec/70_reset_and_hazards.md R301) -/

/-- Settles O8: with no access pending nothing acts on the engine. -/
theorem idleEngineKeepsItsState : Obligations.IdleEngineKeepsItsState := by
  intro s idle
  rw [step, idle]

end Sys2Proof.Machine
end

section
/-! The reset and hazards family: the reset action by SRST and by power-on, the window while BUSY = 1, and that every
CMD write completes (spec/70_reset_and_hazards.md R290 to R306). -/

namespace Sys2Proof.Machine

/-! # Every CMD write completes (spec/70_reset_and_hazards.md R306) -/

/-- SRST is the reset action, and every other command answers through the command wrapper. -/
theorem exec_answers (i : Instr) (s : State) : ∃ t, exec i s = .next t := by
  unfold exec
  cases i with
  | srst => exact ⟨_, rfl⟩
  | _ => exact command_answers _ _ s

theorem exec_host {i : Instr} {s t : State} (run : exec i s = .next t) : t.host = s.host := by
  by_cases reset : i = .srst
  · subst reset
    cases run
    rfl
  · obtain ⟨host, -, -⟩ := (exec_within reset run).outside
    exact host

theorem execute_answers (w : Word) (s : State) : ∃ t, execute w s = .next t := by
  unfold execute
  split
  · exact exec_answers _ s
  · unfold illegalWord
    split <;> exact ⟨_, rfl⟩

theorem execute_host {w : Word} {s t : State} (run : execute w s = .next t) : t.host = s.host := by
  obtain ⟨i, -, run⟩ | ⟨-, -, rfl⟩ | ⟨-, -, rfl⟩ := execute_cases run
  · exact exec_host run
  · rfl
  · rfl

/-- Settles O15: a word always answers, and it leaves the host as the issue did, one word further. -/
theorem everyCmdWriteCompletes : Obligations.EveryCmdWriteCompletes := by
  intro s w rest idle pending
  obtain ⟨t, run⟩ := execute_answers w { s with
    busy := true, host := { s.host with pending := rest, k := s.host.k + 1 } }
  refine ⟨t.withBusy false, ?_, rfl, execute_host run⟩
  rw [step_cmdWrite idle pending, run, complete]

/-! # The reset action (spec/70_reset_and_hazards.md R290 to R292) -/

theorem exec_srst (s : State) : exec .srst s = .next (engineReset s) := rfl

/-- The reset action clears FREQ, LEN and CODE in every entry. -/
theorem engineReset_tables (s : State) {sym : Nat} (lt : sym < 322) :
    (engineReset s).freqAt sym = 0 ∧ (engineReset s).lenAt sym = 0 ∧ (engineReset s).codeAt sym = 0 := by
  simp [State.freqAt, State.lenAt, State.codeAt, engineReset, lt]

/-- Every field of STATUS is 0 after the reset action, BUSY too (spec/40_control.md R136). -/
theorem engineReset_status (s : State) : statusWord (engineReset s) = 0 := by
  simp [statusWord, engineReset, escModeBit]

/-- Settles O3: SRST is the reset action, which writes each item and neither stream nor the host. -/
theorem srstPerformsReset : Obligations.SrstPerformsReset := fun s =>
  ⟨engineReset s, exec_srst s, rfl, rfl, fun _ => engineReset_tables s, rfl, rfl, rfl, rfl, rfl, rfl, rfl,
    engineReset_status s, rfl, rfl, rfl, rfl⟩

/-- Settles O4: both are the reset action, power-on once it is off the host's list. -/
theorem powerOnResetsLikeSrst : Obligations.PowerOnResetsLikeSrst := by
  intro s rest pending
  rw [step_of_pending pending, exec_srst, hostAccess]

/-! # The window while BUSY = 1 (spec/70_reset_and_hazards.md R302, R303) -/

theorem windowWrite_cmd_busy {s : State} (w : Word) (busy : s.busy = true) :
    windowWrite 0 w s = .refused .cmdWhileBusy := by
  simp [windowWrite, busy]

/-- Settles O9: CMD is word 0 of the window. -/
theorem cmdWriteWhileBusyIsRefused : Obligations.CmdWriteWhileBusyIsRefused := by
  intro s w rest busy pending
  rw [step_of_pending pending]
  exact (hostAccess_write (j := 0) (by decide)).trans (windowWrite_cmd_busy w busy)

/-- STATUS mid-command as a number: BUSY above free bits, and nothing above BUSY. -/
theorem busyStatus_toNat (n : Nat) :
    (busyStatus n).toNat = 2 ^ 23 + (Config.midCommandValue n).toNat % 2 ^ 23 := by
  rw [busyStatus, BitVec.toNat_ofNat, Nat.mod_eq_of_lt]
  omega

theorem busyStatus_busy (n : Nat) : (busyStatus n).getLsbD 23 = true := by
  rw [BitVec.getLsbD, Nat.testBit_eq_decide_div_mod_eq, busyStatus_toNat]
  exact decide_eq_true (by omega)

theorem busyStatus_reserved (n : Nat) : (busyStatus n).extractLsb' 24 8 = 0 := by
  refine BitVec.eq_of_toNat_eq ?_
  have reserved : (0 : BitVec 8).toNat = 0 := rfl
  rw [BitVec.extractLsb'_toNat, Nat.shiftRight_eq_div_pow, busyStatus_toNat, reserved]
  omega

/-- What word `j` of the window reads as while BUSY = 1. -/
theorem windowValue_word_busy {s : State} {j : Nat} (busy : s.busy = true) (word : j < 8) :
    windowValue s (4 * j) =
      if j = 1 then busyStatus s.free
      else if j = 2 ∨ j = 3 then Config.midCommandValue s.free
      else if j = 4 then 0x48434531
      else 0 := by
  interval_cases j <;> simp [windowValue, busy, Config.idWord]

/-- Settles O13: a read is made whether BUSY is 0 or 1, and shows `windowValue`. -/
theorem readsWhileBusyArePermitted : Obligations.ReadsWhileBusyArePermitted := by
  intro s j rest busy word pending
  have value := windowValue_word_busy busy word
  refine ⟨windowValue s (4 * j), ?_, ?_, ?_, fun constant => ?_⟩
  · rw [step_of_pending pending]
    refine (hostAccess_read word).trans ?_
    rw [windowRead_engine, windowValue_host]
    simp [busy]
  · rintro rfl
    exact value ▸ ⟨busyStatus_busy s.free, busyStatus_reserved s.free⟩
  · rintro rfl
    exact value
  · rw [value, if_neg (by omega), if_neg (by omega), if_neg (by omega)]

end Sys2Proof.Machine
end
